-- ==== Sys2Proof/Word.lean ====
section
/-! DEFINITION. The machine's word and byte types (10_state.md R19: registers of 32 bits; R28: elements of 8 bits). -/

namespace Sys2Proof

/-- A host-bus word, and every register seen by the host (10_state.md R19). -/
abbrev Word := BitVec 32

/-- A buffer element, the byte that stores one bit (10_state.md R28). -/
abbrev Byte := BitVec 8

end Sys2Proof
end

