-- ==== Sys2Proof/Config.lean ====
section
/-! DEFINITION. The configuration of one block instance (00_scope.md R6, R7, R15; 10_state.md R30 to R38): what the
spec calls parameters, fixed for the lifetime of the instance, with the spec's default values. -/

namespace Sys2Proof

/-- Which LAP bit selects the Barker and trailer patterns (00_scope.md R6, 42_access_code.md R100, 90_conflicts.md C6). -/
inductive TrailerSel
  /-- Bit 0 of the reversed LAP, which is bit 23 of the LAP. -/
  | revBit0
  /-- Bit 0 of the LAP as the host wrote it. -/
  | inputBit0
deriving DecidableEq, Repr

/-- The parameters of 00_scope.md R6. Plain data: `Config.wf` (WellFormed.lean) is the check of R6 and R32. A bit vector
of the spec is a list of Booleans, element 0 first (00_scope.md R8). DESIGN CHOICE, log 1. -/
structure Config where
  /-- `BASE`, the bus address of offset 0 of the window. -/
  base : Nat
  /-- `IN_SIZE`, the number of elements of IN. -/
  inSize : Nat
  /-- `OUT_SIZE`, the number of elements of OUT. -/
  outSize : Nat
  /-- `GEN_SIZE`, the number of elements of GEN. -/
  genSize : Nat
  /-- `G_AC`, element j the coefficient of D^j (10_state.md R33). -/
  gAC : List Bool
  /-- `PN`, byte 0 first (10_state.md R34). -/
  pn : List Byte
  /-- `TRAILER_SEL`. -/
  trailerSel : TrailerSel
  /-- `WHITEN_SEQ` (10_state.md R36). -/
  whitenSeq : List Bool
  /-- `WHITEN_IDX` (10_state.md R37). -/
  whitenIdx : List Nat
  /-- `G23`, element j the coefficient of D^j (10_state.md R38). -/
  g23 : List Bool
deriving DecidableEq, Repr

/-- A bit vector written as the spec prints it, with 0 and 1 (00_scope.md R12). -/
def bits01 (l : List Nat) : List Bool := l.map (fun n => n == 1)

/-- The default `G_AC` of 10_state.md R33. PRESUMED, log 12: the spec marks the value as general knowledge. -/
def Config.defaultGAC : List Bool :=
  bits01 [1, 0, 0, 1, 0, 1, 0, 1, 1, 0, 1, 1, 1, 1, 0, 0, 1, 0] ++
  bits01 [0, 0, 1, 1, 1, 0, 1, 0, 1, 0, 0, 0, 0, 1, 1, 0, 1]

/-- The default `PN` of 10_state.md R34. PRESUMED, log 12. -/
def Config.defaultPN : List Byte :=
  [0x03, 0xF2, 0xA3, 0x3D, 0xD6, 0x9B, 0x12, 0x1C, 0x10]

/-- The default `WHITEN_SEQ` of 10_state.md R36, ten elements a row as printed there. PRESUMED, log 12. -/
def Config.defaultWhitenSeq : List Bool :=
  bits01 [1, 1, 1, 0, 0, 0, 1, 1, 1, 0] ++
  bits01 [1, 1, 0, 0, 0, 1, 0, 1, 0, 0] ++
  bits01 [1, 0, 1, 1, 1, 1, 1, 0, 1, 0] ++
  bits01 [1, 0, 1, 0, 0, 0, 0, 1, 0, 1] ++
  bits01 [1, 0, 1, 1, 1, 1, 0, 0, 1, 1] ++
  bits01 [1, 0, 0, 1, 0, 1, 0, 1, 1, 0] ++
  bits01 [0, 1, 1, 0, 0, 0, 0, 0, 1, 1] ++
  bits01 [0, 1, 1, 0, 1, 0, 1, 1, 1, 0] ++
  bits01 [1, 0, 0, 0, 1, 1, 0, 0, 1, 0] ++
  bits01 [0, 0, 1, 0, 0, 0, 0, 0, 0, 1] ++
  bits01 [0, 0, 1, 0, 0, 1, 1, 0, 1, 0] ++
  bits01 [0, 1, 1, 1, 1, 0, 1, 1, 1, 0] ++
  bits01 [0, 0, 0, 1, 1, 1, 1]

/-- The default `WHITEN_IDX` of 10_state.md R37, eight entries a row as printed there. PRESUMED, log 12. -/
def Config.defaultWhitenIdx : List Nat :=
  [99, 85, 17, 50, 102, 58, 108, 45] ++
  [92, 62, 32, 118, 88, 11, 80, 2] ++
  [37, 69, 55, 8, 20, 40, 74, 114] ++
  [15, 106, 30, 78, 53, 72, 28, 26] ++
  [68, 7, 39, 113, 105, 77, 71, 25] ++
  [84, 49, 57, 44, 61, 117, 10, 1] ++
  [123, 124, 22, 125, 111, 23, 42, 126] ++
  [6, 112, 76, 24, 48, 43, 116, 0]

/-- The default `G23` of 10_state.md R38. PRESUMED, log 12. -/
def Config.defaultG23 : List Bool := bits01 [1, 1, 0, 1, 0, 1]

/-- The default configuration of 00_scope.md R6. `BASE` has no default there: 0 is a DESIGN CHOICE, log 4. -/
def Config.default : Config where
  base := 0
  inSize := 4096
  outSize := 4096
  genSize := 64
  gAC := Config.defaultGAC
  pn := Config.defaultPN
  trailerSel := .revBit0
  whitenSeq := Config.defaultWhitenSeq
  whitenIdx := Config.defaultWhitenIdx
  g23 := Config.defaultG23

end Sys2Proof
end

