-- ==== Sys2Proof/Syntax.lean ====
section
/-! DEFINITION. The instructions: the ten commands of 30_encoding.md R163, one constructor per row of
spec/opcode_table.json. A command word carries no operand (R160), so no constructor has an argument. -/

namespace Sys2Proof

/-- The commands of the block (30_encoding.md R163). -/
inductive Instr
  /-- NOP, 40_bit_order.md R90. -/
  | nop
  /-- A2H, air order to host order, 40_bit_order.md R91. -/
  | a2h
  /-- H2A, host order to air order, 40_bit_order.md R92. -/
  | h2a
  /-- LFSR, codeword of a data block, 41_lfsr.md R81. -/
  | lfsr
  /-- ACGEN, access code of a LAP, 42_access_code.md R102. -/
  | acgen
  /-- ACMATCH, test of a window against a LAP's access code, 42_access_code.md R103. -/
  | acmatch
  /-- UNWHITEN, de-whitening, 43_whitener.md R120. -/
  | unwhiten
  /-- FEC13, rate-1/3 decoding, 44_fec.md R131. -/
  | fec13
  /-- FEC23, rate-2/3 decoding, 44_fec.md R132. -/
  | fec23
  /-- CRC16, 45_crc.md R150. -/
  | crc16
deriving DecidableEq, Repr

end Sys2Proof
end

