-- ==== Sys2Proof/WellFormed.lean ====
section
/-! DEFINITION. Well-formedness: of a configuration (00_scope.md R6, 10_state.md R32), of a command word
(30_encoding.md R160, R161) and of an instruction. Well-formedness of a machine state is `Machine.Inv` in Safety.lean. -/

namespace Sys2Proof

/-- `BASE` is aligned to the 16 KiB window (00_scope.md R6, 20_memory.md R44). -/
def Config.baseOk (c : Config) : Bool := c.base % 0x4000 == 0

/-- `72 ≤ IN_SIZE ≤ 4096` (00_scope.md R6). -/
def Config.inSizeOk (c : Config) : Bool := decide (72 ≤ c.inSize) && decide (c.inSize ≤ 4096)

/-- `72 ≤ OUT_SIZE ≤ 4096` (00_scope.md R6). -/
def Config.outSizeOk (c : Config) : Bool := decide (72 ≤ c.outSize) && decide (c.outSize ≤ 4096)

/-- `1 ≤ GEN_SIZE ≤ 64` (00_scope.md R6). -/
def Config.genSizeOk (c : Config) : Bool := decide (1 ≤ c.genSize) && decide (c.genSize ≤ 64)

/-- `G_AC` has 35 elements with `G_AC[34] = 1` (10_state.md R32). -/
def Config.gACOk (c : Config) : Bool := c.gAC.length == 35 && c.gAC.getD 34 false

/-- `PN` has 9 bytes (10_state.md R32). -/
def Config.pnOk (c : Config) : Bool := c.pn.length == 9

/-- `WHITEN_SEQ` has 127 elements (10_state.md R32). -/
def Config.whitenSeqOk (c : Config) : Bool := c.whitenSeq.length == 127

/-- `WHITEN_IDX` has 64 entries, each in 0..126 (10_state.md R32). -/
def Config.whitenIdxOk (c : Config) : Bool := c.whitenIdx.length == 64 && c.whitenIdx.all (fun i => decide (i < 127))

/-- `G23` has 6 elements with `G23[5] = 1` (10_state.md R32). -/
def Config.g23Ok (c : Config) : Bool := c.g23.length == 6 && c.g23.getD 5 false

/-- The constraints every configuration must meet (00_scope.md R6, 10_state.md R32; log 19). -/
def Config.wf (c : Config) : Bool :=
  c.baseOk && c.inSizeOk && c.outSizeOk && c.genSizeOk && c.gACOk && c.pnOk && c.whitenSeqOk && c.whitenIdxOk && c.g23Ok

/-- The reserved field [31:4] of a command word is zero (30_encoding.md R160). -/
def wordRsvOk (w : Word) : Bool := w.extractLsb' 4 28 == 0#28

/-- The opcode field [3:0] of a command word is not one of 10..15 (30_encoding.md R161). -/
def wordOpcodeOk (w : Word) : Bool := decide ((w.extractLsb' 0 4).toNat < 10)

/-- A legal command word (30_encoding.md R161). -/
def wordOk (w : Word) : Bool := wordRsvOk w && wordOpcodeOk w

/-- An instruction has no operand, so there is nothing to check: every instruction is well-formed (30_encoding.md R160:
"There is no other field"). -/
def Instr.wf (_ : Instr) : Bool := true

end Sys2Proof
end

