-- ==== Sys2Proof/Decode.lean ====
section
/-! DEFINITION. Decoding and encoding of command words (30_encoding.md R160 to R165), on words and on the bytes the
host bus carries (20_memory.md R48), and the reading of an opcode-table word. -/

namespace Sys2Proof

/-- Why a word or a run of bytes is no command. Both kinds of illegal word commit with error 1, ILLEGAL
(30_encoding.md R161). -/
inductive DecodeError
  /-- Bits [31:4] are not all zero. -/
  | reservedBits
  /-- Bits [31:4] are zero and the opcode is one of 10..15. -/
  | unknownOpcode
  /-- Fewer than four bytes: no whole command word (30_encoding.md R165). -/
  | truncated
deriving DecidableEq, Repr

/-- The OPCODE field [3:0] (30_encoding.md R160). -/
def opcodeField (w : Word) : BitVec 4 := w.extractLsb' 0 4

/-- The RSV field [31:4] (30_encoding.md R160). -/
def rsvField (w : Word) : BitVec 28 := w.extractLsb' 4 28

/-- The opcode map (30_encoding.md R163). -/
def instrOfOpcode (op : BitVec 4) : Option Instr :=
  match op.toNat with
  | 0 => some .nop
  | 1 => some .a2h
  | 2 => some .h2a
  | 3 => some .lfsr
  | 4 => some .acgen
  | 5 => some .acmatch
  | 6 => some .unwhiten
  | 7 => some .fec13
  | 8 => some .fec23
  | 9 => some .crc16
  | _ => none

/-- The decoder of 30_encoding.md R164, total over all words. -/
def decodeWord (w : Word) : Except DecodeError Instr :=
  if rsvField w = 0 then
    match instrOfOpcode (opcodeField w) with
    | some i => .ok i
    | none => .error .unknownOpcode
  else .error .reservedBits

/-- A word from four bytes, lowest address first (little-endian, 20_memory.md R48). -/
def wordOfBytes (b0 b1 b2 b3 : Byte) : Word := b3 ++ b2 ++ b1 ++ b0

/-- The four bytes of a word, lowest address first (20_memory.md R48). -/
def bytesOfWord (w : Word) : List Byte :=
  [w.extractLsb' 0 8, w.extractLsb' 8 8, w.extractLsb' 16 8, w.extractLsb' 24 8]

/-- The decoder on bytes: a command is always one word of four bytes (30_encoding.md R165), and the rest is returned. -/
def decodeBytes : List Byte → Except DecodeError (Instr × List Byte)
  | b0 :: b1 :: b2 :: b3 :: rest =>
    match decodeWord (wordOfBytes b0 b1 b2 b3) with
    | .ok i => .ok (i, rest)
    | .error e => .error e
  | _ => .error .truncated

/-- The opcode of a command (30_encoding.md R163). -/
def Instr.opcode : Instr → BitVec 4
  | .nop => 0
  | .a2h => 1
  | .h2a => 2
  | .lfsr => 3
  | .acgen => 4
  | .acmatch => 5
  | .unwhiten => 6
  | .fec13 => 7
  | .fec23 => 8
  | .crc16 => 9

/-- The command word of a command: RSV zero, then the opcode (30_encoding.md R160, R163). -/
def encode (i : Instr) : Word := 0#28 ++ i.opcode

/-- The bytes of a command as a 32-bit bus write to CMD carries them. -/
def encodeBytes (i : Instr) : List Byte := bytesOfWord (encode i)

/-- The command word that an opcode-table word of `nbits` bits stands for: its bits above `nbits` are zero. -/
def commandWordOf (nbits w : Nat) : Word := BitVec.ofNat 32 (w % 2 ^ nbits)

/-- The instruction the decoder reads from an opcode-table word, laid out in bytes as the bus carries it
(DEDUCED, log 11). -/
def decodeTableWord (nbits w : Nat) : Option Instr :=
  match decodeBytes (bytesOfWord (commandWordOf nbits w)) with
  | .ok (i, _) => some i
  | .error _ => none

end Sys2Proof
end

