-- ==== Sys2Proof/Machine/State.lean ====
section
/-! DEFINITION. The state of the machine as plain data (10_state.md), its faults and refusals, the events of its
environment, and the state after a hard reset (70_reset_and_hazards.md R190). -/

namespace Sys2Proof.Machine

/-- The registers of the register map (10_state.md R19), by name. -/
inductive Reg
  | id | ctrl | status | cmd | len | offset | klen | lap | uap | clk | skip | value | result | ac0 | ac1 | ac2
deriving DecidableEq, Repr

/-- The pending-command latch PEND (10_state.md R27). -/
inductive Pend
  | idle
  /-- A command is pending; `w` is its CMD word. -/
  | busy (w : Word)
deriving DecidableEq, Repr

/-- PEND holds a command. -/
def Pend.isBusy : Pend → Bool
  | .idle => false
  | .busy _ => true

/-- The fields of STATUS (10_state.md R24). BUSY is stored beside PEND, as R61 and R62 write both; that they agree is an
invariant (10_state.md R43; DEDUCED, log 16). -/
structure Status where
  /-- BUSY, bit 0. -/
  busy : Bool
  /-- DONE, bit 1. -/
  doneFlag : Bool
  /-- ERR, bit 2. -/
  errFlag : Bool
  /-- MATCH, bit 3. -/
  matchFlag : Bool
  /-- ERRCODE, bits 7:4. -/
  errCode : BitVec 4
deriving DecidableEq, Repr

/-- One host-bus access (20_memory.md R45 to R47), at a bus address; offset 0 of the window is at `BASE` (log 10). -/
inductive HostAccess
  /-- `MemRead`: an `n`-byte read. -/
  | read (addr n : Nat)
  /-- `MemWrite`: an `n`-byte write of the low `8n` bits of `v`. -/
  | write (addr n : Nat) (v : Word)
deriving DecidableEq, Repr

/-- What can happen next (00_scope.md R14; DESIGN CHOICE, log 2). -/
inductive Event
  /-- The host performs one access. -/
  | access (h : HostAccess)
  /-- The engine takes its step, if it is enabled (60_exceptions.md R62; log 3). -/
  | engine
  /-- The platform's reset input (70_reset_and_hazards.md R190). -/
  | hardReset
deriving DecidableEq, Repr

/-- The buffer elements that carry a written-mark, by window offset (10_state.md R28, R29; 20_memory.md R44). An offset
that is not listed has no mark and no value (log 6). -/
abbrev Memory := List Host.Cell

/-- The canonical form of a memory: offsets strictly rising. An unlisted offset reads as no value, so no entry can equal
what an unlisted offset reads as. -/
def Memory.wf : Memory → Bool
  | [] => true
  | [_] => true
  | c :: d :: m => decide (c.1 < d.1) && Memory.wf (d :: m)

/-- The state of one block instance (10_state.md R16), its configuration beside it (log 1), and the model's own two
fields `inbox` and `readLog`. -/
structure State where
  /-- The configuration of the instance; no step changes it (00_scope.md R7). -/
  cfg : Config
  /-- CTRL.IRQ_EN (10_state.md R23). -/
  irqEn : Bool
  /-- STATUS (10_state.md R24). -/
  status : Status
  /-- CMD, all 32 bits (10_state.md R21). -/
  cmd : Word
  /-- LEN[15:0] (10_state.md R20). -/
  len : BitVec 16
  /-- OFFSET[15:0]. -/
  offset : BitVec 16
  /-- KLEN[15:0]. -/
  klen : BitVec 16
  /-- LAP[23:0]. -/
  lap : BitVec 24
  /-- UAP[7:0]. -/
  uap : BitVec 8
  /-- CLK. -/
  clk : Word
  /-- SKIP[15:0]. -/
  skip : BitVec 16
  /-- VALUE. -/
  value : Word
  /-- RESULT (10_state.md R25). -/
  result : Word
  /-- AC0. -/
  ac0 : Word
  /-- AC1. -/
  ac1 : Word
  /-- AC2[7:0]. -/
  ac2 : Byte
  /-- PEND (10_state.md R27). -/
  pend : Pend
  /-- The elements of IN, OUT and GEN that carry a written-mark. -/
  mem : Memory
  /-- The model's own: the events still to happen, oldest first (log 2). -/
  inbox : List Event
  /-- The model's own: what completed host reads returned, newest first (log 15). -/
  readLog : List Word
deriving DecidableEq, Repr

/-- Why the machine can stop. -/
inductive Fault
  /-- Raised by a host read (Machine/HostBus.lean) and by a command (`commit`) that reads a buffer element without its
  written-mark (10_state.md R29, 60_exceptions.md R62). Safe: the chip goes on with some byte. -/
  | unwrittenRead
  /-- Raised by a misformed host access (20_memory.md R45, 93_implementation_defined.md I6). Safe: the block's state is
  unchanged and the host may go on (log 5). -/
  | busError
deriving DecidableEq, Repr

/-- Why the machine can refuse an instruction. No instruction is refused: every row of the opcode table has its
meaning. -/
inductive Refusal
  /-- Raised by an arm of `exec` whose instruction has no meaning yet; none is left. Safe: nothing is claimed. -/
  | notModelled (mnemonic : String)
deriving DecidableEq, Repr

/-- STATUS after reset: 0 (70_reset_and_hazards.md R190). -/
def Status.reset : Status where
  busy := false
  doneFlag := false
  errFlag := false
  matchFlag := false
  errCode := 0

/-- The machine right after a hard reset (70_reset_and_hazards.md R190), in the default configuration, with nothing in
the environment's inbox. -/
def State.reset : State where
  cfg := Config.default
  irqEn := false
  status := Status.reset
  cmd := 0
  len := 0
  offset := 0
  klen := 0
  lap := 0
  uap := 0
  clk := 0
  skip := 0
  value := 0
  result := 0
  ac0 := 0
  ac1 := 0
  ac2 := 0
  pend := .idle
  mem := []
  inbox := []
  readLog := []

end Sys2Proof.Machine
end

