-- ==== Sys2Proof/Machine/Ops.lean ====
section
/-! DEFINITION. The named operations over memory and registers that every meaning uses: reading and writing buffer
elements, issue (60_exceptions.md R61), commit (R62, R68) and the two resets (70_reset_and_hazards.md R190, R192).
The block has no trap and no return from one (60_exceptions.md R70, R71): the failing commit `commitErr` stands where
another machine takes an exception. -/

namespace Sys2Proof.Machine

/-! Memory: elements by window offset. -/

/-- Window offset of IN[0] (20_memory.md R44). -/
def inBase : Nat := 0x1000

/-- Window offset of OUT[0] (20_memory.md R44). -/
def outBase : Nat := 0x2000

/-- Window offset of GEN[0] (20_memory.md R44). -/
def genBase : Nat := 0x3000

/-- Size in bytes of the host-bus window (20_memory.md R44). -/
def windowSize : Nat := 0x4000

/-- The element at a window offset, or none if it has no written-mark (10_state.md R29). -/
def Memory.read : Memory → Nat → Option Byte
  | [], _ => none
  | (k, b) :: m, a => if k = a then some b else Memory.read m a

/-- Write an element and set its written-mark (10_state.md R29), keeping the offsets rising. -/
def Memory.write : Memory → Nat → Byte → Memory
  | [], a, b => [(a, b)]
  | (k, c) :: m, a, b =>
    if a < k then (a, b) :: (k, c) :: m
    else if a = k then (a, b) :: m
    else (k, c) :: Memory.write m a b

/-- Write bytes to consecutive elements, the first at `a`. -/
def Memory.writeBytes : Memory → Nat → List Byte → Memory
  | m, _, [] => m
  | m, a, b :: bs => Memory.writeBytes (m.write a b) (a + 1) bs

/-- The element that stores a bit (10_state.md R28: the engine writes only 0 and 1). -/
def bitByte (b : Bool) : Byte := if b then 1 else 0

/-- `IN[i]`, none without its mark. -/
def State.inElem (s : State) (i : Nat) : Option Byte := s.mem.read (inBase + i)

/-- `OUT[i]`, none without its mark. -/
def State.outElem (s : State) (i : Nat) : Option Byte := s.mem.read (outBase + i)

/-- `GEN[i]`, none without its mark. -/
def State.genElem (s : State) (i : Nat) : Option Byte := s.mem.read (genBase + i)

/-! The outcome of evaluating a command, and its commit. -/

/-- The error codes of 60_exceptions.md R60. -/
inductive ErrorCode
  | illegal | param | range | contract | uncorrectable
deriving DecidableEq, Repr

/-- The value STATUS.ERRCODE takes (60_exceptions.md R60). -/
def ErrorCode.code : ErrorCode → BitVec 4
  | .illegal => 1
  | .param => 2
  | .range => 3
  | .contract => 4
  | .uncorrectable => 5

/-- The values ACGEN gives AC0, AC1 and AC2 (10_state.md R25). -/
structure AccessWords where
  ac0 : Word
  ac1 : Word
  ac2 : Byte
deriving DecidableEq, Repr

/-- The staged writes S of a successful command (60_exceptions.md R62): OUT from element 0 on, RESULT, AC0 to AC2 and
STATUS.MATCH, each only where the command stages it. -/
structure Staged where
  out : List Bool := []
  result : Option Word := none
  ac : Option AccessWords := none
  matchFlag : Option Bool := none
deriving DecidableEq, Repr

/-- What evaluating a command gives (60_exceptions.md R62): success with staged writes, an error code, or the read of
an element without its written-mark, which is the model fault of 10_state.md R29. -/
inductive Evaluation
  | ok (S : Staged)
  | err (c : ErrorCode)
  | unwritten
deriving DecidableEq, Repr

/-- The commit of a successful command: every staged write, DONE, ERR, ERRCODE, BUSY and PEND in one indivisible step
(60_exceptions.md R62). -/
def commitOk (S : Staged) (s : State) : State :=
  { s with
    status :=
      { busy := false
        doneFlag := true
        errFlag := false
        matchFlag := S.matchFlag.getD s.status.matchFlag
        errCode := 0 }
    result := S.result.getD s.result
    ac0 := (S.ac.map (·.ac0)).getD s.ac0
    ac1 := (S.ac.map (·.ac1)).getD s.ac1
    ac2 := (S.ac.map (·.ac2)).getD s.ac2
    pend := .idle
    mem := s.mem.writeBytes outBase (S.out.map bitByte) }

/-- The commit of a failed command: nothing of the staged writes, the error code in STATUS (60_exceptions.md R62, R68). -/
def commitErr (c : ErrorCode) (s : State) : State :=
  { s with
    status :=
      { busy := false
        doneFlag := true
        errFlag := true
        matchFlag := s.status.matchFlag
        errCode := c.code }
    pend := .idle }

/-- The engine's one step, given the evaluation of the pending command (60_exceptions.md R62). -/
def commit (e : Evaluation) (s : State) : Host.Outcome State Fault Refusal :=
  match e with
  | .ok S => .next (commitOk S s)
  | .err c => .next (commitErr c s)
  | .unwritten => .fault .unwrittenRead

/-- The issue of a command word (60_exceptions.md R61), whatever PEND is; `writeReg` calls it only when PEND is Idle. -/
def issue (w : Word) (s : State) : State :=
  { s with
    cmd := w
    pend := .busy w
    status :=
      { busy := true
        doneFlag := false
        errFlag := false
        matchFlag := s.status.matchFlag
        errCode := 0 } }

/-! Resets. -/

/-- The soft reset (70_reset_and_hazards.md R192): every register but ID to its reset value, the pending command
discarded; buffers, marks and configuration kept. What the host has still to do is its own (log 14). -/
def softReset (s : State) : State :=
  { State.reset with
    cfg := s.cfg
    mem := s.mem
    inbox := s.inbox
    readLog := s.readLog }

/-- The hard reset (70_reset_and_hazards.md R190): as the soft reset, and every written-mark cleared. -/
def hardReset (s : State) : State :=
  { softReset s with mem := [] }

end Sys2Proof.Machine
end

