-- ==== Sys2Proof/Machine/Operands.lean ====
section
/-! DEFINITION. The operands of the commands (30_encoding.md R162) and the reading of buffer ranges as bits, with the
CONTRACT check and the model fault for unwritten elements (60_exceptions.md R66; 10_state.md R29). -/

namespace Sys2Proof.Machine

/-- `LEN`, zero-extended to a natural number (30_encoding.md R162). -/
def State.lenN (s : State) : Nat := s.len.toNat

/-- `OFFSET`, zero-extended. -/
def State.offsetN (s : State) : Nat := s.offset.toNat

/-- `KLEN`, zero-extended. -/
def State.klenN (s : State) : Nat := s.klen.toNat

/-- `CLK`, zero-extended. -/
def State.clkN (s : State) : Nat := s.clk.toNat

/-- `SKIP`, zero-extended. -/
def State.skipN (s : State) : Nat := s.skip.toNat

/-- An element as a bit: only the values 0 and 1 are one (10_state.md R28). -/
def bitOfByte (b : Byte) : Option Bool :=
  if b = 0 then some false else if b = 1 then some true else none

/-- What reading a range of elements as bits gives. -/
inductive Scan
  /-- Every element has its mark and is 0 or 1. -/
  | bits (bs : List Bool)
  /-- An element is neither 0 nor 1, and every element before it has its mark and is a bit. -/
  | contract
  /-- An element has no mark, and every element before it has its mark and is a bit. -/
  | unwritten
deriving DecidableEq, Repr

/-- Read `n` elements from window offset `a` on, in index order, as the check loops of the command pseudocode do. The
first element that is no bit or has no mark decides (DEDUCED, log 7). -/
def Memory.scan (m : Memory) : Nat → Nat → Scan
  | _, 0 => .bits []
  | a, n + 1 =>
    match m.read a with
    | none => .unwritten
    | some b =>
      match bitOfByte b with
      | none => .contract
      | some v =>
        match Memory.scan m (a + 1) n with
        | .bits bs => .bits (v :: bs)
        | .contract => .contract
        | .unwritten => .unwritten

/-- Continue with the bits of a range, or end the command as 60_exceptions.md R66 and 10_state.md R29 say. -/
def Scan.onBits (r : Scan) (k : List Bool → Evaluation) : Evaluation :=
  match r with
  | .bits bs => k bs
  | .contract => .err .contract
  | .unwritten => .unwritten

/-- `IN[OFFSET .. OFFSET+n-1]` (30_encoding.md R162). -/
def State.scanIn (s : State) (n : Nat) : Scan := s.mem.scan (inBase + s.offsetN) n

/-- `GEN[0 .. n-1]`. -/
def State.scanGen (s : State) (n : Nat) : Scan := s.mem.scan genBase n

/-- The read range `IN[OFFSET .. OFFSET+n-1]` passes the end of IN (60_exceptions.md R65); the sum is exact. -/
def State.inOverrun (s : State) (n : Nat) : Bool := decide (s.cfg.inSize < s.offsetN + n)

/-- An output of `n` elements passes the end of OUT (60_exceptions.md R65). -/
def State.outOverrun (s : State) (n : Nat) : Bool := decide (s.cfg.outSize < n)

end Sys2Proof.Machine
end

