-- ==== Sys2Proof/Machine/Lfsr.lean ====
section
/-! DEFINITION. gf2_polynomial_divider: LFSRDiv and LFSR (41_lfsr.md R80, R81). -/

namespace Sys2Proof.Machine

/-- One step of the division register `cw` with the generator's low coefficients `g` and data bit `d`
(41_lfsr.md R80): shift toward higher indices with 0 entering, XORed with the generator when the feedback is 1. -/
def lfsrStep (g cw : List Bool) (d : Bool) : List Bool :=
  let fb := d ^^ cw.getLastD false
  List.zipWith (fun c gj => c ^^ (gj && fb)) (false :: cw.dropLast) g

/-- `LFSRDiv(data, n, k, g)` (41_lfsr.md R80): `data[k-1]` first, the register of `n - k` stages starting at zero; only
`g[0..n-k-1]` is read. -/
def lfsrDiv (data : List Bool) (n k : Nat) (g : List Bool) : List Bool :=
  (data.take k).reverse.foldl (lfsrStep (g.take (n - k))) (List.replicate (n - k) false)

/-- LFSR (41_lfsr.md R81). -/
def evalLfsr (s : State) : Evaluation :=
  let n := s.lenN
  let k := s.klenN
  if n ≤ k ∨ s.cfg.genSize < n - k then .err .param
  else if s.inOverrun k then .err .range
  else (s.scanIn k).onBits fun data =>
    (s.scanGen (n - k)).onBits fun g => .ok { out := lfsrDiv data n k g }

/-- The meaning of LFSR. -/
def execLfsr (s : State) : Host.Outcome State Fault Refusal := commit (evalLfsr s) s

end Sys2Proof.Machine
end

