-- ==== Sys2Proof/Machine/AccessCode.lean ====
section
/-! DEFINITION. access-code generator and detector: ACGEN and ACMATCH (42_access_code.md R100 to R103). -/

namespace Sys2Proof.Machine

/-- The bits of a byte, most significant first (42_access_code.md R101). -/
def msbBits (b : Byte) : List Bool := (List.range 8).map (fun t => b.getLsbD (7 - t))

/-- The byte whose bits are listed most significant first (42_access_code.md R100, step 6). -/
def byteOfMsb (bs : List Bool) : Byte :=
  bs.foldl (fun acc b => (acc <<< 1) ||| BitVec.setWidth 8 (BitVec.ofBool b)) 0

/-- `rev8`: a byte with its bit order reversed (00_scope.md R8). -/
def rev8 (b : Byte) : Byte := byteOfMsb (msbBits b).reverse

/-- `Expand(F)`: one element per bit, byte 0 first, most significant bit first (42_access_code.md R101). -/
def expand (f : List Byte) : List Bool := f.flatMap msbBits

/-- Step 1 of 42_access_code.md R100: the bits of each LAP byte reversed. -/
def revLap (lap : BitVec 24) : BitVec 24 :=
  rev8 (lap.extractLsb' 0 8) ++ rev8 (lap.extractLsb' 8 8) ++ rev8 (lap.extractLsb' 16 8)

/-- The selector bit of the Barker and trailer patterns (42_access_code.md R100, step 2). -/
def trailerBit (sel : TrailerSel) (lap : BitVec 24) : Bool :=
  match sel with
  | .revBit0 => (revLap lap).getLsbD 0
  | .inputBit0 => lap.getLsbD 0

/-- `F[7][1:0]` of 10_state.md R35. -/
def barkerHead (sel : Bool) : BitVec 2 := if sel then 0b11 else 0b00

/-- `F[8]` of 10_state.md R35. -/
def trailerByte (sel : Bool) : Byte := if sel then 0x2A else 0xD5

/-- Step 2 of 42_access_code.md R100: the reversed LAP and the trailer packed into bytes 4 to 8. -/
def packLap (sel : TrailerSel) (lap : BitVec 24) : List Byte :=
  let r := revLap lap
  let t := trailerBit sel lap
  [0, 0, 0, 0, BitVec.setWidth 8 (r.extractLsb' 22 2), r.extractLsb' 14 8, r.extractLsb' 6 8,
    r.extractLsb' 0 6 ++ barkerHead t, trailerByte t]

/-- Steps 3 and 7 of 42_access_code.md R100: XOR with the pseudo-random pattern. -/
def xorPn (pn f : List Byte) : List Byte := List.zipWith (· ^^^ ·) f pn

/-- Step 4 of 42_access_code.md R100: the 30 information bits `E[38..67]`. -/
def infoBits (f : List Byte) : List Bool := ((expand f).drop 38).take 30

/-- Step 6 of 42_access_code.md R100: the parity bits at air bits 4 to 37, the low 2 bits of byte 4 kept. -/
def repack (cw : List Bool) (f : List Byte) : List Byte :=
  let kept := (f.getD 4 0).extractLsb' 0 2
  [byteOfMsb (cw.take 4),
   byteOfMsb ((cw.drop 4).take 8),
   byteOfMsb ((cw.drop 12).take 8),
   byteOfMsb ((cw.drop 20).take 8),
   (byteOfMsb ((cw.drop 28).take 6)).extractLsb' 0 6 ++ kept] ++ f.drop 5

/-- Step 8 of 42_access_code.md R100: the preamble ORed into byte 0, chosen by its bit 3 (10_state.md R35). -/
def addPreamble (f : List Byte) : List Byte :=
  match f with
  | [] => []
  | b :: rest => (b ||| (if b.getLsbD 3 then 0xA0 else 0x50)) :: rest

/-- `AC(LAP)`, the 9-byte access code (42_access_code.md R100). -/
def accessCode (c : Config) (lap : BitVec 24) : List Byte :=
  let f := xorPn c.pn (packLap c.trailerSel lap)
  let cw := lfsrDiv (infoBits f) 64 30 c.gAC
  addPreamble (xorPn c.pn (repack cw f))

/-- Four bytes as a word, the first least significant (10_state.md R25). -/
def leWord (f : List Byte) : Word := f.getD 3 0 ++ f.getD 2 0 ++ f.getD 1 0 ++ f.getD 0 0

/-- AC0, AC1 and AC2 of an access code (10_state.md R25). -/
def accessWords (f : List Byte) : AccessWords where
  ac0 := leWord f
  ac1 := leWord (f.drop 4)
  ac2 := f.getD 8 0

/-- ACGEN (42_access_code.md R102). -/
def evalAcgen (s : State) : Evaluation :=
  let f := accessCode s.cfg s.lap
  .ok { out := expand f, ac := some (accessWords f) }

/-- ACMATCH (42_access_code.md R103): exact comparison of 72 elements. -/
def evalAcmatch (s : State) : Evaluation :=
  if s.inOverrun 72 then .err .range
  else (s.scanIn 72).onBits fun window =>
    .ok { matchFlag := some (window == expand (accessCode s.cfg s.lap)) }

/-- The meaning of ACGEN. -/
def execAcgen (s : State) : Host.Outcome State Fault Refusal := commit (evalAcgen s) s

/-- The meaning of ACMATCH. -/
def execAcmatch (s : State) : Host.Outcome State Fault Refusal := commit (evalAcmatch s) s

end Sys2Proof.Machine
end

