-- ==== Sys2Proof/Machine/BitOrder.lean ====
section
/-! DEFINITION. bit_order_converter: NOP, A2H, H2A (40_bit_order.md R90 to R92). -/

namespace Sys2Proof.Machine

/-- Air order to host order: bit `i` has weight `2^i` (40_bit_order.md R91). -/
def packLsb : List Bool → Word
  | [] => 0
  | b :: bs => (packLsb bs <<< 1) ||| BitVec.setWidth 32 (BitVec.ofBool b)

/-- Host order to air order: bit `i` is `(v >> i) & 1` (40_bit_order.md R92). -/
def unpackLsb (v : Word) (n : Nat) : List Bool := (List.range n).map (fun i => v.getLsbD i)

/-- NOP stages nothing (40_bit_order.md R90). -/
def evalNop (_ : State) : Evaluation := .ok {}

/-- A2H (40_bit_order.md R91). -/
def evalA2h (s : State) : Evaluation :=
  if 32 < s.lenN then .err .param
  else if s.inOverrun s.lenN then .err .range
  else (s.scanIn s.lenN).onBits fun bs => .ok { result := some (packLsb bs) }

/-- H2A (40_bit_order.md R92). -/
def evalH2a (s : State) : Evaluation :=
  if 32 < s.lenN then .err .param
  else .ok { out := unpackLsb s.value s.lenN }

/-- The meaning of NOP. -/
def execNop (s : State) : Host.Outcome State Fault Refusal := commit (evalNop s) s

/-- The meaning of A2H. -/
def execA2h (s : State) : Host.Outcome State Fault Refusal := commit (evalA2h s) s

/-- The meaning of H2A. -/
def execH2a (s : State) : Host.Outcome State Fault Refusal := commit (evalH2a s) s

end Sys2Proof.Machine
end

