-- ==== Sys2Proof/Machine/Crc.lean ====
section
/-! DEFINITION. crc16_bluetooth: CRC16 (45_crc.md R150). -/

namespace Sys2Proof.Machine

/-- One step of the CRC register with an input bit (45_crc.md R150): the feedback is taken before the shift, enters at
bit 0, and is XORed into bits 5 and 12. -/
def crcStep (reg : BitVec 16) (b : Bool) : BitVec 16 :=
  let fb := reg.getLsbD 15 ^^ b
  let shifted := (reg <<< 1) ||| BitVec.setWidth 16 (BitVec.ofBool fb)
  if fb then shifted ^^^ 0x1020 else shifted

/-- The CRC of a bit range, first bit first, seeded with the UAP in bits [7:0] (45_crc.md R150). -/
def crc16Bits (uap : BitVec 8) (bs : List Bool) : BitVec 16 := bs.foldl crcStep (uap.setWidth 16)

/-- CRC16 (45_crc.md R150). -/
def evalCrc16 (s : State) : Evaluation :=
  if s.inOverrun s.lenN then .err .range
  else (s.scanIn s.lenN).onBits fun bs => .ok { result := some ((crc16Bits s.uap bs).setWidth 32) }

/-- The meaning of CRC16. -/
def execCrc16 (s : State) : Host.Outcome State Fault Refusal := commit (evalCrc16 s) s

end Sys2Proof.Machine
end

