-- ==== Sys2Proof/Machine/Fec.lean ====
section
/-! DEFINITION. fec_decoder_r1_3 and fec_decoder_r2_3_hamming_15_10: FEC13 and FEC23 (44_fec.md R130 to R132), and the
syndrome table (10_state.md R39). -/

namespace Sys2Proof.Machine

/-- `maj(a, b, c)` (44_fec.md R130). -/
def maj (a b c : Bool) : Bool := (a && b) || (b && c) || (c && a)

/-- Majority decoding of consecutive triples (44_fec.md R131). -/
def fec13Bits : List Bool → List Bool
  | a :: b :: c :: rest => maj a b c :: fec13Bits rest
  | _ => []

/-- FEC13 (44_fec.md R131). LEN counts output bits. -/
def evalFec13 (s : State) : Evaluation :=
  if s.inOverrun (3 * s.lenN) || s.outOverrun s.lenN then .err .range
  else (s.scanIn (3 * s.lenN)).onBits fun bs => .ok { out := fec13Bits bs }

/-- The vector `e_j` of 10 elements with a 1 at element j only (10_state.md R39). -/
def unitVec (j : Nat) : List Bool := (List.range 10).map (fun i => i == j)

/-- `SYN[j] = LFSRDiv(e_j, 15, 10, G23)` (10_state.md R39). -/
def synEntry (g23 : List Bool) (j : Nat) : List Bool := lfsrDiv (unitVec j) 15 10 g23

/-- The least data bit whose SYN entry is the syndrome, if there is one (44_fec.md R132). -/
def synLookup (g23 s : List Bool) : Option Nat := (List.range 10).find? (fun j => synEntry g23 j == s)

/-- The bit vector with element `j` flipped. -/
def flipBit (d : List Bool) (j : Nat) : List Bool := d.modify j not

/-- Element-wise XOR of two bit vectors. -/
def xorBits (a b : List Bool) : List Bool := List.zipWith (· ^^ ·) a b

/-- `popcount` (00_scope.md R10). -/
def popcount (v : List Bool) : Nat := v.count true

/-- Decode one block of 15 received bits to 10 data bits; none if it is uncorrectable (44_fec.md R132). -/
def fec23Block (g23 block : List Bool) : Option (List Bool) :=
  let d := block.take 10
  let p := (block.drop 10).take 5
  let syn := xorBits (lfsrDiv d 15 10 g23) p
  if 2 ≤ popcount syn then (synLookup g23 syn).map (flipBit d) else some d

/-- Decode `n` blocks in order; none as soon as one is uncorrectable (44_fec.md R132, 60_exceptions.md R67). -/
def fec23Blocks (g23 : List Bool) : Nat → List Bool → Option (List Bool)
  | 0, _ => some []
  | n + 1, bs =>
    match fec23Block g23 (bs.take 15) with
    | none => none
    | some d => (fec23Blocks g23 n (bs.drop 15)).map (d ++ ·)

/-- `L'`, LEN rounded up to a multiple of 10 (44_fec.md R132). -/
def paddedLen (l : Nat) : Nat := l + (10 - l % 10) % 10

/-- FEC23 (44_fec.md R132). -/
def evalFec23 (s : State) : Evaluation :=
  let lp := paddedLen s.lenN
  let b := lp / 10
  if s.inOverrun (15 * b) || s.outOverrun lp then .err .range
  else (s.scanIn (15 * b)).onBits fun bs =>
    match fec23Blocks s.cfg.g23 b bs with
    | none => .err .uncorrectable
    | some d => .ok { out := d, result := some (BitVec.ofNat 32 lp) }

/-- The meaning of FEC13. -/
def execFec13 (s : State) : Host.Outcome State Fault Refusal := commit (evalFec13 s) s

/-- The meaning of FEC23. -/
def execFec23 (s : State) : Host.Outcome State Fault Refusal := commit (evalFec23 s) s

end Sys2Proof.Machine
end

