-- ==== Sys2Proof/Machine/Whitener.lean ====
section
/-! DEFINITION. whitener_descrambler: UNWHITEN (43_whitener.md R120). -/

namespace Sys2Proof.Machine

/-- The start index `(WHITEN_IDX[clk mod 64] + skip) mod 127`, an exact sum (43_whitener.md R120). -/
def whitenStart (c : Config) (clk skip : Nat) : Nat := (c.whitenIdx.getD (clk % 64) 0 + skip) % 127

/-- XOR with the whitening sequence from `idx` on, the index wrapping from 126 to 0 (43_whitener.md R120). -/
def unwhitenBits (seq : List Bool) : Nat → List Bool → List Bool
  | _, [] => []
  | idx, b :: bs => (b ^^ seq.getD idx false) :: unwhitenBits seq ((idx + 1) % 127) bs

/-- UNWHITEN (43_whitener.md R120). -/
def evalUnwhiten (s : State) : Evaluation :=
  if s.inOverrun s.lenN || s.outOverrun s.lenN then .err .range
  else (s.scanIn s.lenN).onBits fun bs =>
    .ok { out := unwhitenBits s.cfg.whitenSeq (whitenStart s.cfg s.clkN s.skipN) bs }

/-- The meaning of UNWHITEN. -/
def execUnwhiten (s : State) : Host.Outcome State Fault Refusal := commit (evalUnwhiten s) s

end Sys2Proof.Machine
end

