-- ==== Sys2Proof/Machine/Dispatch.lean ====
section
/-! DEFINITION. The meaning of each command: the engine's commit of that command (60_exceptions.md R62), one arm per
row of the opcode table. -/

namespace Sys2Proof.Machine

def exec (i : Instr) (s : State) : Host.Outcome State Fault Refusal :=
  match i with
  | .nop => Sys2Proof.Machine.execNop s
  | .a2h => Sys2Proof.Machine.execA2h s
  | .h2a => Sys2Proof.Machine.execH2a s
  | .lfsr => Sys2Proof.Machine.execLfsr s
  | .acgen => Sys2Proof.Machine.execAcgen s
  | .acmatch => Sys2Proof.Machine.execAcmatch s
  | .unwhiten => Sys2Proof.Machine.execUnwhiten s
  | .fec13 => Sys2Proof.Machine.execFec13 s
  | .fec23 => Sys2Proof.Machine.execFec23 s
  | .crc16 => Sys2Proof.Machine.execCrc16 s

end Sys2Proof.Machine
end

