-- ==== Sys2Proof/Machine/Flags.lean ====
section
/-! DEFINITION. The flags: STATUS as the host reads it, its write-1-to-clear, and the interrupt line
(10_state.md R24, R26; 60_exceptions.md R69). -/

namespace Sys2Proof.Machine

/-- STATUS as a 32-bit register: BUSY [0], DONE [1], ERR [2], MATCH [3], ERRCODE [7:4], the rest 0 (10_state.md R24). -/
def Status.word (st : Status) : Word :=
  0#24 ++ st.errCode ++ BitVec.ofBool st.matchFlag ++ BitVec.ofBool st.errFlag ++ BitVec.ofBool st.doneFlag ++
    BitVec.ofBool st.busy

/-- A host write of `v` to STATUS while Idle (20_memory.md R47): bit 1 clears DONE, bit 2 clears ERR and ERRCODE. -/
def Status.writeOneToClear (v : Word) (st : Status) : Status :=
  { st with
    doneFlag := st.doneFlag && !v.getLsbD 1
    errFlag := st.errFlag && !v.getLsbD 2
    errCode := if v.getLsbD 2 then 0 else st.errCode }

/-- CTRL as a 32-bit register: IRQ_EN [0]; SRST reads 0 (10_state.md R23). -/
def State.ctrlWord (s : State) : Word := 0#31 ++ BitVec.ofBool s.irqEn

/-- The level-sensitive interrupt line (10_state.md R26). -/
def State.irq (s : State) : Bool := s.irqEn && s.status.doneFlag

end Sys2Proof.Machine
end

