-- ==== Sys2Proof/Machine/HostBus.lean ====
section
/-! DEFINITION. The host bus (20_memory.md R44 to R49, 70_reset_and_hazards.md R194): routing, legality, reads and
writes of registers and buffer windows. -/

namespace Sys2Proof.Machine

/-- The regions of the window (20_memory.md R44). -/
inductive Region
  | registers | inWindow | outWindow | genWindow
deriving DecidableEq, Repr

/-- The region of a window offset (20_memory.md R44). -/
def regionOf (a : Nat) : Region :=
  if a < inBase then .registers
  else if a < outBase then .inWindow
  else if a < genBase then .outWindow
  else .genWindow

/-- The window offset a bus address reaches, or none outside the window (20_memory.md R44). The first byte of an access
decides: one that starts below BASE and reaches into the window is outside it (DESIGN CHOICE, log 20). -/
def windowOffset (c : Config) (addr : Nat) : Option Nat :=
  if c.base ≤ addr ∧ addr < c.base + windowSize then some (addr - c.base) else none

/-- A legal host access at window offset `a` of `n` bytes (20_memory.md R45). -/
def legalAccess (a n : Nat) : Bool :=
  match regionOf a with
  | .registers => n == 4 && a % 4 == 0
  | _ => (n == 1 || n == 2 || n == 4) && a % n == 0

/-- The byte offset of a register (10_state.md R19). -/
def Reg.byteOffset : Reg → Nat
  | .id => 0x000
  | .ctrl => 0x004
  | .status => 0x008
  | .cmd => 0x00C
  | .len => 0x010
  | .offset => 0x014
  | .klen => 0x018
  | .lap => 0x01C
  | .uap => 0x020
  | .clk => 0x024
  | .skip => 0x028
  | .value => 0x02C
  | .result => 0x030
  | .ac0 => 0x034
  | .ac1 => 0x038
  | .ac2 => 0x03C

/-- The register at a byte offset (10_state.md R19); none for a reserved offset. -/
def regAt (a : Nat) : Option Reg :=
  match a with
  | 0x000 => some .id
  | 0x004 => some .ctrl
  | 0x008 => some .status
  | 0x00C => some .cmd
  | 0x010 => some .len
  | 0x014 => some .offset
  | 0x018 => some .klen
  | 0x01C => some .lap
  | 0x020 => some .uap
  | 0x024 => some .clk
  | 0x028 => some .skip
  | 0x02C => some .value
  | 0x030 => some .result
  | 0x034 => some .ac0
  | 0x038 => some .ac1
  | 0x03C => some .ac2
  | _ => none

/-- The constant ID (10_state.md R22). -/
def idValue : Word := 0x41434431

/-- A register as the host reads it: 32 bits, reserved bits 0 (10_state.md R19, R21). -/
def readReg (r : Reg) (s : State) : Word :=
  match r with
  | .id => idValue
  | .ctrl => s.ctrlWord
  | .status => s.status.word
  | .cmd => s.cmd
  | .len => s.len.setWidth 32
  | .offset => s.offset.setWidth 32
  | .klen => s.klen.setWidth 32
  | .lap => s.lap.setWidth 32
  | .uap => s.uap.setWidth 32
  | .clk => s.clk
  | .skip => s.skip.setWidth 32
  | .value => s.value
  | .result => s.result
  | .ac0 => s.ac0
  | .ac1 => s.ac1
  | .ac2 => s.ac2.setWidth 32

/-- The word at an aligned offset of the register region; a reserved offset reads 0 (10_state.md R21). -/
def regionWord (a : Nat) (s : State) : Word :=
  match regAt a with
  | some r => readReg r s
  | none => 0

/-- A host write that takes effect only while PEND is Idle (70_reset_and_hazards.md R194). -/
def whenIdle (s : State) (t : State) : State :=
  if s.pend.isBusy then s else t

/-- A host write of `v` to a register (20_memory.md R47). -/
def writeReg (r : Reg) (v : Word) (s : State) : State :=
  match r with
  | .id => s
  | .ctrl => if v.getLsbD 1 then softReset s else { s with irqEn := v.getLsbD 0 }
  | .status => whenIdle s { s with status := s.status.writeOneToClear v }
  | .cmd => whenIdle s (issue v s)
  | .len => whenIdle s { s with len := v.setWidth 16 }
  | .offset => whenIdle s { s with offset := v.setWidth 16 }
  | .klen => whenIdle s { s with klen := v.setWidth 16 }
  | .lap => whenIdle s { s with lap := v.setWidth 24 }
  | .uap => whenIdle s { s with uap := v.setWidth 8 }
  | .clk => whenIdle s { s with clk := v }
  | .skip => whenIdle s { s with skip := v.setWidth 16 }
  | .value => whenIdle s { s with value := v }
  | .result => s
  | .ac0 => s
  | .ac1 => s
  | .ac2 => s

/-- A byte of a buffer window: the element, none without its mark, 0 beyond the buffer's size (20_memory.md R46, R49). -/
def windowByte (m : Memory) (base size x : Nat) : Option Byte :=
  if x - base < size then m.read x else some 0

/-- `byte(x)` of 20_memory.md R46; none is the model fault of 10_state.md R29. -/
def readByte (s : State) (x : Nat) : Option Byte :=
  match regionOf x with
  | .registers => some ((regionWord (x - x % 4) s).extractLsb' (8 * (x % 4)) 8)
  | .inWindow => windowByte s.mem inBase s.cfg.inSize x
  | .outWindow => windowByte s.mem outBase s.cfg.outSize x
  | .genWindow => windowByte s.mem genBase s.cfg.genSize x

/-- The value of `n` bytes from offset `a` on, lowest offset least significant (20_memory.md R46, R48). -/
def memRead (s : State) : Nat → Nat → Option Word
  | _, 0 => some 0
  | a, n + 1 =>
    match readByte s a, memRead s (a + 1) n with
    | some b, some v => some ((v <<< 8) ||| b.setWidth 32)
    | _, _ => none

/-- A host write of one byte of a buffer window (20_memory.md R47, R49): only elements of IN and GEN are written. -/
def writeElem (c : Config) (m : Memory) (x : Nat) (b : Byte) : Memory :=
  match regionOf x with
  | .inWindow => if x - inBase < c.inSize then m.write x b else m
  | .genWindow => if x - genBase < c.genSize then m.write x b else m
  | .outWindow => m
  | .registers => m

/-- A host write of `n` bytes of `v` from offset `x` on, lowest offset least significant (20_memory.md R47, R48). -/
def writeElems (c : Config) : Memory → Nat → Nat → Word → Memory
  | m, _, 0, _ => m
  | m, x, n + 1, v => writeElems c (writeElem c m x (v.setWidth 8)) (x + 1) n (v >>> 8)

/-- `MemWrite(a, n, v)` on a legal access (20_memory.md R47). -/
def memWrite (s : State) (a n : Nat) (v : Word) : State :=
  match regionOf a with
  | .registers =>
    match regAt a with
    | some r => writeReg r v s
    | none => s
  | _ => whenIdle s { s with mem := writeElems s.cfg s.mem a n v }

/-- A legal read: its value goes to the host, and no state of the block changes (20_memory.md R46). -/
def hostRead (s : State) (a n : Nat) : Host.Outcome State Fault Refusal :=
  match memRead s a n with
  | some v => .next { s with readLog := v :: s.readLog }
  | none => .fault .unwrittenRead

/-- One host access (20_memory.md R44 to R47): outside the window it does not reach the block, misformed it is a
`busError`. -/
def hostStep (h : HostAccess) (s : State) : Host.Outcome State Fault Refusal :=
  match h with
  | .read addr n =>
    match windowOffset s.cfg addr with
    | none => .next s
    | some a => if legalAccess a n then hostRead s a n else .fault .busError
  | .write addr n v =>
    match windowOffset s.cfg addr with
    | none => .next s
    | some a => if legalAccess a n then .next (memWrite s a n v) else .fault .busError

/-- The state from which a host goes on after a `busError`: the block is unchanged, the access is over
(20_memory.md R45; log 5). -/
def skipAccess (s : State) : State := { s with inbox := s.inbox.tail }

end Sys2Proof.Machine
end

