-- ==== Sys2Proof/Machine/Engine.lean ====
section
/-! DEFINITION. The engine's turn, the platform's reset, and the placing of a command for the next step
(60_exceptions.md R61, R62; 70_reset_and_hazards.md R190). -/

namespace Sys2Proof.Machine

/-- The engine's turn (60_exceptions.md R62): nothing when PEND is Idle (R79), else the commit of the pending word, with
error ILLEGAL for a word that is no command (30_encoding.md R161; log 18). -/
def engineStep (s : State) : Host.Outcome State Fault Refusal :=
  match s.pend with
  | .idle => .next s
  | .busy w =>
    match decodeWord w with
    | .ok i => exec i s
    | .error _ => commit (.err .illegal) s

/-- One event of the environment. -/
def eventStep (e : Event) (s : State) : Host.Outcome State Fault Refusal :=
  match e with
  | .access h => hostStep h s
  | .engine => engineStep s
  | .hardReset => .next (hardReset s)

/-- `s` with the command word `w` issued (60_exceptions.md R61) and the engine's turn next; the events that were still
to happen follow it (log 8). -/
def placeCommand (s : State) (w : Word) : State :=
  { issue w s with inbox := .engine :: s.inbox }

end Sys2Proof.Machine
end

