-- ==== Sys2Proof/Machine/Step.lean ====
section
/-! DEFINITION. One step of the machine: the oldest event of the inbox, or, when the inbox is empty, the engine's turn
(00_scope.md R14, 20_memory.md R55, 70_reset_and_hazards.md R199). -/

namespace Sys2Proof.Machine

/-- One step (log 2, log 13). -/
def step (s : State) : Host.Outcome State Fault Refusal :=
  match s.inbox with
  | [] => engineStep s
  | e :: rest => eventStep e { s with inbox := rest }

/-- The state whose very next step runs the command of an opcode-table word (log 8). -/
def State.withFetchWord (s : State) (nbits w : Nat) : State := placeCommand s (commandWordOf nbits w)

end Sys2Proof.Machine
end

