-- ==== Sys2Proof/Machine/HostProgram.lean ====
section
/-! DEFINITION. The host program notation: host statements and pseudo-instructions as events of the inbox
(30_encoding.md R166, R167). -/

namespace Sys2Proof.Machine

/-- Host statements (30_encoding.md R166). -/
inductive Stmt
  /-- `WR reg, imm`. -/
  | wr (r : Reg) (imm : Word)
  /-- `RD reg`. -/
  | rd (r : Reg)
  /-- `WRB IN[i], b`. -/
  | wrbIn (i : Nat) (b : Byte)
  /-- `WRB GEN[i], b`. -/
  | wrbGen (i : Nat) (b : Byte)
  /-- `WRW IN[i], imm`. -/
  | wrwIn (i : Nat) (imm : Word)
  /-- `RDB OUT[i]`. -/
  | rdbOut (i : Nat)
  /-- `RDW OUT[i]`. -/
  | rdwOut (i : Nat)
  /-- `POLL`, in the interleaving in which `k` reads of STATUS come before the engine's turn and one after it (log 13);
  with no command pending the loop ends at its first read, so `k = 0`. -/
  | poll (k : Nat)
  /-- `BITS IN[i], "b0 b1 …"`. -/
  | bitsIn (i : Nat) (bs : List Bool)
  /-- `BITS GEN[i], "b0 b1 …"`. -/
  | bitsGen (i : Nat) (bs : List Bool)
deriving DecidableEq, Repr

/-- A read event at a window offset. -/
def readEvent (c : Config) (a n : Nat) : Event := .access (.read (c.base + a) n)

/-- A write event at a window offset. -/
def writeEvent (c : Config) (a n : Nat) (v : Word) : Event := .access (.write (c.base + a) n v)

/-- One-byte writes of listed bits to consecutive elements (30_encoding.md R166, `BITS`). -/
def bitsEvents (c : Config) : Nat → List Bool → List Event
  | _, [] => []
  | a, b :: bs => writeEvent c a 1 ((bitByte b).setWidth 32) :: bitsEvents c (a + 1) bs

/-- The bus encoding of a host statement (30_encoding.md R166). -/
def Stmt.events (c : Config) : Stmt → List Event
  | .wr r imm => [writeEvent c r.byteOffset 4 imm]
  | .rd r => [readEvent c r.byteOffset 4]
  | .wrbIn i b => [writeEvent c (inBase + i) 1 (b.setWidth 32)]
  | .wrbGen i b => [writeEvent c (genBase + i) 1 (b.setWidth 32)]
  | .wrwIn i imm => [writeEvent c (inBase + i) 4 imm]
  | .rdbOut i => [readEvent c (outBase + i) 1]
  | .rdwOut i => [readEvent c (outBase + i) 4]
  | .poll k =>
    List.replicate k (readEvent c Reg.status.byteOffset 4) ++ [.engine, readEvent c Reg.status.byteOffset 4]
  | .bitsIn i bs => bitsEvents c (inBase + i) bs
  | .bitsGen i bs => bitsEvents c (genBase + i) bs

/-- Pseudo-instructions (30_encoding.md R167). -/
inductive Pseudo
  | nop
  | a2h (off len : Word)
  | h2a (value len : Word)
  | lfsr (off n k : Word)
  | acgen (lap : Word)
  | acmatch (lap off : Word)
  | unwhiten (off len clk skip : Word)
  | fec13 (off len : Word)
  | fec23 (off len : Word)
  | crc16 (off len uap : Word)
  | clrst
  | srst
deriving DecidableEq, Repr

/-- The expansion of a pseudo-instruction, its POLL with `k` busy reads (30_encoding.md R167). -/
def Pseudo.expand (k : Nat) : Pseudo → List Stmt
  | .nop => [.wr .cmd 0, .poll k]
  | .a2h off len => [.wr .offset off, .wr .len len, .wr .cmd 1, .poll k]
  | .h2a value len => [.wr .value value, .wr .len len, .wr .cmd 2, .poll k]
  | .lfsr off n kk => [.wr .offset off, .wr .len n, .wr .klen kk, .wr .cmd 3, .poll k]
  | .acgen lap => [.wr .lap lap, .wr .cmd 4, .poll k]
  | .acmatch lap off => [.wr .lap lap, .wr .offset off, .wr .cmd 5, .poll k]
  | .unwhiten off len clk skip =>
    [.wr .offset off, .wr .len len, .wr .clk clk, .wr .skip skip, .wr .cmd 6, .poll k]
  | .fec13 off len => [.wr .offset off, .wr .len len, .wr .cmd 7, .poll k]
  | .fec23 off len => [.wr .offset off, .wr .len len, .wr .cmd 8, .poll k]
  | .crc16 off len uap => [.wr .offset off, .wr .len len, .wr .uap uap, .wr .cmd 9, .poll k]
  | .clrst => [.wr .status 0x6]
  | .srst => [.wr .ctrl 0x2]

/-- The events of a list of statements, in order. -/
def stmtEvents (c : Config) (p : List Stmt) : List Event := p.flatMap (Stmt.events c)

/-- The events of a pseudo-instruction. -/
def Pseudo.events (c : Config) (k : Nat) (p : Pseudo) : List Event := stmtEvents c (p.expand k)

end Sys2Proof.Machine
end

