-- ==== Sys2Proof/Safety.lean ====
section
/-! DEFINITION. The well-formed states and the safe runs, and the terms in which claims about the machine are stated. -/

namespace Sys2Proof.Machine

/-- A window offset that holds a buffer element (20_memory.md R44, R49). -/
def isElement (c : Config) (a : Nat) : Bool :=
  match regionOf a with
  | .registers => false
  | .inWindow => decide (a - inBase < c.inSize)
  | .outWindow => decide (a - outBase < c.outSize)
  | .genWindow => decide (a - genBase < c.genSize)

/-- The well-formed states (10_state.md R43), with the canonical form of memory, the marks only on elements, and what
R24 and R27 say of STATUS and CMD while a command is pending. Field widths are in the types. -/
structure Inv (s : State) : Prop where
  /-- The configuration meets R6 and R32. -/
  cfgWf : s.cfg.wf = true
  /-- Memory is in canonical form. -/
  memWf : s.mem.wf = true
  /-- Only buffer elements carry a mark. -/
  memElems : ∀ c ∈ s.mem, isElement s.cfg c.1 = true
  /-- Every OUT element with its mark is 0 or 1 (R43). -/
  outBits : ∀ c ∈ s.mem, regionOf c.1 = .outWindow → c.2 = 0 ∨ c.2 = 1
  /-- `STATUS.BUSY = 1` exactly when PEND is Busy (R43). -/
  busyPend : s.status.busy = s.pend.isBusy
  /-- DONE and ERR are 0 while busy (R24). -/
  busyClear : s.status.busy = true → s.status.doneFlag = false ∧ s.status.errFlag = false
  /-- `ERR = 0` implies `ERRCODE = 0` (R43). -/
  errZero : s.status.errFlag = false → s.status.errCode = 0
  /-- `ERR = 1` implies `ERRCODE` is in 1..5 (R43). -/
  errRange : s.status.errFlag = true → 1 ≤ s.status.errCode.toNat ∧ s.status.errCode.toNat ≤ 5
  /-- PEND holds the word in CMD (R27). -/
  pendCmd : ∀ w, s.pend = .busy w → s.cmd = w

/-- `k` steps from `s` end in a next state: no fault and no refusal on the way. -/
def CleanRun (k : Nat) (s t : State) : Prop := Host.Core.run Sys2Proof.core k s = .next t

/-- A state from which no run meets a fault or a refusal. -/
def SafeState (s : State) : Prop := ∀ k, ∃ t, CleanRun k s t

/-- The next step is the engine's: the inbox is empty or an engine turn is its oldest event. -/
def EngineTurn (s : State) : Prop := s.inbox = [] ∨ s.inbox.head? = some .engine

/-- What every successful commit writes, whatever else it writes (60_exceptions.md R62). -/
def State.committed (s : State) : State :=
  { s with
    status := { s.status with busy := false, doneFlag := true, errFlag := false, errCode := 0 }
    pend := .idle }

/-- What a failed commit writes (60_exceptions.md R68). -/
def State.failed (s : State) (code : BitVec 4) : State :=
  { s with
    status := { s.status with busy := false, doneFlag := true, errFlag := true, errCode := code }
    pend := .idle }

/-- `IN[o .. o + |bs| - 1]` holds the bits `bs`. -/
def State.inHolds (s : State) (o : Nat) (bs : List Bool) : Prop :=
  ∀ i < bs.length, s.inElem (o + i) = bs[i]?.map bitByte

/-- `GEN[0 .. |bs| - 1]` holds the bits `bs`. -/
def State.genHolds (s : State) (bs : List Bool) : Prop :=
  ∀ i < bs.length, s.genElem i = bs[i]?.map bitByte

/-- The memory `m'` is `m` with the bits `bs` written to `OUT[0 .. |bs| - 1]` and every other offset as before. -/
def OutWritten (m m' : Memory) (bs : List Bool) : Prop :=
  ∀ a, m'.read a = if outBase ≤ a ∧ a < outBase + bs.length then bs[a - outBase]?.map bitByte else m.read a

/-- The `n` elements from `IN[OFFSET]` on lie in IN and hold the bits `bs`. -/
def State.reads (s : State) (n : Nat) (bs : List Bool) : Prop :=
  bs.length = n ∧ s.offset.toNat + n ≤ s.cfg.inSize ∧ s.inHolds s.offset.toNat bs

/-- What no command writes: the configuration, CTRL, CMD, the operand registers and the model's own two fields. -/
def SameInputs (s t : State) : Prop :=
  t.cfg = s.cfg ∧ t.irqEn = s.irqEn ∧ t.cmd = s.cmd ∧ t.len = s.len ∧ t.offset = s.offset ∧ t.klen = s.klen ∧
    t.lap = s.lap ∧ t.uap = s.uap ∧ t.clk = s.clk ∧ t.skip = s.skip ∧ t.value = s.value ∧ t.inbox = s.inbox ∧
    t.readLog = s.readLog

/-- AC0, AC1 and AC2 are unchanged. -/
def SameAccess (s t : State) : Prop := t.ac0 = s.ac0 ∧ t.ac1 = s.ac1 ∧ t.ac2 = s.ac2

/-- Every element outside `OUT[0 .. n-1]` reads as before. -/
def SameOutside (s t : State) (n : Nat) : Prop :=
  ∀ a, ¬(outBase ≤ a ∧ a < outBase + n) → t.mem.read a = s.mem.read a

/-! The tables of 60_exceptions.md, as the spec prints them. -/

/-- PARAM conditions (60_exceptions.md R64). -/
def paramTable (i : Instr) (s : State) : Prop :=
  match i with
  | .a2h => 32 < s.len.toNat
  | .h2a => 32 < s.len.toNat
  | .lfsr => s.len.toNat ≤ s.klen.toNat ∨ s.cfg.genSize < s.len.toNat - s.klen.toNat
  | .nop => False
  | .acgen => False
  | .acmatch => False
  | .unwhiten => False
  | .fec13 => False
  | .fec23 => False
  | .crc16 => False

/-- `B`, the number of rate-2/3 blocks: LEN over 10, rounded up (44_fec.md R132). -/
def State.blocks (s : State) : Nat := (s.len.toNat + 9) / 10

/-- RANGE conditions (60_exceptions.md R65). -/
def rangeTable (i : Instr) (s : State) : Prop :=
  match i with
  | .a2h => s.cfg.inSize < s.offset.toNat + s.len.toNat
  | .lfsr => s.cfg.inSize < s.offset.toNat + s.klen.toNat
  | .acmatch => s.cfg.inSize < s.offset.toNat + 72
  | .unwhiten => s.cfg.inSize < s.offset.toNat + s.len.toNat ∨ s.cfg.outSize < s.len.toNat
  | .fec13 => s.cfg.inSize < s.offset.toNat + 3 * s.len.toNat ∨ s.cfg.outSize < s.len.toNat
  | .fec23 => s.cfg.inSize < s.offset.toNat + 15 * s.blocks ∨ s.cfg.outSize < 10 * s.blocks
  | .crc16 => s.cfg.inSize < s.offset.toNat + s.len.toNat
  | .nop => False
  | .h2a => False
  | .acgen => False

/-- The number of IN elements a command checks and reads, from `IN[OFFSET]` on (60_exceptions.md R66). -/
def checkedIn (i : Instr) (s : State) : Nat :=
  match i with
  | .a2h => s.len.toNat
  | .lfsr => s.klen.toNat
  | .acmatch => 72
  | .unwhiten => s.len.toNat
  | .fec13 => 3 * s.len.toNat
  | .fec23 => 15 * s.blocks
  | .crc16 => s.len.toNat
  | .nop => 0
  | .h2a => 0
  | .acgen => 0

/-- The number of GEN elements a command checks and reads (60_exceptions.md R66). -/
def checkedGen (i : Instr) (s : State) : Nat :=
  match i with
  | .lfsr => s.len.toNat - s.klen.toNat
  | .nop => 0
  | .a2h => 0
  | .h2a => 0
  | .acgen => 0
  | .acmatch => 0
  | .unwhiten => 0
  | .fec13 => 0
  | .fec23 => 0
  | .crc16 => 0

/-- An element that a command may read as a bit: it has its mark and is 0 or 1 (10_state.md R28). -/
def isBit (e : Option Byte) : Prop := e = some 0 ∨ e = some 1

/-- The error codes a command can end with (60_exceptions.md R60, the column "commands that can raise it"). -/
def listedCodes : Instr → List (BitVec 4)
  | .nop => []
  | .a2h => [2, 3, 4]
  | .h2a => [2]
  | .lfsr => [2, 3, 4]
  | .acgen => []
  | .acmatch => [3, 4]
  | .unwhiten => [3, 4]
  | .fec13 => [3, 4]
  | .fec23 => [3, 4, 5]
  | .crc16 => [3, 4]

/-- The command ends in failure with this error code (60_exceptions.md R60). -/
def FailsWith (i : Instr) (s : State) (c : BitVec 4) : Prop :=
  ∃ t, exec i s = .next t ∧ t.status.errFlag = true ∧ t.status.errCode = c

/-! The polynomials of 00_scope.md R11 over GF(2). -/

/-- The polynomial of a bit vector: element `i` is the coefficient of `D^i` (00_scope.md R11). -/
noncomputable def polyOf : List Bool → Polynomial (ZMod 2)
  | [] => 0
  | b :: bs => Polynomial.C (if b then 1 else 0) + Polynomial.X * polyOf bs

/-- The generator with its leading coefficient made explicit (00_scope.md R11). -/
noncomputable def genPoly (m : Nat) (g : List Bool) : Polynomial (ZMod 2) := Polynomial.X ^ m + polyOf (g.take m)

/-- `D^16 + D^12 + D^5 + 1` (45_crc.md R151). -/
noncomputable def crcPoly : Polynomial (ZMod 2) :=
  Polynomial.X ^ 16 + Polynomial.X ^ 12 + Polynomial.X ^ 5 + 1

/-- The bits of a vector of `n` bits, bit 0 first. -/
def bitsOf (n : Nat) (v : BitVec n) : List Bool := (List.range n).map (fun i => v.getLsbD i)

/-! The whitening register of 10_state.md R36. -/

/-- One step of the register `x[0..6]` with polynomial `D^7 + D^4 + 1` (10_state.md R36). -/
def whitenRegStep (x : List Bool) : List Bool :=
  let o := x.getD 6 false
  [o, x.getD 0 false, x.getD 1 false, x.getD 2 false, x.getD 3 false ^^ o, x.getD 4 false, x.getD 5 false]

/-- The `i`-th output of the register from the state `x`. -/
def whitenRegOut (x : List Bool) (i : Nat) : Bool := ((whitenRegStep^[i]) x).getD 6 false

/-- The start state of a clock phase: `x[0..5] = c[0..5]`, `x[6] = 1` (10_state.md R37). -/
def whitenRegStart (c : Nat) : List Bool := (List.range 6).map (fun i => c.testBit i) ++ [true]

/-! Blocks of the rate-2/3 code. -/

/-- Block `b` of 15 received bits. -/
def rxBlock (bs : List Bool) (b : Nat) : List Bool := (bs.drop (15 * b)).take 15

/-- The syndrome of a received block: computed parity XOR received parity (44_fec.md R132). -/
def syndromeOf (g23 block : List Bool) : List Bool :=
  List.zipWith (· ^^ ·) (lfsrDiv (block.take 10) 15 10 g23) (block.drop 10)

/-- The valid encoding of 10 data bits (44_fec.md R133). -/
def encode23 (g23 d : List Bool) : List Bool := d ++ lfsrDiv d 15 10 g23

end Sys2Proof.Machine
end

