-- ==== Sys2Proof/Certificates/Slice0/Obligations.lean ====
section
/-! DEFINITION. The statements for the provers. Each docstring names the rule of spec/ that the statement formalises. -/

open Sys2Proof Sys2Proof.Machine

/-! ## Encoding -/

/-- 30_encoding.md R164 (with the map of R163): the decoder is total, refuses every word with a reserved bit set and
every opcode 10..15, and its ten rows are exactly the words 0..9 in the order of the opcode map. -/
def Obligations.DecoderFollowsOpcodeMap : Prop :=
  ∀ w : Word,
    (w.toNat / 16 ≠ 0 → decodeWord w = .error .reservedBits) ∧
    (w.toNat / 16 = 0 → 10 ≤ w.toNat % 16 → decodeWord w = .error .unknownOpcode) ∧
    (∀ i, decodeWord w = .ok i ↔
      [Instr.nop, .a2h, .h2a, .lfsr, .acgen, .acmatch, .unwhiten, .fec13, .fec23, .crc16][w.toNat]? = some i) ∧
    (∀ i, decodeWord w = .ok i ↔ w &&& 0xFFFFFFFF = encode i)

/-- 30_encoding.md R160, R165 and 20_memory.md R48: on bytes, decoding and encoding agree in both directions; a command
is exactly its four bytes, and whatever follows is left over. -/
def Obligations.BytesEncodeDecodeAgree : Prop :=
  ∀ (i : Instr) (bs rest : List Byte),
    decodeBytes (encodeBytes i ++ rest) = .ok (i, rest) ∧
    (decodeBytes bs = .ok (i, rest) → bs = encodeBytes i ++ rest)

/-- 30_encoding.md R163: the ten words of the opcode map, written out (the spec prints them in hexadecimal); R161: the
least illegal opcode, the greatest, and the least words with a reserved bit set are refused. The clauses about
`decodeTableWord` take a row of the opcode table as one command word, the model's reading (DEDUCED, log 11). -/
def Obligations.PrintedWordsDecode : Prop :=
  (decodeWord 0x00000000 = .ok .nop ∧ decodeWord 0x00000001 = .ok .a2h ∧ decodeWord 0x00000002 = .ok .h2a ∧
    decodeWord 0x00000003 = .ok .lfsr ∧ decodeWord 0x00000004 = .ok .acgen ∧ decodeWord 0x00000005 = .ok .acmatch ∧
    decodeWord 0x00000006 = .ok .unwhiten ∧ decodeWord 0x00000007 = .ok .fec13 ∧ decodeWord 0x00000008 = .ok .fec23 ∧
    decodeWord 0x00000009 = .ok .crc16) ∧
  (decodeWord 0x0000000A = .error .unknownOpcode ∧ decodeWord 0x0000000F = .error .unknownOpcode ∧
    decodeWord 0x00000010 = .error .reservedBits ∧ decodeWord 0x00000011 = .error .reservedBits) ∧
  (decodeTableWord 32 0x7 = some .fec13 ∧ decodeTableWord 32 0xA = none ∧ decodeTableWord 32 0x11 = none)

/-! ## Steps, issue and commit -/

/-- 60_exceptions.md R62: on the engine's turn the step is `exec` of the command that PEND's word decodes to, on the
state with the turn taken from the inbox; a word that is no command commits with error 1; nothing happens while Idle
(R79; that an empty inbox gives the engine its turn is the model's choice, log 13). -/
def Obligations.StepRunsPendingCommand : Prop :=
  ∀ s : State, EngineTurn s →
    (∀ w i, s.pend = .busy w → decodeWord w = .ok i → step s = exec i { s with inbox := s.inbox.tail }) ∧
    (∀ w e, s.pend = .busy w → decodeWord w = .error e →
      step s = .next (({ s with inbox := s.inbox.tail } : State).failed 1)) ∧
    (s.pend = .idle → step s = .next { s with inbox := s.inbox.tail })

/-- 60_exceptions.md R61 and R62 together: a CMD write while Idle and then the engine's turn run the written command,
for every command, on the state the issue leaves. -/
def Obligations.CmdWriteThenEngineTurnRunsCommand : Prop :=
  ∀ (s : State) (i : Instr) (rest : List Event), s.pend = .idle →
    Host.Core.run Sys2Proof.core 2
        { s with inbox := writeEvent s.cfg 0x00C 4 (encode i) :: .engine :: rest } =
      exec i { s with
        cmd := encode i
        pend := .busy (encode i)
        status := { s.status with busy := true, doneFlag := false, errFlag := false, errCode := 0 }
        inbox := rest }

/-- 60_exceptions.md R61: the issue of any word, legal or not, while Idle; a CMD write while busy changes nothing; IRQ
is 0 after an issue. -/
def Obligations.CmdWriteIssuesOnlyWhenIdle : Prop :=
  ∀ (s : State) (v : Word) (rest : List Event),
    (s.pend = .idle →
      ∃ t, step { s with inbox := writeEvent s.cfg 0x00C 4 v :: rest } = .next t ∧ t.irq = false ∧
        t = { s with
          cmd := v
          pend := .busy v
          status := { busy := true, doneFlag := false, errFlag := false, matchFlag := s.status.matchFlag, errCode := 0 }
          inbox := rest }) ∧
    (∀ w, s.pend = .busy w →
      step { s with inbox := writeEvent s.cfg 0x00C 4 v :: rest } = .next { s with inbox := rest })

/-- 30_encoding.md R161: an illegal word is accepted like any other, commits with error code 1, and changes nothing
else. -/
def Obligations.IllegalWordCommitsIllegal : Prop :=
  ∀ (s : State) (w : Word) (rest : List Event), s.pend = .idle → (w >>> 4 ≠ 0 ∨ 10 ≤ (w &&& 15).toNat) →
    step { s with inbox := writeEvent s.cfg 0x00C 4 w :: .engine :: rest } =
      .next { s with
        cmd := w
        pend := .busy w
        status := { busy := true, doneFlag := false, errFlag := false, matchFlag := s.status.matchFlag, errCode := 0 }
        inbox := .engine :: rest } ∧
    Host.Core.run Sys2Proof.core 2 { s with inbox := writeEvent s.cfg 0x00C 4 w :: .engine :: rest } =
      .next { s with
        cmd := w
        pend := .idle
        status := { busy := false, doneFlag := true, errFlag := true, matchFlag := s.status.matchFlag, errCode := 1 }
        inbox := rest }

/-- 60_exceptions.md R60, R62: every command ends in exactly one outcome, success with code 0 or one of the codes the
table gives that command, with DONE set, BUSY clear and PEND Idle; the only other answer is the model fault
`UnwrittenRead`, and the commands that read no element never give it. -/
def Obligations.EveryCommandEndsInOneListedOutcome : Prop :=
  ∀ (i : Instr) (s : State),
    (exec i s = .fault .unwrittenRead ∧ i ≠ .nop ∧ i ≠ .h2a ∧ i ≠ .acgen) ∨
    ∃ t, exec i s = .next t ∧ t.pend = .idle ∧ t.status.busy = false ∧ t.status.doneFlag = true ∧
      ((t.status.errFlag = false ∧ t.status.errCode = 0) ∨
       (t.status.errFlag = true ∧ t.status.errCode ∈ listedCodes i))

/-- 60_exceptions.md R68: a failed command writes exactly BUSY, DONE, ERR, ERRCODE and PEND, whatever the pending word
is. -/
def Obligations.FailedCommandWritesOnlyStatus : Prop :=
  ∀ (s t : State) (w : Word), s.pend = .busy w → engineStep s = .next t → t.status.errFlag = true →
    ∃ c : BitVec 4, c ∈ [1, 2, 3, 4, 5] ∧
      t = { s with
        status := { busy := false, doneFlag := true, errFlag := true, matchFlag := s.status.matchFlag, errCode := c }
        pend := .idle }

/-! ## Checks -/

/-- 60_exceptions.md R64: a command fails with PARAM exactly when the table says so. -/
def Obligations.ParamConditionsComplete : Prop :=
  ∀ (i : Instr) (s : State), FailsWith i s 2 ↔ paramTable i s

/-- 60_exceptions.md R65: past PARAM, a command fails with RANGE exactly when the table says so; a range of zero
elements at `OFFSET = IN_SIZE` succeeds and beyond it fails; the outputs of the commands without an output check fit. -/
def Obligations.RangeConditionsComplete : Prop :=
  (∀ (i : Instr) (s : State), FailsWith i s 3 ↔ ¬paramTable i s ∧ rangeTable i s) ∧
  (∀ (i : Instr) (s : State), i ∈ [Instr.a2h, .unwhiten, .fec13, .fec23, .crc16] → s.len = 0 →
    (s.offset.toNat = s.cfg.inSize → ∃ t, exec i s = .next t ∧ t.status.errFlag = false) ∧
    (s.cfg.inSize < s.offset.toNat → FailsWith i s 3)) ∧
  (∀ (s : State) (g : List Bool), s.klen = 0 → g.length = s.len.toNat → 0 < g.length → g.length ≤ s.cfg.genSize →
    s.genHolds g →
    (s.offset.toNat = s.cfg.inSize → ∃ t, exec .lfsr s = .next t ∧ t.status.errFlag = false) ∧
    (s.cfg.inSize < s.offset.toNat → FailsWith .lfsr s 3)) ∧
  (∀ s : State, s.cfg.wf = true →
    72 ≤ s.cfg.outSize ∧ (¬paramTable .h2a s → s.len.toNat ≤ s.cfg.outSize) ∧
    (¬paramTable .lfsr s → s.len.toNat - s.klen.toNat ≤ s.cfg.outSize))

/-- 60_exceptions.md R66: past PARAM and RANGE, on elements that all have their mark, a command fails with CONTRACT
exactly when an element it reads as a bit is neither 0 nor 1, wherever it stands in the ranges read. Where some element
has no mark the rules do not say whether CONTRACT or the model fault wins; the model goes by the order of the check
loops (DEDUCED, log 7): a command fails with CONTRACT exactly when, past PARAM and RANGE, the first element of its ranges
that is no bit has its mark, whatever follows it. -/
def Obligations.ContractConditionsComplete : Prop :=
  (∀ (i : Instr) (s : State), ¬paramTable i s → ¬rangeTable i s →
    (∀ j < checkedIn i s, (s.inElem (s.offset.toNat + j)).isSome = true) →
    (∀ j < checkedGen i s, (s.genElem j).isSome = true) →
    (FailsWith i s 4 ↔
      (∃ j < checkedIn i s, ¬isBit (s.inElem (s.offset.toNat + j))) ∨ (∃ j < checkedGen i s, ¬isBit (s.genElem j)))) ∧
  (∀ (i : Instr) (s : State), FailsWith i s 4 ↔
    ¬paramTable i s ∧ ¬rangeTable i s ∧
    ((∃ j < checkedIn i s,
        (s.inElem (s.offset.toNat + j)).isSome = true ∧ ¬isBit (s.inElem (s.offset.toNat + j)) ∧
        ∀ k < j, isBit (s.inElem (s.offset.toNat + k))) ∨
     ((∀ k < checkedIn i s, isBit (s.inElem (s.offset.toNat + k))) ∧
      ∃ j < checkedGen i s, (s.genElem j).isSome = true ∧ ¬isBit (s.genElem j) ∧ ∀ k < j, isBit (s.genElem k))))

/-- 10_state.md R29 and 60_exceptions.md R62, in the order of the check loops (the order is DEDUCED, log 7): a command
is the model fault `UnwrittenRead` exactly when, past PARAM and RANGE, the first element of its ranges that is no bit
has no mark. -/
def Obligations.UnwrittenReadFaultExactly : Prop :=
  ∀ (i : Instr) (s : State), exec i s = .fault .unwrittenRead ↔
    ¬paramTable i s ∧ ¬rangeTable i s ∧
    ((∃ j < checkedIn i s, s.inElem (s.offset.toNat + j) = none ∧
        ∀ k < j, isBit (s.inElem (s.offset.toNat + k))) ∨
     ((∀ k < checkedIn i s, isBit (s.inElem (s.offset.toNat + k))) ∧
      ∃ j < checkedGen i s, s.genElem j = none ∧ ∀ k < j, isBit (s.genElem k)))

/-- 60_exceptions.md R67: FEC23 fails with UNCORRECTABLE, and then writes nothing but STATUS and PEND, exactly when some
block's syndrome has two or more ones and equals no SYN entry; no other command fails with UNCORRECTABLE. -/
def Obligations.UncorrectableConditionComplete : Prop :=
  (∀ (i : Instr) (s : State), FailsWith i s 5 → i = .fec23) ∧
  ∀ (s : State) (bs : List Bool), s.reads (15 * s.blocks) bs → 10 * s.blocks ≤ s.cfg.outSize →
    ((∃ b < s.blocks, 2 ≤ (syndromeOf s.cfg.g23 (rxBlock bs b)).count true ∧
        ∀ j < 10, synEntry s.cfg.g23 j ≠ syndromeOf s.cfg.g23 (rxBlock bs b)) ↔
      exec .fec23 s = .next (s.failed 5)) ∧
    (FailsWith .fec23 s 5 ↔ exec .fec23 s = .next (s.failed 5))

/-! ## Results: each command completes, with the result the spec gives -/

/-- 40_bit_order.md R90: NOP completes in every state and writes only the commit's STATUS and PEND; with IRQ_EN it
raises IRQ; a word with opcode 0 and a reserved bit set is no NOP. -/
def Obligations.NopCommitsOnly : Prop :=
  (∀ s : State, ∃ t, exec .nop s = .next t ∧ t.irq = s.irqEn ∧
    t = { s with
      status := { busy := false, doneFlag := true, errFlag := false, matchFlag := s.status.matchFlag, errCode := 0 }
      pend := .idle }) ∧
  decodeWord 0x00000000 = .ok .nop ∧
  (∀ w : Word, w &&& 15 = 0 → w ≠ 0 → decodeWord w = .error .reservedBits)

/-- 40_bit_order.md R91 (success): RESULT's bit `i` is the i-th element read, and 0 from `LEN` on. -/
def Obligations.A2hResultIsLsbFirst : Prop :=
  ∀ (s : State) (bs : List Bool), s.len.toNat ≤ 32 → s.reads s.len.toNat bs →
    ∃ r : Word, exec .a2h s = .next { s.committed with result := r } ∧
      ∀ i < 32, r.getLsbD i = bs.getD i false

/-- 40_bit_order.md R92 (success): `OUT[i]` is bit `i` of VALUE for `i < LEN`. -/
def Obligations.H2aWritesValueBits : Prop :=
  ∀ s : State, s.len.toNat ≤ 32 →
    ∃ (m : Memory) (bs : List Bool), exec .h2a s = .next { s.committed with mem := m } ∧
      bs.length = s.len.toNat ∧ (∀ i < s.len.toNat, bs[i]? = some (s.value.getLsbD i)) ∧ OutWritten s.mem m bs

/-- 41_lfsr.md R81 (success), its output named by the polynomial remainder of R82, which the spec derives from R80. -/
def Obligations.LfsrWritesRemainder : Prop :=
  ∀ (s : State) (data g : List Bool), s.klen.toNat < s.len.toNat → g.length = s.len.toNat - s.klen.toNat →
    g.length ≤ s.cfg.genSize → s.reads s.klen.toNat data → s.genHolds g →
    ∃ (m : Memory) (cw : List Bool), exec .lfsr s = .next { s.committed with mem := m } ∧
      cw.length = g.length ∧ OutWritten s.mem m cw ∧
      polyOf cw = Polynomial.modByMonic (polyOf data * Polynomial.X ^ g.length) (Polynomial.X ^ g.length + polyOf g)

/-- 42_access_code.md R104, the spec's own derivation from R100 to R102 (its clause about the default PN rests on a PRESUMED
value, log 12), with R102 for where ACGEN puts the code: the 72 elements of OUT in closed form, and AC0 to
AC2 holding the same bits, byte 0 in AC0[7:0], each byte most significant bit first in air order. -/
def Obligations.AcgenClosedForm : Prop :=
  ∀ s : State, s.cfg.wf = true →
    ∃ (m : Memory) (e : List Bool) (a0 a1 : Word) (a2 : Byte),
      exec .acgen s = .next { s.committed with mem := m, ac0 := a0, ac1 := a1, ac2 := a2 } ∧
      e.length = 72 ∧ OutWritten s.mem m e ∧
      (∀ c < 4, ∀ b < 8, a0.getLsbD (8 * c + b) = e.getD (8 * c + (7 - b)) false ∧
        a1.getLsbD (8 * c + b) = e.getD (32 + 8 * c + (7 - b)) false) ∧
      (∀ b < 8, a2.getLsbD b = e.getD (64 + (7 - b)) false) ∧
      (let p := fun i : Nat => (s.cfg.pn.getD (i / 8) 0).getLsbD (7 - i % 8)
       let sel := match s.cfg.trailerSel with
         | .revBit0 => s.lap.getLsbD 23
         | .inputBit0 => s.lap.getLsbD 0
       let tail := if sel then bits01 [1, 1, 0, 0, 1, 0, 1, 0, 1, 0] else bits01 [0, 0, 1, 1, 0, 1, 0, 1, 0, 1]
       let data := (List.range 24).map (fun i => s.lap.getLsbD i ^^ p (38 + i)) ++
         (List.range 6).map (fun t => tail.getD t false ^^ p (62 + t))
       let cw := lfsrDiv data 64 30 s.cfg.gAC
       let pattern := if e.getD 4 false then bits01 [1, 0, 1, 0] else bits01 [0, 1, 0, 1]
       (∀ t < 4, e.getD t false = (p t || pattern.getD t false)) ∧
       (∀ j < 34, e.getD (4 + j) false = (cw.getD j false ^^ p (4 + j))) ∧
       (∀ i < 24, e.getD (38 + i) false = s.lap.getLsbD i) ∧
       (∀ t < 10, e.getD (62 + t) false = tail.getD t false) ∧
       (s.cfg.pn = Config.default.pn →
         ∀ t < 4, p t = false ∧ p (68 + t) = false ∧ e.getD t false = pattern.getD t false))

/-- 42_access_code.md R103 (success): ACMATCH completes on a written window of bits and writes MATCH, which is 1 exactly
when all 72 elements equal the ones ACGEN would write to OUT. -/
def Obligations.AcmatchComparesWithAcgen : Prop :=
  ∀ (s : State) (bs : List Bool), s.cfg.wf = true → s.reads 72 bs →
    ∃ b : Bool, exec .acmatch s =
        .next { s.committed with status := { s.committed.status with matchFlag := b } } ∧
      (∀ t, exec .acgen s = .next t →
        (b = true ↔ ∀ i < 72, s.inElem (s.offset.toNat + i) = t.outElem i))

/-- 43_whitener.md R120 (success): `OUT[i]` is the i-th element read XOR the whitening sequence at
`(WHITEN_IDX[clk mod 64] + skip + i) mod 127`. -/
def Obligations.UnwhitenXorsSequence : Prop :=
  ∀ (s : State) (bs : List Bool), s.len.toNat ≤ s.cfg.outSize → s.reads s.len.toNat bs →
    ∃ (m : Memory) (out : List Bool), exec .unwhiten s = .next { s.committed with mem := m } ∧
      out.length = s.len.toNat ∧ OutWritten s.mem m out ∧
      ∀ i < s.len.toNat, out.getD i false =
        (bs.getD i false ^^
          s.cfg.whitenSeq.getD ((s.cfg.whitenIdx.getD (s.clk.toNat % 64) 0 + s.skip.toNat + i) % 127) false)

/-- 44_fec.md R131 (success): `OUT[i]` is 1 exactly when at least two of the elements read at `3i`, `3i+1` and `3i+2`
are. -/
def Obligations.Fec13WritesMajority : Prop :=
  ∀ (s : State) (bs : List Bool), s.len.toNat ≤ s.cfg.outSize → s.reads (3 * s.len.toNat) bs →
    ∃ (m : Memory) (out : List Bool), exec .fec13 s = .next { s.committed with mem := m } ∧
      out.length = s.len.toNat ∧ OutWritten s.mem m out ∧
      ∀ i < s.len.toNat, out.getD i false =
        decide (2 ≤ [bs.getD (3 * i) false, bs.getD (3 * i + 1) false, bs.getD (3 * i + 2) false].count true)

/-- 44_fec.md R132 (success): when every block's syndrome has at most one 1 or is a SYN entry, FEC23 writes every
block's data bits, with the bit of the least matching SYN entry flipped where the syndrome has two or more ones, and
RESULT is the padded length. -/
def Obligations.Fec23WritesCorrectedBlocks : Prop :=
  ∀ (s : State) (bs : List Bool), 10 * s.blocks ≤ s.cfg.outSize → s.reads (15 * s.blocks) bs →
    (∀ b < s.blocks, (syndromeOf s.cfg.g23 (rxBlock bs b)).count true ≤ 1 ∨
      ∃ j < 10, synEntry s.cfg.g23 j = syndromeOf s.cfg.g23 (rxBlock bs b)) →
    ∃ (m : Memory) (out : List Bool),
      exec .fec23 s = .next { s.committed with mem := m, result := BitVec.ofNat 32 (10 * s.blocks) } ∧
      out.length = 10 * s.blocks ∧ OutWritten s.mem m out ∧
      ∀ b < s.blocks, ∀ i < 10,
        let syn := syndromeOf s.cfg.g23 (rxBlock bs b)
        out.getD (10 * b + i) false =
          (bs.getD (15 * b + i) false ^^
            decide (2 ≤ syn.count true ∧ synEntry s.cfg.g23 i = syn ∧ ∀ j < i, synEntry s.cfg.g23 j ≠ syn))

/-- 45_crc.md R151, the spec's own derivation from R150, with R150 for where CRC16 puts it: RESULT is 16 bits wide and is the stated remainder; the same loop
seeded with 0xFFFF over the ASCII bytes "123456789", most significant bit first, gives 0x29B1. -/
def Obligations.Crc16IsPolynomialRemainder : Prop :=
  (∀ (s : State) (bs : List Bool), s.reads s.len.toNat bs →
    ∃ r : Word, exec .crc16 s = .next { s.committed with result := r } ∧ r.toNat < 2 ^ 16 ∧
      polyOf (bitsOf 32 r) =
        Polynomial.modByMonic
          (polyOf (bitsOf 8 s.uap) * Polynomial.X ^ bs.length + polyOf bs.reverse * Polynomial.X ^ 16) crcPoly) ∧
  (expand [0x31, 0x32, 0x33, 0x34, 0x35, 0x36, 0x37, 0x38, 0x39]).foldl crcStep 0xFFFF = 0x29B1

/-! ## Properties of the operations -/

/-- 41_lfsr.md R82, the spec's own derivation from R80: LFSRDiv is the remainder of `d(D)·D^m` by `g(D)`, and `cw ++ data` is a systematic codeword that
`g(D)` divides. -/
def Obligations.LfsrDivIsRemainder : Prop :=
  ∀ (data g : List Bool) (n k : Nat), data.length = k → k < n → n - k ≤ g.length →
    (lfsrDiv data n k g).length = n - k ∧
    polyOf (lfsrDiv data n k g) =
      Polynomial.modByMonic (polyOf data * Polynomial.X ^ (n - k)) (genPoly (n - k) g) ∧
    polyOf (lfsrDiv data n k g ++ data) = polyOf (lfsrDiv data n k g) + polyOf data * Polynomial.X ^ (n - k) ∧
    genPoly (n - k) g ∣ polyOf (lfsrDiv data n k g ++ data)

/-- 41_lfsr.md R83, the spec's own derivation from R82: LFSRDiv is linear, and zero on zero data. -/
def Obligations.LfsrDivIsLinear : Prop :=
  ∀ (a b g : List Bool) (n k : Nat), a.length = k → b.length = k → k < n → n - k ≤ g.length →
    lfsrDiv (List.zipWith (· ^^ ·) a b) n k g =
      List.zipWith (· ^^ ·) (lfsrDiv a n k g) (lfsrDiv b n k g) ∧
    lfsrDiv (List.replicate k false) n k g = List.replicate (n - k) false

/-- 40_bit_order.md R93, the spec's own derivation from R91 and R92: H2A, a copy of OUT to IN, then A2H give the low bits of VALUE; A2H, then H2A of RESULT, give
back the elements. -/
def Obligations.BitOrderRoundTrip : Prop :=
  (∀ s s' t : State, s.len.toNat ≤ 32 → exec .h2a s = .next t → s'.len = s.len →
    s'.offset.toNat + s.len.toNat ≤ s'.cfg.inSize →
    (∀ i < s.len.toNat, s'.inElem (s'.offset.toNat + i) = t.outElem i) →
    ∃ t', exec .a2h s' = .next t' ∧ t'.status.errFlag = false ∧
      t'.result.toNat = s.value.toNat % 2 ^ s.len.toNat) ∧
  (∀ (s s' t : State) (bs : List Bool), s.len.toNat ≤ 32 → s.reads s.len.toNat bs → exec .a2h s = .next t →
    s'.len = s.len → s'.value = t.result →
    ∃ t', exec .h2a s' = .next t' ∧ t'.status.errFlag = false ∧
      ∀ i < s.len.toNat, t'.outElem i = s.inElem (s.offset.toNat + i))

/-- 42_access_code.md R105, the spec's own derivation from R100, R102 and R103: the access code depends on the LAP and the configuration only (so not on the UAP), and the
code ACGEN writes, copied to IN at any offset that leaves 72 elements, makes ACMATCH with the same LAP give MATCH = 1. -/
def Obligations.AccessCodeRoundTrip : Prop :=
  (∀ s s' t t' : State, s.cfg.wf = true → s'.cfg = s.cfg → s'.lap = s.lap →
    exec .acgen s = .next t → exec .acgen s' = .next t' →
    (∀ i < 72, t'.outElem i = t.outElem i) ∧ t'.ac0 = t.ac0 ∧ t'.ac1 = t.ac1 ∧ t'.ac2 = t.ac2) ∧
  (∀ s s' t : State, s.cfg.wf = true → exec .acgen s = .next t → s'.cfg = s.cfg → s'.lap = s.lap →
    s'.offset.toNat ≤ s'.cfg.inSize - 72 →
    (∀ i < 72, s'.inElem (s'.offset.toNat + i) = t.outElem i) →
    ∃ t', exec .acmatch s' = .next t' ∧ t'.status.errFlag = false ∧ t'.status.matchFlag = true)

/-- 43_whitener.md R121, the spec's own derivation from R120: UNWHITEN twice with the same clock and skip gives back the input. -/
def Obligations.UnwhitenIsInvolution : Prop :=
  ∀ (s s' t : State) (bs : List Bool), s.len.toNat ≤ s.cfg.outSize → s.reads s.len.toNat bs →
    exec .unwhiten s = .next t → s'.cfg = s.cfg → s'.len = s.len → s'.clk = s.clk → s'.skip = s.skip →
    s'.offset.toNat + s.len.toNat ≤ s'.cfg.inSize →
    (∀ i < s.len.toNat, s'.inElem (s'.offset.toNat + i) = t.outElem i) →
    ∃ t', exec .unwhiten s' = .next t' ∧ t'.status.errFlag = false ∧
      ∀ i < s.len.toNat, t'.outElem i = s.inElem (s.offset.toNat + i)

/-- 43_whitener.md R122, with 10_state.md R36 and R37: under the default tables (PRESUMED values, log 12) the sequence
from a phase's index is the output of the whitening register started in that phase, and SKIP drops its first outputs. -/
def Obligations.WhiteningFollowsRegister : Prop :=
  (∀ c < 64, ∀ i : Nat,
    Config.default.whitenSeq.getD ((Config.default.whitenIdx.getD c 0 + i) % 127) false =
      whitenRegOut (whitenRegStart c) i) ∧
  (∀ (s : State) (bs : List Bool), s.cfg.whitenSeq = Config.default.whitenSeq →
    s.cfg.whitenIdx = Config.default.whitenIdx → s.len.toNat ≤ s.cfg.outSize → s.reads s.len.toNat bs →
    ∃ t, exec .unwhiten s = .next t ∧ ∀ i < s.len.toNat,
      t.outElem i = some (bitByte
        (bs.getD i false ^^ whitenRegOut (whitenRegStart (s.clk.toNat % 64)) (s.skip.toNat + i))))

/-- 44_fec.md R130: the majority function and its truth table. -/
def Obligations.MajorityTruthTable : Prop :=
  (∀ a b c : Bool, maj a b c = ((a && b) || (b && c) || (c && a)) ∧ (maj a b c = true ↔ 2 ≤ [a, b, c].count true)) ∧
  maj false false false = false ∧ maj false false true = false ∧ maj false true false = false ∧
  maj false true true = true ∧ maj true false false = false ∧ maj true false true = true ∧
  maj true true false = true ∧ maj true true true = true

/-- 44_fec.md R133, under the default G23 (PRESUMED value, log 12): FEC13 on three agreeing copies gives the original;
FEC23 on validly encoded blocks with at most one flipped bit each gives the original data bits; one block with two
flipped bits makes the command fail with UNCORRECTABLE. -/
def Obligations.FecCorrectsSingleErrors : Prop :=
  (∀ (s : State) (d : List Bool), d.length = s.len.toNat → s.len.toNat ≤ s.cfg.outSize →
    s.reads (3 * s.len.toNat) (d.flatMap fun b => [b, b, b]) →
    ∃ t, exec .fec13 s = .next t ∧ t.status.errFlag = false ∧
      ∀ i < s.len.toNat, t.outElem i = d[i]?.map bitByte) ∧
  (∀ (s : State) (bs d : List Bool), s.cfg.g23 = Config.default.g23 → 10 * s.blocks ≤ s.cfg.outSize →
    s.reads (15 * s.blocks) bs → d.length = 10 * s.blocks →
    (∀ b < s.blocks, ∃ e : List Bool, e.length = 15 ∧ e.count true ≤ 1 ∧
      rxBlock bs b = List.zipWith (· ^^ ·) (encode23 s.cfg.g23 ((d.drop (10 * b)).take 10)) e) →
    ∃ t, exec .fec23 s = .next t ∧ t.status.errFlag = false ∧ t.result = BitVec.ofNat 32 (10 * s.blocks) ∧
      ∀ i < 10 * s.blocks, t.outElem i = d[i]?.map bitByte) ∧
  (∀ (s : State) (bs : List Bool), s.cfg.g23 = Config.default.g23 → 10 * s.blocks ≤ s.cfg.outSize →
    s.reads (15 * s.blocks) bs →
    (∃ b < s.blocks, ∃ d e : List Bool, d.length = 10 ∧ e.length = 15 ∧ e.count true = 2 ∧
      rxBlock bs b = List.zipWith (· ^^ ·) (encode23 s.cfg.g23 d) e) →
    exec .fec23 s = .next (s.failed 5))

/-- 45_crc.md R152, the spec's own derivation from R150 and R151: the empty range, linearity for a fixed seed, and the appended CRC. The first clause ties the function
of the linearity clause to what CRC16 writes to RESULT. -/
def Obligations.Crc16Properties : Prop :=
  (∀ (s : State) (bs : List Bool), s.reads s.len.toNat bs →
    exec .crc16 s = .next { s.committed with result := (crc16Bits s.uap bs).setWidth 32 }) ∧
  (∀ s : State, s.len = 0 → s.offset.toNat ≤ s.cfg.inSize →
    ∃ t, exec .crc16 s = .next t ∧ t.result = s.uap.setWidth 32) ∧
  (∀ (u : BitVec 8) (a b : List Bool), a.length = b.length →
    crc16Bits 0 (List.zipWith (· ^^ ·) a b) = crc16Bits 0 a ^^^ crc16Bits 0 b ∧
    crc16Bits u a = crc16Bits 0 a ^^^ crc16Bits u (List.replicate a.length false)) ∧
  (∀ (s s' t : State) (bs : List Bool), s.reads s.len.toNat bs → exec .crc16 s = .next t →
    s'.uap = s.uap → s'.len.toNat = s.len.toNat + 16 →
    s'.reads s'.len.toNat (bs ++ (List.range 16).map (fun i => t.result.getLsbD (15 - i))) →
    ∃ t', exec .crc16 s' = .next t' ∧ t'.result = 0)

/-- 10_state.md R39: the syndrome table under the default G23 (PRESUMED value, log 12), its entries distinct and each
with at least three ones. -/
def Obligations.DefaultSyndromeTable : Prop :=
  (List.range 10).map (synEntry Config.default.g23) =
    [bits01 [1, 1, 0, 1, 0], bits01 [0, 1, 1, 0, 1], bits01 [1, 1, 1, 0, 0], bits01 [0, 1, 1, 1, 0],
     bits01 [0, 0, 1, 1, 1], bits01 [1, 1, 0, 0, 1], bits01 [1, 0, 1, 1, 0], bits01 [0, 1, 0, 1, 1],
     bits01 [1, 1, 1, 1, 1], bits01 [1, 0, 1, 0, 1]] ∧
  ((List.range 10).map (synEntry Config.default.g23)).Nodup ∧
  ∀ j < 10, 3 ≤ (synEntry Config.default.g23 j).count true

/-! ## Frames -/

/-- 30_encoding.md R162 and 60_exceptions.md R62, for the commands that store nothing (NOP, A2H, ACMATCH, CRC16):
configuration, CTRL, CMD and operand registers, AC0 to AC2 and every byte of memory are unchanged; RESULT is unchanged
but by A2H and CRC16, MATCH but by ACMATCH. -/
def Obligations.FrameOfCommandsStoringNothing : Prop :=
  ∀ (i : Instr) (s t : State), i ∈ [Instr.nop, .a2h, .acmatch, .crc16] → exec i s = .next t →
    SameInputs s t ∧ SameAccess s t ∧ (∀ a, t.mem.read a = s.mem.read a) ∧
    (i = .nop ∨ i = .acmatch → t.result = s.result) ∧
    (i ≠ .acmatch → t.status.matchFlag = s.status.matchFlag)

/-- 30_encoding.md R162 and 70_reset_and_hazards.md R196, for the commands whose only output is OUT from element 0 on
(H2A, LFSR, UNWHITEN, FEC13): RESULT, AC0 to AC2, MATCH, the inputs and every byte outside the written elements are
unchanged. -/
def Obligations.FrameOfCommandsStoringToOut : Prop :=
  ∀ (i : Instr) (s t : State), i ∈ [Instr.h2a, .lfsr, .unwhiten, .fec13] → exec i s = .next t →
    SameInputs s t ∧ SameAccess s t ∧ t.result = s.result ∧ t.status.matchFlag = s.status.matchFlag ∧
    SameOutside s t (if i = .lfsr then s.len.toNat - s.klen.toNat else s.len.toNat)

/-- 30_encoding.md R162, for the commands that write OUT and a result register: ACGEN leaves RESULT and every byte
outside `OUT[0..71]`; FEC23 leaves AC0 to AC2 and every byte outside `OUT[0..L'-1]`; both leave MATCH and the inputs. -/
def Obligations.FrameOfAcgenAndFec23 : Prop :=
  (∀ s t : State, s.cfg.wf = true → exec .acgen s = .next t →
    SameInputs s t ∧ t.result = s.result ∧ t.status.matchFlag = s.status.matchFlag ∧ SameOutside s t 72) ∧
  (∀ s t : State, exec .fec23 s = .next t →
    SameInputs s t ∧ SameAccess s t ∧ t.status.matchFlag = s.status.matchFlag ∧ SameOutside s t (10 * s.blocks))

/-- 20_memory.md R52 and 10_state.md R17: the engine never writes IN, GEN or an operand register, and what it writes to
OUT is 0 or 1. -/
def Obligations.EngineWritesOnlyOutAndResults : Prop :=
  ∀ s t : State, s.cfg.wf = true → EngineTurn s → step s = .next t →
    SameInputs { s with inbox := s.inbox.tail } t ∧
    (∀ a, t.mem.read a ≠ s.mem.read a →
      outBase ≤ a ∧ a < outBase + s.cfg.outSize ∧ isBit (t.mem.read a))

/-- 00_scope.md R7: no command, host access or reset changes a parameter of the configuration. -/
def Obligations.NoStepChangesConfiguration : Prop :=
  ∀ s t : State, step s = .next t → t.cfg = s.cfg

/-- 10_state.md R40: MATCH is changed only by a committed ACMATCH, or cleared by a reset (R24). -/
def Obligations.MatchWrittenOnlyByAcmatch : Prop :=
  ∀ s t : State, step s = .next t → t.status.matchFlag ≠ s.status.matchFlag →
    (EngineTurn s ∧ s.pend = .busy 5 ∧ t.status.errFlag = false) ∨
    (t.status.matchFlag = false ∧ ∃ rest, s.inbox = .hardReset :: rest) ∨
    (t.status.matchFlag = false ∧ ∃ rest v, s.inbox = writeEvent s.cfg 0x004 4 v :: rest ∧ v.getLsbD 1 = true)

/-! ## Resets and well-formed states -/

/-- 70_reset_and_hazards.md R190: the hard reset, from any state, pending command or not; and the model's reset state is
such a state. -/
def Obligations.HardResetClearsEverything : Prop :=
  (∀ (s : State) (rest : List Event), ∃ t, step { s with inbox := .hardReset :: rest } = .next t ∧
    (∀ r, readReg r t = if r = .id then 0x41434431 else 0) ∧ t.pend = .idle ∧ t.irq = false ∧
    (∀ a, t.mem.read a = none) ∧ t.cfg = s.cfg ∧ t.inbox = rest) ∧
  ((∀ r, readReg r State.reset = if r = .id then 0x41434431 else 0) ∧ State.reset.pend = .idle ∧
    State.reset.irq = false ∧ ∀ a, State.reset.mem.read a = none)

/-- 70_reset_and_hazards.md R192: a CTRL write with bit 1 set resets every register but ID and discards a pending
command, and keeps buffers, marks and configuration, busy or not; with bit 1 clear it only sets IRQ_EN. -/
def Obligations.SoftResetKeepsBuffers : Prop :=
  ∀ (s : State) (v : Word) (rest : List Event),
    (v.getLsbD 1 = true →
      ∃ t, step { s with inbox := writeEvent s.cfg 0x004 4 v :: rest } = .next t ∧
        (∀ r, readReg r t = if r = .id then 0x41434431 else 0) ∧ t.pend = .idle ∧ t.irq = false ∧
        t.status.word = 0 ∧ t.mem = s.mem ∧ t.cfg = s.cfg ∧ t.inbox = rest) ∧
    (v.getLsbD 1 = false →
      step { s with inbox := writeEvent s.cfg 0x004 4 v :: rest } =
        .next { s with irqEn := v.getLsbD 0, inbox := rest })

/-- 10_state.md R43, with the canonical form of memory: the reset state is well-formed. -/
def Obligations.ResetIsWellFormed : Prop := Inv State.reset

/-- 10_state.md R43, the spec's own derivation from R24, R28 and 60_exceptions.md R62: every step, of the host, the engine or the platform, keeps the state well-formed. -/
def Obligations.StepKeepsWellFormed : Prop :=
  ∀ s t : State, Inv s → step s = .next t → Inv t

/-! ## The host bus -/

/-- 20_memory.md R45: exactly the accesses the rule calls illegal are bus errors, reads and writes alike; after one (the
state it continues from is the model's reading of the rule, log 5) the host goes on with the block's state unchanged. -/
def Obligations.BusErrorExactlyOnIllegalAccess : Prop :=
  ∀ (s : State) (a n : Nat) (v : Word) (rest : List Event), a < 0x4000 →
    let legal := (a < 0x1000 ∧ n = 4 ∧ a % 4 = 0) ∨ (0x1000 ≤ a ∧ (n = 1 ∨ n = 2 ∨ n = 4) ∧ a % n = 0)
    (¬legal →
      step { s with inbox := readEvent s.cfg a n :: rest } = .fault .busError ∧
      step { s with inbox := writeEvent s.cfg a n v :: rest } = .fault .busError ∧
      skipAccess { s with inbox := readEvent s.cfg a n :: rest } = { s with inbox := rest } ∧
      skipAccess { s with inbox := writeEvent s.cfg a n v :: rest } = { s with inbox := rest }) ∧
    (legal →
      step { s with inbox := readEvent s.cfg a n :: rest } ≠ .fault .busError ∧
      ∃ t, step { s with inbox := writeEvent s.cfg a n v :: rest } = .next t)

/-- 20_memory.md R44: an access outside the 16 KiB window at BASE does not reach the block (that the machine then goes
on without an answer is the model's reading, log 9; that an access which starts below BASE is outside, though its last
bytes reach into the window, is the model's choice, DESIGN CHOICE, log 20). -/
def Obligations.AccessOutsideWindowHasNoEffect : Prop :=
  ∀ (s : State) (addr n : Nat) (v : Word) (rest : List Event),
    addr < s.cfg.base ∨ s.cfg.base + 0x4000 ≤ addr →
    step { s with inbox := .access (.read addr n) :: rest } = .next { s with inbox := rest } ∧
    step { s with inbox := .access (.write addr n v) :: rest } = .next { s with inbox := rest }

/-- 10_state.md R19, R21, R22, R24: what the host reads from every register, bit by bit from the fields, with reserved
bits and reserved offsets 0. -/
def Obligations.RegisterReadsFollowMap : Prop :=
  ∀ (s : State) (rest : List Event),
    (∀ p ∈ ([(0x000, 0x41434431), (0x004, s.irqEn.toNat),
        (0x008, s.status.busy.toNat + 2 * s.status.doneFlag.toNat + 4 * s.status.errFlag.toNat +
          8 * s.status.matchFlag.toNat + 16 * s.status.errCode.toNat),
        (0x00C, s.cmd.toNat), (0x010, s.len.toNat), (0x014, s.offset.toNat), (0x018, s.klen.toNat),
        (0x01C, s.lap.toNat), (0x020, s.uap.toNat), (0x024, s.clk.toNat), (0x028, s.skip.toNat),
        (0x02C, s.value.toNat), (0x030, s.result.toNat), (0x034, s.ac0.toNat), (0x038, s.ac1.toNat),
        (0x03C, s.ac2.toNat)] : List (Nat × Nat)),
      step { s with inbox := readEvent s.cfg p.1 4 :: rest } =
        .next { s with inbox := rest, readLog := BitVec.ofNat 32 p.2 :: s.readLog }) ∧
    (∀ a, 0x040 ≤ a → a < 0x1000 → a % 4 = 0 →
      step { s with inbox := readEvent s.cfg a 4 :: rest } =
        .next { s with inbox := rest, readLog := 0 :: s.readLog })

/-- 20_memory.md R46, R48, R49 for the buffer windows: a legal read gives the elements, lowest index in the least
significant byte, 0 beyond the buffer's size; it is the model fault `UnwrittenRead` when an element inside has no
mark. -/
def Obligations.BufferReadsAreLittleEndian : Prop :=
  ∀ (s : State) (rest : List Event) (a n base size : Nat),
    (base, size) ∈ [(0x1000, s.cfg.inSize), (0x2000, s.cfg.outSize), (0x3000, s.cfg.genSize)] →
    base ≤ a → a < base + 0x1000 → (n = 1 ∨ n = 2 ∨ n = 4) → a % n = 0 →
    ((∀ j < n, a + j < base + size → (s.mem.read (a + j)).isSome = true) →
      ∃ v : Word, step { s with inbox := readEvent s.cfg a n :: rest } =
          .next { s with inbox := rest, readLog := v :: s.readLog } ∧
        v.toNat < 2 ^ (8 * n) ∧
        ∀ j < n, (v >>> (8 * j)).setWidth 8 =
          if a + j < base + size then (s.mem.read (a + j)).getD 0 else 0) ∧
    ((∃ j < n, a + j < base + size ∧ s.mem.read (a + j) = none) →
      step { s with inbox := readEvent s.cfg a n :: rest } = .fault .unwrittenRead)

/-- 20_memory.md R47, the table of register writes, while PEND is Idle, but for its rows CMD and CTRL: a CMD write is
`CmdWriteIssuesOnlyWhenIdle` (O6), a CTRL write, with bit 1 set or clear, is `SoftResetKeepsBuffers` (O42). A reserved
offset ignores the write. -/
def Obligations.RegisterWritesFollowTable : Prop :=
  ∀ (s : State) (v : Word) (rest : List Event), s.pend = .idle →
    (∀ p ∈ ([(0x000, s), (0x030, s), (0x034, s), (0x038, s), (0x03C, s),
        (0x008, { s with status :=
          { busy := s.status.busy
            doneFlag := if v.getLsbD 1 then false else s.status.doneFlag
            errFlag := if v.getLsbD 2 then false else s.status.errFlag
            matchFlag := s.status.matchFlag
            errCode := if v.getLsbD 2 then 0 else s.status.errCode } }),
        (0x010, { s with len := BitVec.ofNat 16 v.toNat }), (0x014, { s with offset := BitVec.ofNat 16 v.toNat }),
        (0x018, { s with klen := BitVec.ofNat 16 v.toNat }), (0x01C, { s with lap := BitVec.ofNat 24 v.toNat }),
        (0x020, { s with uap := BitVec.ofNat 8 v.toNat }), (0x024, { s with clk := v }),
        (0x028, { s with skip := BitVec.ofNat 16 v.toNat }), (0x02C, { s with value := v })] :
        List (Nat × State)),
      step { s with inbox := writeEvent s.cfg p.1 4 v :: rest } = .next { p.2 with inbox := rest }) ∧
    (∀ a, 0x040 ≤ a → a < 0x1000 → a % 4 = 0 →
      step { s with inbox := writeEvent s.cfg a 4 v :: rest } = .next { s with inbox := rest })

/-- 20_memory.md R47, R48, R49 for the buffer windows, while PEND is Idle: a legal write stores every byte inside IN or
GEN, lowest index from the least significant byte, marks it, and changes no other byte; OUT ignores writes. -/
def Obligations.BufferWritesAreLittleEndian : Prop :=
  ∀ (s : State) (rest : List Event) (a n : Nat) (v : Word), s.pend = .idle →
    0x1000 ≤ a → a < 0x4000 → (n = 1 ∨ n = 2 ∨ n = 4) → a % n = 0 →
    ∃ m : Memory, step { s with inbox := writeEvent s.cfg a n v :: rest } = .next { s with mem := m, inbox := rest } ∧
      ∀ x, m.read x =
        if a ≤ x ∧ x < a + n ∧
            ((x < 0x2000 ∧ x < 0x1000 + s.cfg.inSize) ∨ (0x3000 ≤ x ∧ x < 0x3000 + s.cfg.genSize))
        then some (BitVec.ofNat 8 (v.toNat / 2 ^ (8 * (x - a)))) else s.mem.read x

/-- 20_memory.md R51: in a well-formed state, repeating at once a write of a register or buffer element leaves the state
of the first, and repeating a read that completes returns the same value and changes nothing of the block. R51 says it
of every write but those to CMD, CTRL with bit 1 set and STATUS; that an immediate repetition of one of these three, too,
leaves the state of the first follows from R47, 60_exceptions.md R61 and 70_reset_and_hazards.md R192 and R194. -/
def Obligations.RepeatedAccessesAreIdempotent : Prop :=
  ∀ (s t : State) (rest : List Event) (a n : Nat), Inv s → a < 0x4000 →
    (∀ v, step { s with inbox := writeEvent s.cfg a n v :: rest } = .next t →
      step { t with inbox := writeEvent s.cfg a n v :: rest } = .next t) ∧
    (step { s with inbox := readEvent s.cfg a n :: rest } = .next t →
      ∃ x, t = { s with inbox := rest, readLog := x :: s.readLog } ∧
        step { t with inbox := readEvent s.cfg a n :: rest } = .next { t with readLog := x :: t.readLog })

/-- 70_reset_and_hazards.md R194: while a command is pending, a legal write to anything but CTRL has no effect; reads are
allowed, a register read always and a buffer read whose elements inside the buffer have their mark (10_state.md R29),
and no read changes anything of the block. -/
def Obligations.WritesWhileBusyAreIgnored : Prop :=
  ∀ (s : State) (w : Word) (rest : List Event) (a n : Nat), s.pend = .busy w → a < 0x4000 →
    (a < 0x1000 ∧ n = 4 ∧ a % 4 = 0) ∨ (0x1000 ≤ a ∧ (n = 1 ∨ n = 2 ∨ n = 4) ∧ a % n = 0) →
    (∀ v, a ≠ 0x004 → step { s with inbox := writeEvent s.cfg a n v :: rest } = .next { s with inbox := rest }) ∧
    (a < 0x1000 ∨ (∀ j < n, isElement s.cfg (a + j) = true → (s.mem.read (a + j)).isSome = true) →
      ∃ v, step { s with inbox := readEvent s.cfg a n :: rest } =
        .next { s with inbox := rest, readLog := v :: s.readLog }) ∧
    (∀ t, step { s with inbox := readEvent s.cfg a n :: rest } = .next t →
      ∃ v, t = { s with inbox := rest, readLog := v :: s.readLog })

/-- 60_exceptions.md R69: when the interrupt line rises and falls: a commit raises it exactly when enabled, a CTRL write
with bit 1 clear makes it IRQ_EN and DONE, clearing DONE lowers it, clearing ERR alone does not. -/
def Obligations.InterruptLineFollowsDone : Prop :=
  (∀ s : State, s.irq = (s.irqEn && s.status.doneFlag)) ∧
  (∀ (s t : State) (w : Word), s.pend = .busy w → EngineTurn s → step s = .next t → t.irq = s.irqEn) ∧
  (∀ (s : State) (v : Word) (rest : List Event), v.getLsbD 1 = false →
    ∃ t, step { s with inbox := writeEvent s.cfg 0x004 4 v :: rest } = .next t ∧
      t.irq = (v.getLsbD 0 && s.status.doneFlag)) ∧
  (∀ (s : State) (v : Word) (rest : List Event), v.getLsbD 1 = true →
    ∃ t, step { s with inbox := writeEvent s.cfg 0x004 4 v :: rest } = .next t ∧ t.irq = false) ∧
  (∀ (s : State) (v : Word) (rest : List Event), s.pend = .idle →
    (∃ t, step { s with inbox := writeEvent s.cfg 0x008 4 v :: rest } = .next t ∧
      t.irq = (s.irq && !v.getLsbD 1)) ∧
    (∃ t, step { s with inbox := writeEvent s.cfg 0x00C 4 v :: rest } = .next t ∧ t.irq = false)) ∧
  (∀ (s : State) (rest : List Event), ∃ t, step { s with inbox := .hardReset :: rest } = .next t ∧ t.irq = false)

/-! ## Interleaving -/

/-- 20_memory.md R58, the spec's own derivation from R47 and R194, and 60_exceptions.md R62: host accesses between issue and commit, none of them to CTRL, cannot
change what the pending command computes: whenever such a run commits, the state is the one an immediate commit gives,
but for the host's own record of its reads. -/
def Obligations.PendingCommandIsFrozen : Prop :=
  ∀ (s t : State) (w : Word) (hs : List HostAccess), s.pend = .busy w →
    (∀ h ∈ hs, ∀ n v, h ≠ .write (s.cfg.base + 0x004) n v) →
    CleanRun (hs.length + 1) { s with inbox := hs.map .access ++ [.engine] } t →
    ∃ u, step { s with inbox := [.engine] } = .next u ∧ t = { u with readLog := t.readLog }

/-- 70_reset_and_hazards.md R199 (weak fairness, as the empty inbox gives it; log 13): a pending command commits once the
accesses still to come have taken effect, whatever reads and writes they are, none of them a soft reset: no run that
meets no fault leaves it pending. -/
def Obligations.PendingCommandCommits : Prop :=
  ∀ (s t : State) (w : Word), s.pend = .busy w →
    (∀ e ∈ s.inbox, ∃ h, e = .access h ∧
      ∀ n v, h = .write (s.cfg.base + 0x004) n v → v.getLsbD 1 = false) →
    CleanRun (s.inbox.length + 1) s t → t.pend = .idle ∧ t.status.busy = false ∧ t.status.doneFlag = true

/-- 30_encoding.md R166 (POLL): from a well-formed state, a POLL whose reads all complete ends with the first read of
STATUS that shows BUSY = 0: with a command pending, `k` reads that show bit 0 set, the engine's turn, and one read that
shows it clear; with none pending, one read (`k = 0`). That the engine's turn comes after finitely many reads is the
fairness of 70_reset_and_hazards.md R199, as the model gives it (DESIGN CHOICE, log 13). -/
def Obligations.PollEndsWithBusyClear : Prop :=
  ∀ (s t : State) (k : Nat), Inv s → k = 0 ∨ (∃ w, s.pend = .busy w) →
    CleanRun (k + 2) { s with inbox := (Stmt.poll k).events s.cfg } t →
    t.status.busy = false ∧
    (∃ rs : List Word, t.readLog = t.status.word :: (rs ++ s.readLog) ∧ rs.length = k ∧
      ∀ r ∈ rs, r = s.status.word ∧ r.getLsbD 0 = true) ∧
    t.status.word.getLsbD 0 = false

/-- 30_encoding.md R167: from an Idle state, the statements of each pseudo-instruction before its POLL write the operands
listed and issue its command; CLRST clears DONE and ERR, and SRST is the soft reset. -/
def Obligations.PseudoInstructionsIssueTheirCommand : Prop :=
  ∀ (s : State) (k : Nat) (a b c d : Word), s.pend = .idle →
    let issued := fun (t : State) (i : Instr) =>
      { t with
        cmd := encode i
        pend := .busy (encode i)
        status := { busy := true, doneFlag := false, errFlag := false, matchFlag := s.status.matchFlag, errCode := 0 }
        inbox := (Stmt.poll k).events s.cfg }
    (∀ q ∈ ([(.nop, 1, issued s .nop),
        (.a2h a b, 3, issued { s with offset := a.setWidth 16, len := b.setWidth 16 } .a2h),
        (.h2a a b, 3, issued { s with value := a, len := b.setWidth 16 } .h2a),
        (.lfsr a b c, 4,
          issued { s with offset := a.setWidth 16, len := b.setWidth 16, klen := c.setWidth 16 } .lfsr),
        (.acgen a, 2, issued { s with lap := a.setWidth 24 } .acgen),
        (.acmatch a b, 3, issued { s with lap := a.setWidth 24, offset := b.setWidth 16 } .acmatch),
        (.unwhiten a b c d, 5,
          issued { s with offset := a.setWidth 16, len := b.setWidth 16, clk := c, skip := d.setWidth 16 } .unwhiten),
        (.fec13 a b, 3, issued { s with offset := a.setWidth 16, len := b.setWidth 16 } .fec13),
        (.fec23 a b, 3, issued { s with offset := a.setWidth 16, len := b.setWidth 16 } .fec23),
        (.crc16 a b c, 4,
          issued { s with offset := a.setWidth 16, len := b.setWidth 16, uap := c.setWidth 8 } .crc16)] :
        List (Pseudo × Nat × State)),
      CleanRun q.2.1 { s with inbox := q.1.events s.cfg k } q.2.2) ∧
    CleanRun 1 { s with inbox := Pseudo.clrst.events s.cfg k }
      { s with status := { s.status with doneFlag := false, errFlag := false, errCode := 0 }, inbox := [] } ∧
    CleanRun 1 { s with inbox := Pseudo.srst.events s.cfg k } (softReset { s with inbox := [] })

/-- 10_state.md R29 and 20_memory.md R45 in the negative: a run whose accesses are legal writes and register reads, and
whose commands read no buffer element, never meets a fault or a refusal, however long it goes on. -/
def Obligations.RunsWithoutBufferReadsAreSafe : Prop :=
  ∀ s : State,
    let harmless := fun w : Word => w ∈ [encode .nop, encode .h2a, encode .acgen] ∨ 10 ≤ w.toNat
    (∀ w, s.pend = .busy w → harmless w) →
    (∀ e ∈ s.inbox, e = .engine ∨ e = .hardReset ∨ (∃ r : Reg, e = readEvent s.cfg r.byteOffset 4) ∨
      ∃ a n v, e = writeEvent s.cfg a n v ∧ a < 0x4000 ∧
        ((a < 0x1000 ∧ n = 4 ∧ a % 4 = 0) ∨ (0x1000 ≤ a ∧ (n = 1 ∨ n = 2 ∨ n = 4) ∧ a % n = 0)) ∧
        (a = 0x00C → harmless v)) →
    SafeState s
end

