-- ==== Sys2Proof/Laws/Memory.lean ====
section
/-! SUPPORT. Memory: a read after a write, the frame of a write, the canonical form kept, and what writing a list of
bytes and scanning a range do. -/

namespace Sys2Proof.Machine

@[simp] theorem Memory.read_nil (a : Nat) : Memory.read [] a = none := rfl

theorem Memory.read_cons (k : Nat) (b : Byte) (m : Memory) (a : Nat) :
    Memory.read ((k, b) :: m) a = if k = a then some b else Memory.read m a := rfl

/-- What a read gives after a write. -/
theorem Memory.read_write (m : Memory) (a x : Nat) (b : Byte) :
    (m.write a b).read x = if x = a then some b else m.read x := by
  induction m with
  | nil => simp [Memory.write, Memory.read_cons, eq_comm]
  | cons c m ih =>
    obtain ⟨k, d⟩ := c
    rw [Memory.write]
    split_ifs <;> simp_all [Memory.read_cons] <;> grind

@[simp] theorem Memory.read_write_same (m : Memory) (a : Nat) (b : Byte) : (m.write a b).read a = some b := by
  simp [Memory.read_write]

theorem Memory.read_write_ne (m : Memory) {a x : Nat} (b : Byte) (h : x ≠ a) : (m.write a b).read x = m.read x := by
  simp [Memory.read_write, h]

@[simp] theorem Memory.writeBytes_nil (m : Memory) (a : Nat) : m.writeBytes a [] = m := by
  simp [Memory.writeBytes]

/-- What a read gives after a list of bytes is written: the byte at that place, or what was there before. -/
theorem Memory.read_writeBytes (m : Memory) (a x : Nat) (bs : List Byte) :
    (m.writeBytes a bs).read x = if a ≤ x ∧ x < a + bs.length then bs[x - a]? else m.read x := by
  induction bs generalizing m a with
  | nil => simp
  | cons b bs ih =>
    rw [Memory.writeBytes, ih, Memory.read_write]
    rcases Nat.lt_trichotomy x a with h | rfl | h
    · rw [if_neg (by omega), if_neg (by omega), if_neg (by simp; omega)]
    · rw [if_neg (by omega)]; simp
    · obtain ⟨d, rfl⟩ : ∃ d, x = a + 1 + d := ⟨x - (a + 1), by omega⟩
      have e : a + 1 + d - a = d + 1 := by omega
      simp only [e, List.getElem?_cons_succ, Nat.add_sub_cancel_left, List.length_cons]
      split_ifs <;> first | rfl | omega

/-! The canonical form. -/

theorem Memory.wf_iff (m : Memory) : m.wf = true ↔ m.Pairwise (fun x y => x.1 < y.1) := by
  rw [← List.isChain_iff_pairwise]
  induction m with
  | nil => simp [Memory.wf]
  | cons c m ih => cases m <;> simp_all [Memory.wf]

theorem Memory.mem_write {m : Memory} {a : Nat} {b : Byte} {c : Host.Cell} (h : c ∈ m.write a b) :
    c = (a, b) ∨ c ∈ m := by
  induction m with
  | nil => simpa [Memory.write] using h
  | cons d m ih =>
    obtain ⟨k, e⟩ := d
    rw [Memory.write] at h
    split_ifs at h <;> simp at h ⊢ <;> tauto

/-- A write keeps the canonical form. -/
theorem Memory.wf_write {m : Memory} (a : Nat) (b : Byte) (h : m.wf = true) : (m.write a b).wf = true := by
  rw [Memory.wf_iff] at *
  induction m with
  | nil => simp [Memory.write]
  | cons d m ih =>
    obtain ⟨k, e⟩ := d
    rw [List.pairwise_cons] at h
    rw [Memory.write]
    split_ifs with h1 h2
    · refine List.pairwise_cons.2 ⟨fun c hc => ?_, List.pairwise_cons.2 h⟩
      rcases List.mem_cons.1 hc with rfl | hc
      · exact h1
      · exact lt_trans h1 (h.1 c hc)
    · subst h2; exact List.pairwise_cons.2 h
    · refine List.pairwise_cons.2 ⟨fun c hc => ?_, ih h.2⟩
      rcases Memory.mem_write hc with rfl | hc
      · show k < a; omega
      · exact h.1 c hc

/-- Writing a list of bytes keeps the canonical form. -/
theorem Memory.wf_writeBytes {m : Memory} (a : Nat) (bs : List Byte) (h : m.wf = true) :
    (m.writeBytes a bs).wf = true := by
  induction bs generalizing m a with
  | nil => simpa
  | cons b bs ih => exact ih _ (Memory.wf_write a b h)

/-- An entry after writing a list of bytes is one of those bytes at its place, or was there before. -/
theorem Memory.mem_writeBytes {m : Memory} {a : Nat} {bs : List Byte} {c : Host.Cell} (h : c ∈ m.writeBytes a bs) :
    (a ≤ c.1 ∧ c.1 < a + bs.length ∧ c.2 ∈ bs) ∨ c ∈ m := by
  induction bs generalizing m a with
  | nil => right; simpa using h
  | cons b bs ih =>
    rcases ih h with ⟨h1, h2, h3⟩ | h
    · left; exact ⟨by omega, by simp; omega, List.mem_cons_of_mem _ h3⟩
    · rcases Memory.mem_write h with rfl | h
      · left; simp
      · right; exact h

/-- An offset below every listed one has no entry. -/
theorem Memory.read_eq_none_of_lt {m : Memory} {a : Nat} (h : ∀ c ∈ m, a < c.1) : m.read a = none := by
  induction m with
  | nil => rfl
  | cons d m ih =>
    obtain ⟨k, b⟩ := d
    have hk : a < k := h (k, b) (List.mem_cons_self ..)
    rw [Memory.read_cons, if_neg (by omega)]
    exact ih fun c hc => h c (List.mem_cons_of_mem _ hc)

/-- Equal memories are equal data: two canonical memories that read alike are one list. -/
theorem Memory.eq_of_read_eq {m m' : Memory} (h : m.wf = true) (h' : m'.wf = true)
    (he : ∀ a, m.read a = m'.read a) : m = m' := by
  rw [Memory.wf_iff] at h h'
  induction m generalizing m' with
  | nil =>
    cases m' with
    | nil => rfl
    | cons d m' =>
      have hd := he d.1
      rw [Memory.read_nil, Memory.read_cons d.1 d.2, if_pos rfl] at hd
      cases hd
  | cons d m ih =>
    obtain ⟨k, b⟩ := d
    cases m' with
    | nil =>
      have hd := he k
      rw [Memory.read_nil, Memory.read_cons, if_pos rfl] at hd
      cases hd
    | cons d' m' =>
      obtain ⟨k', b'⟩ := d'
      rw [List.pairwise_cons] at h h'
      have hk : k = k' := by
        rcases Nat.lt_trichotomy k k' with hlt | heq | hlt
        · have h1 := he k
          rw [Memory.read_cons, if_pos rfl, Memory.read_eq_none_of_lt (m := (k', b') :: m')] at h1
          · cases h1
          · intro c hc
            rcases List.mem_cons.1 hc with rfl | hc
            · exact hlt
            · exact lt_trans hlt (h'.1 c hc)
        · exact heq
        · have h1 := he k'
          rw [Memory.read_cons k' b', if_pos rfl, Memory.read_eq_none_of_lt (m := (k, b) :: m)] at h1
          · cases h1
          · intro c hc
            rcases List.mem_cons.1 hc with rfl | hc
            · exact hlt
            · exact lt_trans hlt (h.1 c hc)
      subst hk
      have hb : b = b' := by have := he k; simpa [Memory.read_cons] using this
      subst hb
      rw [ih h.2 h'.2 fun a => ?_]
      by_cases hka : k = a
      · subst hka; rw [Memory.read_eq_none_of_lt h.1, Memory.read_eq_none_of_lt h'.1]
      · have := he a
        rwa [Memory.read_cons, Memory.read_cons, if_neg hka, if_neg hka] at this

/-! Bits of elements. -/

@[simp] theorem bitOfByte_bitByte (b : Bool) : bitOfByte (bitByte b) = some b := by cases b <;> decide

theorem bitOfByte_eq_some {x : Byte} {b : Bool} : bitOfByte x = some b ↔ x = bitByte b := by
  constructor
  · intro h
    unfold bitOfByte at h
    split_ifs at h <;> simp_all [bitByte]
  · rintro rfl; simp

theorem bitOfByte_eq_none {x : Byte} : bitOfByte x = none ↔ x ≠ 0 ∧ x ≠ 1 := by
  unfold bitOfByte; split_ifs <;> simp_all

theorem bitByte_inj {a b : Bool} : bitByte a = bitByte b ↔ a = b := by cases a <;> cases b <;> decide

theorem bitByte_zero_or_one (b : Bool) : bitByte b = 0 ∨ bitByte b = 1 := by cases b <;> decide

/-! Scanning a range (60_exceptions.md R66, 10_state.md R29). -/

/-- A scan gives bits exactly when the range holds them. -/
theorem Memory.scan_eq_bits (m : Memory) (a n : Nat) (bs : List Bool) :
    m.scan a n = .bits bs ↔ bs.length = n ∧ ∀ i < n, m.read (a + i) = bs[i]?.map bitByte := by
  induction n generalizing a bs with
  | zero => simp [Memory.scan, eq_comm]
  | succ n ih =>
    rw [Memory.scan]
    constructor
    · intro h
      split at h <;> try cases h
      next b hb =>
      split at h <;> try cases h
      next v hv =>
      split at h <;> try cases h
      next cs hcs =>
      obtain ⟨h1, h2⟩ := (ih _ _).1 hcs
      refine ⟨by simp [h1], fun i hi => ?_⟩
      cases i with
      | zero => simp [hb, bitOfByte_eq_some.1 hv]
      | succ i => simpa [Nat.add_assoc, Nat.add_comm 1] using h2 i (by omega)
    · rintro ⟨h1, h2⟩
      cases bs with
      | nil => simp at h1
      | cons v bs =>
        have h0 := h2 0 (by omega)
        have ht : m.scan (a + 1) n = .bits bs :=
          (ih _ _).2 ⟨by simpa using h1, fun i hi => by
            simpa [Nat.add_assoc, Nat.add_comm 1] using h2 (i + 1) (by omega)⟩
        simp at h0
        simp [h0, ht]

/-- A scan gives no bits for want of a mark exactly when the first element that is no bit has none. -/
theorem Memory.scan_eq_unwritten (m : Memory) (a n : Nat) :
    m.scan a n = .unwritten ↔
      ∃ j < n, m.read (a + j) = none ∧ ∀ k < j, ∃ v, m.read (a + k) = some (bitByte v) := by
  induction n generalizing a with
  | zero => simp [Memory.scan]
  | succ n ih =>
    rw [Memory.scan]
    constructor
    · intro h
      split at h
      next hb => exact ⟨0, by omega, by simpa using hb, by omega⟩
      next b hb =>
      split at h <;> try cases h
      next v hv =>
      split at h <;> try cases h
      next hs =>
      obtain ⟨j, hj, hn, hk⟩ := (ih _).1 hs
      refine ⟨j + 1, by omega, by simpa [Nat.add_assoc, Nat.add_comm 1] using hn, fun k hk' => ?_⟩
      cases k with
      | zero => exact ⟨v, by simp [hb, bitOfByte_eq_some.1 hv]⟩
      | succ k => simpa [Nat.add_assoc, Nat.add_comm 1] using hk k (by omega)
    · rintro ⟨j, hj, hn, hk⟩
      cases j with
      | zero => simp at hn; simp [hn]
      | succ j =>
        obtain ⟨v, hv⟩ := hk 0 (by omega)
        have ht : m.scan (a + 1) n = .unwritten :=
          (ih _).2 ⟨j, by omega, by simpa [Nat.add_assoc, Nat.add_comm 1] using hn, fun k hk' => by
            simpa [Nat.add_assoc, Nat.add_comm 1] using hk (k + 1) (by omega)⟩
        simp at hv
        simp [hv, ht]

/-- A scan meets a contract violation exactly when the first element that is no bit has a mark. -/
theorem Memory.scan_eq_contract (m : Memory) (a n : Nat) :
    m.scan a n = .contract ↔
      ∃ j < n, (∃ b, m.read (a + j) = some b ∧ b ≠ 0 ∧ b ≠ 1) ∧ ∀ k < j, ∃ v, m.read (a + k) = some (bitByte v) := by
  induction n generalizing a with
  | zero => simp [Memory.scan]
  | succ n ih =>
    rw [Memory.scan]
    constructor
    · intro h
      split at h <;> try cases h
      next b hb =>
      split at h
      next hv => exact ⟨0, by omega, ⟨b, by simpa using hb, bitOfByte_eq_none.1 hv⟩, by omega⟩
      next v hv =>
      split at h <;> try cases h
      next hs =>
      obtain ⟨j, hj, hn, hk⟩ := (ih _).1 hs
      refine ⟨j + 1, by omega, by simpa [Nat.add_assoc, Nat.add_comm 1] using hn, fun k hk' => ?_⟩
      cases k with
      | zero => exact ⟨v, by simp [hb, bitOfByte_eq_some.1 hv]⟩
      | succ k => simpa [Nat.add_assoc, Nat.add_comm 1] using hk k (by omega)
    · rintro ⟨j, hj, hn, hk⟩
      cases j with
      | zero =>
        obtain ⟨b, hb, h01⟩ := hn
        simp at hb
        simp [hb, bitOfByte_eq_none.2 h01]
      | succ j =>
        obtain ⟨v, hv⟩ := hk 0 (by omega)
        have ht : m.scan (a + 1) n = .contract :=
          (ih _).2 ⟨j, by omega, by simpa [Nat.add_assoc, Nat.add_comm 1] using hn, fun k hk' => by
            simpa [Nat.add_assoc, Nat.add_comm 1] using hk (k + 1) (by omega)⟩
        simp at hv
        simp [hv, ht]

@[simp] theorem Scan.onBits_bits (bs : List Bool) (k : List Bool → Evaluation) : (Scan.bits bs).onBits k = k bs := rfl

@[simp] theorem Scan.onBits_contract (k : List Bool → Evaluation) : Scan.contract.onBits k = .err .contract := rfl

@[simp] theorem Scan.onBits_unwritten (k : List Bool → Evaluation) : Scan.unwritten.onBits k = .unwritten := rfl

/-- What continuing a scan can give. -/
theorem Scan.onBits_cases (r : Scan) (k : List Bool → Evaluation) :
    (∃ bs, r = .bits bs ∧ r.onBits k = k bs) ∨ (r = .contract ∧ r.onBits k = .err .contract) ∨
      (r = .unwritten ∧ r.onBits k = .unwritten) := by
  cases r <;> simp

end Sys2Proof.Machine
end

