-- ==== Sys2Proof/Laws/State.lean ====
section
/-! SUPPORT. One lemma per field per update of State, each true by definition, so that no proof unfolds an update. -/

namespace Sys2Proof.Machine

/-! `issue`. -/

@[simp] theorem issue_cfg (w : Word) (s : State) : (issue w s).cfg = s.cfg := rfl
@[simp] theorem issue_irqEn (w : Word) (s : State) : (issue w s).irqEn = s.irqEn := rfl
@[simp] theorem issue_status (w : Word) (s : State) : (issue w s).status = ⟨true, false, false, s.status.matchFlag, 0⟩ := rfl
@[simp] theorem issue_cmd (w : Word) (s : State) : (issue w s).cmd = w := rfl
@[simp] theorem issue_len (w : Word) (s : State) : (issue w s).len = s.len := rfl
@[simp] theorem issue_offset (w : Word) (s : State) : (issue w s).offset = s.offset := rfl
@[simp] theorem issue_klen (w : Word) (s : State) : (issue w s).klen = s.klen := rfl
@[simp] theorem issue_lap (w : Word) (s : State) : (issue w s).lap = s.lap := rfl
@[simp] theorem issue_uap (w : Word) (s : State) : (issue w s).uap = s.uap := rfl
@[simp] theorem issue_clk (w : Word) (s : State) : (issue w s).clk = s.clk := rfl
@[simp] theorem issue_skip (w : Word) (s : State) : (issue w s).skip = s.skip := rfl
@[simp] theorem issue_value (w : Word) (s : State) : (issue w s).value = s.value := rfl
@[simp] theorem issue_result (w : Word) (s : State) : (issue w s).result = s.result := rfl
@[simp] theorem issue_ac0 (w : Word) (s : State) : (issue w s).ac0 = s.ac0 := rfl
@[simp] theorem issue_ac1 (w : Word) (s : State) : (issue w s).ac1 = s.ac1 := rfl
@[simp] theorem issue_ac2 (w : Word) (s : State) : (issue w s).ac2 = s.ac2 := rfl
@[simp] theorem issue_pend (w : Word) (s : State) : (issue w s).pend = .busy w := rfl
@[simp] theorem issue_mem (w : Word) (s : State) : (issue w s).mem = s.mem := rfl
@[simp] theorem issue_inbox (w : Word) (s : State) : (issue w s).inbox = s.inbox := rfl
@[simp] theorem issue_readLog (w : Word) (s : State) : (issue w s).readLog = s.readLog := rfl

/-! `commitOk`. -/

@[simp] theorem commitOk_cfg (S : Staged) (s : State) : (commitOk S s).cfg = s.cfg := rfl
@[simp] theorem commitOk_irqEn (S : Staged) (s : State) : (commitOk S s).irqEn = s.irqEn := rfl
@[simp] theorem commitOk_status (S : Staged) (s : State) : (commitOk S s).status = ⟨false, true, false, S.matchFlag.getD s.status.matchFlag, 0⟩ := rfl
@[simp] theorem commitOk_cmd (S : Staged) (s : State) : (commitOk S s).cmd = s.cmd := rfl
@[simp] theorem commitOk_len (S : Staged) (s : State) : (commitOk S s).len = s.len := rfl
@[simp] theorem commitOk_offset (S : Staged) (s : State) : (commitOk S s).offset = s.offset := rfl
@[simp] theorem commitOk_klen (S : Staged) (s : State) : (commitOk S s).klen = s.klen := rfl
@[simp] theorem commitOk_lap (S : Staged) (s : State) : (commitOk S s).lap = s.lap := rfl
@[simp] theorem commitOk_uap (S : Staged) (s : State) : (commitOk S s).uap = s.uap := rfl
@[simp] theorem commitOk_clk (S : Staged) (s : State) : (commitOk S s).clk = s.clk := rfl
@[simp] theorem commitOk_skip (S : Staged) (s : State) : (commitOk S s).skip = s.skip := rfl
@[simp] theorem commitOk_value (S : Staged) (s : State) : (commitOk S s).value = s.value := rfl
@[simp] theorem commitOk_result (S : Staged) (s : State) : (commitOk S s).result = S.result.getD s.result := rfl
@[simp] theorem commitOk_ac0 (S : Staged) (s : State) : (commitOk S s).ac0 = (S.ac.map (·.ac0)).getD s.ac0 := rfl
@[simp] theorem commitOk_ac1 (S : Staged) (s : State) : (commitOk S s).ac1 = (S.ac.map (·.ac1)).getD s.ac1 := rfl
@[simp] theorem commitOk_ac2 (S : Staged) (s : State) : (commitOk S s).ac2 = (S.ac.map (·.ac2)).getD s.ac2 := rfl
@[simp] theorem commitOk_pend (S : Staged) (s : State) : (commitOk S s).pend = .idle := rfl
@[simp] theorem commitOk_mem (S : Staged) (s : State) : (commitOk S s).mem = s.mem.writeBytes outBase (S.out.map bitByte) := rfl
@[simp] theorem commitOk_inbox (S : Staged) (s : State) : (commitOk S s).inbox = s.inbox := rfl
@[simp] theorem commitOk_readLog (S : Staged) (s : State) : (commitOk S s).readLog = s.readLog := rfl

/-! `commitErr`. -/

@[simp] theorem commitErr_cfg (c : ErrorCode) (s : State) : (commitErr c s).cfg = s.cfg := rfl
@[simp] theorem commitErr_irqEn (c : ErrorCode) (s : State) : (commitErr c s).irqEn = s.irqEn := rfl
@[simp] theorem commitErr_status (c : ErrorCode) (s : State) : (commitErr c s).status = ⟨false, true, true, s.status.matchFlag, c.code⟩ := rfl
@[simp] theorem commitErr_cmd (c : ErrorCode) (s : State) : (commitErr c s).cmd = s.cmd := rfl
@[simp] theorem commitErr_len (c : ErrorCode) (s : State) : (commitErr c s).len = s.len := rfl
@[simp] theorem commitErr_offset (c : ErrorCode) (s : State) : (commitErr c s).offset = s.offset := rfl
@[simp] theorem commitErr_klen (c : ErrorCode) (s : State) : (commitErr c s).klen = s.klen := rfl
@[simp] theorem commitErr_lap (c : ErrorCode) (s : State) : (commitErr c s).lap = s.lap := rfl
@[simp] theorem commitErr_uap (c : ErrorCode) (s : State) : (commitErr c s).uap = s.uap := rfl
@[simp] theorem commitErr_clk (c : ErrorCode) (s : State) : (commitErr c s).clk = s.clk := rfl
@[simp] theorem commitErr_skip (c : ErrorCode) (s : State) : (commitErr c s).skip = s.skip := rfl
@[simp] theorem commitErr_value (c : ErrorCode) (s : State) : (commitErr c s).value = s.value := rfl
@[simp] theorem commitErr_result (c : ErrorCode) (s : State) : (commitErr c s).result = s.result := rfl
@[simp] theorem commitErr_ac0 (c : ErrorCode) (s : State) : (commitErr c s).ac0 = s.ac0 := rfl
@[simp] theorem commitErr_ac1 (c : ErrorCode) (s : State) : (commitErr c s).ac1 = s.ac1 := rfl
@[simp] theorem commitErr_ac2 (c : ErrorCode) (s : State) : (commitErr c s).ac2 = s.ac2 := rfl
@[simp] theorem commitErr_pend (c : ErrorCode) (s : State) : (commitErr c s).pend = .idle := rfl
@[simp] theorem commitErr_mem (c : ErrorCode) (s : State) : (commitErr c s).mem = s.mem := rfl
@[simp] theorem commitErr_inbox (c : ErrorCode) (s : State) : (commitErr c s).inbox = s.inbox := rfl
@[simp] theorem commitErr_readLog (c : ErrorCode) (s : State) : (commitErr c s).readLog = s.readLog := rfl

/-! `softReset` and `hardReset`. -/

@[simp] theorem softReset_cfg (s : State) : (softReset s).cfg = s.cfg := rfl
@[simp] theorem softReset_irqEn (s : State) : (softReset s).irqEn = false := rfl
/-- Bit 0 of the STATUS word is BUSY (10_state.md R24). -/
theorem Status.word_bit0 (st : Status) : st.word.getLsbD 0 = st.busy := by
  unfold Status.word
  rw [BitVec.getLsbD_append]
  cases st.busy <;> rfl

@[simp] theorem softReset_status (s : State) : (softReset s).status = Status.reset := rfl
@[simp] theorem softReset_cmd (s : State) : (softReset s).cmd = 0 := rfl
@[simp] theorem softReset_len (s : State) : (softReset s).len = 0 := rfl
@[simp] theorem softReset_offset (s : State) : (softReset s).offset = 0 := rfl
@[simp] theorem softReset_klen (s : State) : (softReset s).klen = 0 := rfl
@[simp] theorem softReset_lap (s : State) : (softReset s).lap = 0 := rfl
@[simp] theorem softReset_uap (s : State) : (softReset s).uap = 0 := rfl
@[simp] theorem softReset_clk (s : State) : (softReset s).clk = 0 := rfl
@[simp] theorem softReset_skip (s : State) : (softReset s).skip = 0 := rfl
@[simp] theorem softReset_value (s : State) : (softReset s).value = 0 := rfl
@[simp] theorem softReset_result (s : State) : (softReset s).result = 0 := rfl
@[simp] theorem softReset_ac0 (s : State) : (softReset s).ac0 = 0 := rfl
@[simp] theorem softReset_ac1 (s : State) : (softReset s).ac1 = 0 := rfl
@[simp] theorem softReset_ac2 (s : State) : (softReset s).ac2 = 0 := rfl
@[simp] theorem softReset_pend (s : State) : (softReset s).pend = .idle := rfl
@[simp] theorem softReset_mem (s : State) : (softReset s).mem = s.mem := rfl
@[simp] theorem softReset_inbox (s : State) : (softReset s).inbox = s.inbox := rfl
@[simp] theorem softReset_readLog (s : State) : (softReset s).readLog = s.readLog := rfl
@[simp] theorem hardReset_cfg (s : State) : (hardReset s).cfg = s.cfg := rfl
@[simp] theorem hardReset_irqEn (s : State) : (hardReset s).irqEn = false := rfl
@[simp] theorem hardReset_status (s : State) : (hardReset s).status = Status.reset := rfl
@[simp] theorem hardReset_cmd (s : State) : (hardReset s).cmd = 0 := rfl
@[simp] theorem hardReset_len (s : State) : (hardReset s).len = 0 := rfl
@[simp] theorem hardReset_offset (s : State) : (hardReset s).offset = 0 := rfl
@[simp] theorem hardReset_klen (s : State) : (hardReset s).klen = 0 := rfl
@[simp] theorem hardReset_lap (s : State) : (hardReset s).lap = 0 := rfl
@[simp] theorem hardReset_uap (s : State) : (hardReset s).uap = 0 := rfl
@[simp] theorem hardReset_clk (s : State) : (hardReset s).clk = 0 := rfl
@[simp] theorem hardReset_skip (s : State) : (hardReset s).skip = 0 := rfl
@[simp] theorem hardReset_value (s : State) : (hardReset s).value = 0 := rfl
@[simp] theorem hardReset_result (s : State) : (hardReset s).result = 0 := rfl
@[simp] theorem hardReset_ac0 (s : State) : (hardReset s).ac0 = 0 := rfl
@[simp] theorem hardReset_ac1 (s : State) : (hardReset s).ac1 = 0 := rfl
@[simp] theorem hardReset_ac2 (s : State) : (hardReset s).ac2 = 0 := rfl
@[simp] theorem hardReset_pend (s : State) : (hardReset s).pend = .idle := rfl
@[simp] theorem hardReset_mem (s : State) : (hardReset s).mem = [] := rfl
@[simp] theorem hardReset_inbox (s : State) : (hardReset s).inbox = s.inbox := rfl
@[simp] theorem hardReset_readLog (s : State) : (hardReset s).readLog = s.readLog := rfl

/-! `State.committed` and `State.failed`. -/

@[simp] theorem committed_cfg (s : State) : (s.committed).cfg = s.cfg := rfl
@[simp] theorem committed_irqEn (s : State) : (s.committed).irqEn = s.irqEn := rfl
@[simp] theorem committed_status (s : State) : (s.committed).status = ⟨false, true, false, s.status.matchFlag, 0⟩ := rfl
@[simp] theorem committed_cmd (s : State) : (s.committed).cmd = s.cmd := rfl
@[simp] theorem committed_len (s : State) : (s.committed).len = s.len := rfl
@[simp] theorem committed_offset (s : State) : (s.committed).offset = s.offset := rfl
@[simp] theorem committed_klen (s : State) : (s.committed).klen = s.klen := rfl
@[simp] theorem committed_lap (s : State) : (s.committed).lap = s.lap := rfl
@[simp] theorem committed_uap (s : State) : (s.committed).uap = s.uap := rfl
@[simp] theorem committed_clk (s : State) : (s.committed).clk = s.clk := rfl
@[simp] theorem committed_skip (s : State) : (s.committed).skip = s.skip := rfl
@[simp] theorem committed_value (s : State) : (s.committed).value = s.value := rfl
@[simp] theorem committed_result (s : State) : (s.committed).result = s.result := rfl
@[simp] theorem committed_ac0 (s : State) : (s.committed).ac0 = s.ac0 := rfl
@[simp] theorem committed_ac1 (s : State) : (s.committed).ac1 = s.ac1 := rfl
@[simp] theorem committed_ac2 (s : State) : (s.committed).ac2 = s.ac2 := rfl
@[simp] theorem committed_pend (s : State) : (s.committed).pend = .idle := rfl
@[simp] theorem committed_mem (s : State) : (s.committed).mem = s.mem := rfl
@[simp] theorem committed_inbox (s : State) : (s.committed).inbox = s.inbox := rfl
@[simp] theorem committed_readLog (s : State) : (s.committed).readLog = s.readLog := rfl
@[simp] theorem failed_cfg (s : State) (c : BitVec 4) : (s.failed c).cfg = s.cfg := rfl
@[simp] theorem failed_irqEn (s : State) (c : BitVec 4) : (s.failed c).irqEn = s.irqEn := rfl
@[simp] theorem failed_status (s : State) (c : BitVec 4) : (s.failed c).status = ⟨false, true, true, s.status.matchFlag, c⟩ := rfl
@[simp] theorem failed_cmd (s : State) (c : BitVec 4) : (s.failed c).cmd = s.cmd := rfl
@[simp] theorem failed_len (s : State) (c : BitVec 4) : (s.failed c).len = s.len := rfl
@[simp] theorem failed_offset (s : State) (c : BitVec 4) : (s.failed c).offset = s.offset := rfl
@[simp] theorem failed_klen (s : State) (c : BitVec 4) : (s.failed c).klen = s.klen := rfl
@[simp] theorem failed_lap (s : State) (c : BitVec 4) : (s.failed c).lap = s.lap := rfl
@[simp] theorem failed_uap (s : State) (c : BitVec 4) : (s.failed c).uap = s.uap := rfl
@[simp] theorem failed_clk (s : State) (c : BitVec 4) : (s.failed c).clk = s.clk := rfl
@[simp] theorem failed_skip (s : State) (c : BitVec 4) : (s.failed c).skip = s.skip := rfl
@[simp] theorem failed_value (s : State) (c : BitVec 4) : (s.failed c).value = s.value := rfl
@[simp] theorem failed_result (s : State) (c : BitVec 4) : (s.failed c).result = s.result := rfl
@[simp] theorem failed_ac0 (s : State) (c : BitVec 4) : (s.failed c).ac0 = s.ac0 := rfl
@[simp] theorem failed_ac1 (s : State) (c : BitVec 4) : (s.failed c).ac1 = s.ac1 := rfl
@[simp] theorem failed_ac2 (s : State) (c : BitVec 4) : (s.failed c).ac2 = s.ac2 := rfl
@[simp] theorem failed_pend (s : State) (c : BitVec 4) : (s.failed c).pend = .idle := rfl
@[simp] theorem failed_mem (s : State) (c : BitVec 4) : (s.failed c).mem = s.mem := rfl
@[simp] theorem failed_inbox (s : State) (c : BitVec 4) : (s.failed c).inbox = s.inbox := rfl
@[simp] theorem failed_readLog (s : State) (c : BitVec 4) : (s.failed c).readLog = s.readLog := rfl

/-! `placeCommand` and `skipAccess`. -/

@[simp] theorem placeCommand_cfg (s : State) (w : Word) : (placeCommand s w).cfg = s.cfg := rfl
@[simp] theorem placeCommand_irqEn (s : State) (w : Word) : (placeCommand s w).irqEn = s.irqEn := rfl
@[simp] theorem placeCommand_status (s : State) (w : Word) : (placeCommand s w).status = ⟨true, false, false, s.status.matchFlag, 0⟩ := rfl
@[simp] theorem placeCommand_cmd (s : State) (w : Word) : (placeCommand s w).cmd = w := rfl
@[simp] theorem placeCommand_len (s : State) (w : Word) : (placeCommand s w).len = s.len := rfl
@[simp] theorem placeCommand_offset (s : State) (w : Word) : (placeCommand s w).offset = s.offset := rfl
@[simp] theorem placeCommand_klen (s : State) (w : Word) : (placeCommand s w).klen = s.klen := rfl
@[simp] theorem placeCommand_lap (s : State) (w : Word) : (placeCommand s w).lap = s.lap := rfl
@[simp] theorem placeCommand_uap (s : State) (w : Word) : (placeCommand s w).uap = s.uap := rfl
@[simp] theorem placeCommand_clk (s : State) (w : Word) : (placeCommand s w).clk = s.clk := rfl
@[simp] theorem placeCommand_skip (s : State) (w : Word) : (placeCommand s w).skip = s.skip := rfl
@[simp] theorem placeCommand_value (s : State) (w : Word) : (placeCommand s w).value = s.value := rfl
@[simp] theorem placeCommand_result (s : State) (w : Word) : (placeCommand s w).result = s.result := rfl
@[simp] theorem placeCommand_ac0 (s : State) (w : Word) : (placeCommand s w).ac0 = s.ac0 := rfl
@[simp] theorem placeCommand_ac1 (s : State) (w : Word) : (placeCommand s w).ac1 = s.ac1 := rfl
@[simp] theorem placeCommand_ac2 (s : State) (w : Word) : (placeCommand s w).ac2 = s.ac2 := rfl
@[simp] theorem placeCommand_pend (s : State) (w : Word) : (placeCommand s w).pend = .busy w := rfl
@[simp] theorem placeCommand_mem (s : State) (w : Word) : (placeCommand s w).mem = s.mem := rfl
@[simp] theorem placeCommand_inbox (s : State) (w : Word) : (placeCommand s w).inbox = .engine :: s.inbox := rfl
@[simp] theorem placeCommand_readLog (s : State) (w : Word) : (placeCommand s w).readLog = s.readLog := rfl
@[simp] theorem skipAccess_cfg (s : State) : (skipAccess s).cfg = s.cfg := rfl
@[simp] theorem skipAccess_irqEn (s : State) : (skipAccess s).irqEn = s.irqEn := rfl
@[simp] theorem skipAccess_status (s : State) : (skipAccess s).status = s.status := rfl
@[simp] theorem skipAccess_cmd (s : State) : (skipAccess s).cmd = s.cmd := rfl
@[simp] theorem skipAccess_len (s : State) : (skipAccess s).len = s.len := rfl
@[simp] theorem skipAccess_offset (s : State) : (skipAccess s).offset = s.offset := rfl
@[simp] theorem skipAccess_klen (s : State) : (skipAccess s).klen = s.klen := rfl
@[simp] theorem skipAccess_lap (s : State) : (skipAccess s).lap = s.lap := rfl
@[simp] theorem skipAccess_uap (s : State) : (skipAccess s).uap = s.uap := rfl
@[simp] theorem skipAccess_clk (s : State) : (skipAccess s).clk = s.clk := rfl
@[simp] theorem skipAccess_skip (s : State) : (skipAccess s).skip = s.skip := rfl
@[simp] theorem skipAccess_value (s : State) : (skipAccess s).value = s.value := rfl
@[simp] theorem skipAccess_result (s : State) : (skipAccess s).result = s.result := rfl
@[simp] theorem skipAccess_ac0 (s : State) : (skipAccess s).ac0 = s.ac0 := rfl
@[simp] theorem skipAccess_ac1 (s : State) : (skipAccess s).ac1 = s.ac1 := rfl
@[simp] theorem skipAccess_ac2 (s : State) : (skipAccess s).ac2 = s.ac2 := rfl
@[simp] theorem skipAccess_pend (s : State) : (skipAccess s).pend = s.pend := rfl
@[simp] theorem skipAccess_mem (s : State) : (skipAccess s).mem = s.mem := rfl
@[simp] theorem skipAccess_inbox (s : State) : (skipAccess s).inbox = s.inbox.tail := rfl
@[simp] theorem skipAccess_readLog (s : State) : (skipAccess s).readLog = s.readLog := rfl

/-! The views of the buffers. -/

theorem State.inElem_eq (s : State) (i : Nat) : s.inElem i = s.mem.read (inBase + i) := rfl

theorem State.outElem_eq (s : State) (i : Nat) : s.outElem i = s.mem.read (outBase + i) := rfl

theorem State.genElem_eq (s : State) (i : Nat) : s.genElem i = s.mem.read (genBase + i) := rfl

end Sys2Proof.Machine
end

