-- ==== Sys2Proof/Laws/Commit.lean ====
section
/-! SUPPORT. What a commit can do, what evaluating each command can give, and the equations that replace unfolding. -/

namespace Sys2Proof.Machine

@[simp] theorem commit_ok (S : Staged) (s : State) : commit (.ok S) s = .next (commitOk S s) := rfl

@[simp] theorem commit_err (c : ErrorCode) (s : State) : commit (.err c) s = .next (commitErr c s) := rfl

@[simp] theorem commit_unwritten (s : State) : commit .unwritten s = .fault .unwrittenRead := rfl

theorem commitErr_eq_failed (c : ErrorCode) (s : State) : commitErr c s = s.failed c.code := rfl

/-- Everything a commit can answer with a next state. -/
theorem commit_next {e : Evaluation} {s t : State} (h : commit e s = .next t) :
    (∃ S, e = .ok S ∧ t = commitOk S s) ∨ (∃ c, e = .err c ∧ t = commitErr c s) := by
  cases e <;> simp_all [eq_comm]

/-- The evaluation of each command, by name: `exec` is its commit. -/
def evalOf (i : Instr) (s : State) : Evaluation :=
  match i with
  | .nop => evalNop s
  | .a2h => evalA2h s
  | .h2a => evalH2a s
  | .lfsr => evalLfsr s
  | .acgen => evalAcgen s
  | .acmatch => evalAcmatch s
  | .unwhiten => evalUnwhiten s
  | .fec13 => evalFec13 s
  | .fec23 => evalFec23 s
  | .crc16 => evalCrc16 s

theorem exec_eq_commit (i : Instr) (s : State) : exec i s = commit (evalOf i s) s := by cases i <;> rfl

/-- Everything a command can answer with a next state: the commit of what its evaluation gives. -/
theorem exec_next {i : Instr} {s t : State} (h : exec i s = .next t) :
    (∃ S, evalOf i s = .ok S ∧ t = commitOk S s) ∨ (∃ c, evalOf i s = .err c ∧ t = commitErr c s) :=
  commit_next (exec_eq_commit i s ▸ h)

/-- A command never refuses. -/
theorem exec_ne_refused (i : Instr) (s : State) (r : Refusal) : exec i s ≠ .refused r := by
  rw [exec_eq_commit]; cases evalOf i s <;> simp

/-- A command's only fault is the read of an element without its mark. -/
theorem exec_fault {i : Instr} {s : State} {f : Fault} (h : exec i s = .fault f) :
    f = .unwrittenRead ∧ evalOf i s = .unwritten := by
  rw [exec_eq_commit] at h; cases hE : evalOf i s <;> simp_all

/-- A successful commit that stages nothing but OUT elements. -/
theorem commitOk_onlyOut (out : List Bool) (s : State) :
    commitOk { out := out } s = { s.committed with mem := s.mem.writeBytes outBase (out.map bitByte) } := rfl

/-- A successful commit that stages nothing but RESULT. -/
theorem commitOk_onlyResult (r : Word) (s : State) : commitOk { result := some r } s = { s.committed with result := r } :=
  rfl

/-- A successful commit that stages nothing but MATCH. -/
theorem commitOk_onlyMatch (b : Bool) (s : State) :
    commitOk { matchFlag := some b } s = { s.committed with status := { s.committed.status with matchFlag := b } } :=
  rfl

/-- A successful commit writes exactly its staged bits to OUT. -/
theorem outWritten_writeBytes (m : Memory) (out : List Bool) :
    OutWritten m (m.writeBytes outBase (out.map bitByte)) out := by
  intro a
  rw [Memory.read_writeBytes]
  simp

/-- An element of OUT after a commit. -/
theorem outElem_writeBytes (s : State) (out : List Bool) (m : Memory) (i : Nat) :
    ({ s with mem := m.writeBytes outBase (out.map bitByte) } : State).outElem i =
      if i < out.length then out[i]?.map bitByte else m.read (outBase + i) := by
  rw [State.outElem_eq, Memory.read_writeBytes]
  simp

/-! Reading operands. -/

/-- A scan of IN gives bits exactly when the range holds them. -/
theorem State.scanIn_eq_bits (s : State) (n : Nat) (bs : List Bool) :
    s.scanIn n = .bits bs ↔ bs.length = n ∧ s.inHolds s.offset.toNat bs := by
  unfold State.scanIn State.inHolds
  rw [Memory.scan_eq_bits]
  constructor <;> rintro ⟨rfl, h⟩ <;> refine ⟨rfl, fun i hi => ?_⟩ <;>
    simpa [State.inElem_eq, State.offsetN, Nat.add_assoc] using h i hi

/-- A scan of GEN gives bits exactly when the range holds them. -/
theorem State.scanGen_eq_bits (s : State) (n : Nat) (g : List Bool) :
    s.scanGen n = .bits g ↔ g.length = n ∧ s.genHolds g := by
  unfold State.scanGen State.genHolds
  rw [Memory.scan_eq_bits]
  constructor <;> rintro ⟨rfl, h⟩ <;> exact ⟨rfl, h⟩

@[simp] theorem State.inOverrun_eq (s : State) (n : Nat) :
    s.inOverrun n = decide (s.cfg.inSize < s.offset.toNat + n) := rfl

@[simp] theorem State.outOverrun_eq (s : State) (n : Nat) : s.outOverrun n = decide (s.cfg.outSize < n) := rfl

/-- What a range that lies in IN and holds bits gives a command. -/
theorem State.reads_scanIn {s : State} {n : Nat} {bs : List Bool} (h : s.reads n bs) :
    s.inOverrun n = false ∧ s.scanIn n = .bits bs := by
  obtain ⟨h1, h2, h3⟩ := h
  exact ⟨by simp [h2], (s.scanIn_eq_bits n bs).2 ⟨h1, h3⟩⟩

theorem paddedLen_eq (l : Nat) : paddedLen l = 10 * ((l + 9) / 10) := by unfold paddedLen; omega

theorem paddedLen_div (l : Nat) : paddedLen l / 10 = (l + 9) / 10 := by rw [paddedLen_eq]; omega

/-- FEC23 in terms of its number of blocks. -/
theorem evalFec23_eq (s : State) :
    evalFec23 s =
      if s.inOverrun (15 * s.blocks) || s.outOverrun (10 * s.blocks) then .err .range
      else (s.scanIn (15 * s.blocks)).onBits fun bs =>
        match fec23Blocks s.cfg.g23 s.blocks bs with
        | none => .err .uncorrectable
        | some d => .ok { out := d, result := some (BitVec.ofNat 32 (10 * s.blocks)) } := by
  simp only [evalFec23, State.lenN, paddedLen_eq, State.blocks,
    show 10 * ((s.len.toNat + 9) / 10) / 10 = (s.len.toNat + 9) / 10 by omega]
  rfl

end Sys2Proof.Machine
end

