-- ==== Sys2Proof/Laws/Operations.lean ====
section
/-! SUPPORT. The lengths and the element-wise reading of the bit operations, and one lemma per command that says what a
success stages. -/

namespace Sys2Proof.Machine

@[simp] theorem unpackLsb_length (v : Word) (n : Nat) : (unpackLsb v n).length = n := by simp [unpackLsb]

theorem packLsb_getLsbD (bs : List Bool) {i : Nat} (h : i < 32) : (packLsb bs).getLsbD i = bs.getD i false := by
  induction bs generalizing i with
  | nil => simp [packLsb]
  | cons b bs ih =>
    rw [packLsb]
    cases i with
    | zero => cases b <;> simp
    | succ i =>
      have e := ih (show i < 32 by omega)
      rw [BitVec.getLsbD_eq_getElem (show i < 32 by omega)] at e
      simpa [h] using e

theorem lfsrStep_length (g cw : List Bool) (d : Bool) (h : cw ≠ []) :
    (lfsrStep g cw d).length = min cw.length g.length := by
  have : cw.length - 1 + 1 = cw.length := Nat.sub_add_cancel (List.length_pos_iff.2 h)
  simp [lfsrStep, this]

theorem foldl_lfsrStep_length (g cw data : List Bool) (h : cw.length ≤ g.length) (h0 : cw ≠ []) :
    (data.foldl (lfsrStep g) cw).length = cw.length := by
  induction data generalizing cw with
  | nil => rfl
  | cons d data ih =>
    have e : (lfsrStep g cw d).length = cw.length := by rw [lfsrStep_length _ _ _ h0]; omega
    rw [List.foldl_cons, ih _ (by omega) (by rw [← List.length_pos_iff, e]; exact List.length_pos_iff.2 h0), e]

/-- The division gives `n - k` bits (41_lfsr.md R80). -/
theorem lfsrDiv_length (data g : List Bool) (n k : Nat) (h : k < n) (hg : n - k ≤ g.length) :
    (lfsrDiv data n k g).length = n - k := by
  unfold lfsrDiv
  rw [foldl_lfsrStep_length]
  · simp
  · simp [hg]
  · rw [← List.length_pos_iff]; simp; omega

@[simp] theorem msbBits_length (b : Byte) : (msbBits b).length = 8 := by simp [msbBits]

theorem expand_length (f : List Byte) : (expand f).length = 8 * f.length := by
  induction f with
  | nil => rfl
  | cons b f ih => simp [expand] at *; omega

@[simp] theorem unwhitenBits_length (q : List Bool) (i : Nat) (bs : List Bool) :
    (unwhitenBits q i bs).length = bs.length := by
  induction bs generalizing i with
  | nil => rfl
  | cons b bs ih => simp [unwhitenBits, ih]

/-- UNWHITEN element by element (43_whitener.md R120). -/
theorem unwhitenBits_getD (q bs : List Bool) (idx i : Nat) (h : idx < 127) (hi : i < bs.length) :
    (unwhitenBits q idx bs).getD i false = (bs.getD i false ^^ q.getD ((idx + i) % 127) false) := by
  induction bs generalizing idx i with
  | nil => simp at hi
  | cons b bs ih =>
    cases i with
    | zero => simp [unwhitenBits, Nat.mod_eq_of_lt h]
    | succ i =>
      have := ih ((idx + 1) % 127) i (Nat.mod_lt _ (by decide)) (by simpa using hi)
      rw [show ((idx + 1) % 127 + i) % 127 = (idx + (i + 1)) % 127 by omega] at this
      simpa [unwhitenBits] using this

theorem fec13Bits_length (bs : List Bool) (n : Nat) (h : bs.length = 3 * n) : (fec13Bits bs).length = n := by
  induction n generalizing bs with
  | zero => simp at h; simp [h, fec13Bits]
  | succ n ih =>
    match bs, h with
    | a :: b :: c :: rest, h =>
      simp only [fec13Bits, List.length_cons]
      rw [ih rest (by simp at h; omega)]

theorem flipBit_length (d : List Bool) (j : Nat) : (flipBit d j).length = d.length := by simp [flipBit]

theorem fec23Block_length {g23 block d : List Bool} (h : fec23Block g23 block = some d) (hb : 10 ≤ block.length) :
    d.length = 10 := by
  simp only [fec23Block] at h
  split_ifs at h
  · simp only [Option.map_eq_some_iff] at h
    obtain ⟨j, -, rfl⟩ := h
    simp [flipBit_length]; omega
  · cases h; simp; omega

theorem fec23Blocks_length {g23 : List Bool} {n : Nat} {bs d : List Bool} (h : fec23Blocks g23 n bs = some d)
    (hb : bs.length = 15 * n) : d.length = 10 * n := by
  induction n generalizing bs d with
  | zero => simp [fec23Blocks] at h; simp [← h]
  | succ n ih =>
    rw [fec23Blocks] at h
    split at h
    · cases h
    · next d0 h0 =>
      simp only [Option.map_eq_some_iff] at h
      obtain ⟨d1, h1, rfl⟩ := h
      have e0 := fec23Block_length h0 (by simp; omega)
      have e1 := ih h1 (by simp; omega)
      simp; omega

/-! What a success of each command stages. -/

theorem evalNop_ok (s : State) : evalNop s = .ok {} := rfl

theorem evalA2h_ok {s : State} {S : Staged} (h : evalA2h s = .ok S) :
    s.len.toNat ≤ 32 ∧ ∃ bs, s.reads s.len.toNat bs ∧ S = { result := some (packLsb bs) } := by
  simp only [evalA2h, State.lenN, State.inOverrun_eq, decide_eq_true_eq] at h
  split_ifs at h with h1 h2
  rcases Scan.onBits_cases (s.scanIn s.len.toNat) (fun bs => .ok { result := some (packLsb bs) }) with
    ⟨bs, hb, e⟩ | ⟨-, e⟩ | ⟨-, e⟩ <;> rw [e] at h <;> cases h
  obtain ⟨hl, hh⟩ := (s.scanIn_eq_bits _ _).1 hb
  exact ⟨by omega, bs, ⟨hl, by omega, hh⟩, rfl⟩

theorem evalH2a_ok {s : State} {S : Staged} (h : evalH2a s = .ok S) :
    s.len.toNat ≤ 32 ∧ S = { out := unpackLsb s.value s.len.toNat } := by
  simp only [evalH2a, State.lenN] at h
  by_cases h1 : 32 < s.len.toNat
  · simp [h1] at h
  · simp only [h1, if_false, Evaluation.ok.injEq] at h
    exact ⟨by omega, h.symm⟩

theorem evalLfsr_ok {s : State} {S : Staged} (h : evalLfsr s = .ok S) :
    s.klen.toNat < s.len.toNat ∧ s.len.toNat - s.klen.toNat ≤ s.cfg.genSize ∧ ∃ data g, s.reads s.klen.toNat data ∧
      g.length = s.len.toNat - s.klen.toNat ∧ s.genHolds g ∧
      S = { out := lfsrDiv data s.len.toNat s.klen.toNat g } := by
  simp only [evalLfsr, State.lenN, State.klenN, State.inOverrun_eq, decide_eq_true_eq] at h
  split_ifs at h with h1 h2
  rcases Scan.onBits_cases (s.scanIn s.klen.toNat) (fun data =>
      (s.scanGen (s.len.toNat - s.klen.toNat)).onBits fun g =>
        .ok { out := lfsrDiv data s.len.toNat s.klen.toNat g }) with
    ⟨data, hd, e⟩ | ⟨-, e⟩ | ⟨-, e⟩ <;> rw [e] at h <;> try cases h
  rcases Scan.onBits_cases (s.scanGen (s.len.toNat - s.klen.toNat)) (fun g =>
      .ok { out := lfsrDiv data s.len.toNat s.klen.toNat g }) with
    ⟨g, hg, e⟩ | ⟨-, e⟩ | ⟨-, e⟩ <;> rw [e] at h <;> cases h
  obtain ⟨hl, hh⟩ := (s.scanIn_eq_bits _ _).1 hd
  obtain ⟨gl, gh⟩ := (s.scanGen_eq_bits _ _).1 hg
  exact ⟨by omega, by omega, data, g, ⟨hl, by omega, hh⟩, gl, gh, rfl⟩

theorem evalAcgen_ok {s : State} {S : Staged} (h : evalAcgen s = .ok S) :
    S = { out := expand (accessCode s.cfg s.lap), ac := some (accessWords (accessCode s.cfg s.lap)) } := by
  cases h; rfl

theorem evalAcmatch_ok {s : State} {S : Staged} (h : evalAcmatch s = .ok S) :
    ∃ bs, s.reads 72 bs ∧ S = { matchFlag := some (bs == expand (accessCode s.cfg s.lap)) } := by
  simp only [evalAcmatch, State.inOverrun_eq, decide_eq_true_eq] at h
  split_ifs at h with h1
  rcases Scan.onBits_cases (s.scanIn 72) (fun w =>
      .ok { matchFlag := some (w == expand (accessCode s.cfg s.lap)) }) with
    ⟨bs, hb, e⟩ | ⟨-, e⟩ | ⟨-, e⟩ <;> rw [e] at h <;> cases h
  obtain ⟨hl, hh⟩ := (s.scanIn_eq_bits _ _).1 hb
  exact ⟨bs, ⟨hl, by omega, hh⟩, rfl⟩

theorem evalUnwhiten_ok {s : State} {S : Staged} (h : evalUnwhiten s = .ok S) :
    s.len.toNat ≤ s.cfg.outSize ∧ ∃ bs, s.reads s.len.toNat bs ∧
      S = { out := unwhitenBits s.cfg.whitenSeq (whitenStart s.cfg s.clk.toNat s.skip.toNat) bs } := by
  simp only [evalUnwhiten, State.lenN, State.clkN, State.skipN, State.inOverrun_eq, State.outOverrun_eq,
    Bool.or_eq_true, decide_eq_true_eq] at h
  split_ifs at h with h1
  rcases Scan.onBits_cases (s.scanIn s.len.toNat) (fun bs =>
      .ok { out := unwhitenBits s.cfg.whitenSeq (whitenStart s.cfg s.clk.toNat s.skip.toNat) bs }) with
    ⟨bs, hb, e⟩ | ⟨-, e⟩ | ⟨-, e⟩ <;> rw [e] at h <;> cases h
  obtain ⟨hl, hh⟩ := (s.scanIn_eq_bits _ _).1 hb
  exact ⟨by omega, bs, ⟨hl, by omega, hh⟩, rfl⟩

theorem evalFec13_ok {s : State} {S : Staged} (h : evalFec13 s = .ok S) :
    s.len.toNat ≤ s.cfg.outSize ∧ ∃ bs, s.reads (3 * s.len.toNat) bs ∧ S = { out := fec13Bits bs } := by
  simp only [evalFec13, State.lenN, State.inOverrun_eq, State.outOverrun_eq, Bool.or_eq_true,
    decide_eq_true_eq] at h
  split_ifs at h with h1
  rcases Scan.onBits_cases (s.scanIn (3 * s.len.toNat)) (fun bs => .ok { out := fec13Bits bs }) with
    ⟨bs, hb, e⟩ | ⟨-, e⟩ | ⟨-, e⟩ <;> rw [e] at h <;> cases h
  obtain ⟨hl, hh⟩ := (s.scanIn_eq_bits _ _).1 hb
  exact ⟨by omega, bs, ⟨hl, by omega, hh⟩, rfl⟩

theorem evalFec23_ok {s : State} {S : Staged} (h : evalFec23 s = .ok S) :
    10 * s.blocks ≤ s.cfg.outSize ∧ ∃ bs d, s.reads (15 * s.blocks) bs ∧
      fec23Blocks s.cfg.g23 s.blocks bs = some d ∧
      S = { out := d, result := some (BitVec.ofNat 32 (10 * s.blocks)) } := by
  simp only [evalFec23_eq, State.inOverrun_eq, State.outOverrun_eq, Bool.or_eq_true, decide_eq_true_eq] at h
  split_ifs at h with h1
  rcases hs : s.scanIn (15 * s.blocks) with bs | _ | _ <;> rw [hs] at h <;> simp at h
  split at h
  · cases h
  · next d hd =>
    cases h
    obtain ⟨hl, hh⟩ := (s.scanIn_eq_bits _ _).1 hs
    exact ⟨by omega, bs, d, ⟨hl, by omega, hh⟩, hd, rfl⟩

theorem evalCrc16_ok {s : State} {S : Staged} (h : evalCrc16 s = .ok S) :
    ∃ bs, s.reads s.len.toNat bs ∧ S = { result := some ((crc16Bits s.uap bs).setWidth 32) } := by
  simp only [evalCrc16, State.lenN, State.inOverrun_eq, decide_eq_true_eq] at h
  split_ifs at h with h1
  rcases Scan.onBits_cases (s.scanIn s.len.toNat) (fun bs =>
      .ok { result := some ((crc16Bits s.uap bs).setWidth 32) }) with
    ⟨bs, hb, e⟩ | ⟨-, e⟩ | ⟨-, e⟩ <;> rw [e] at h <;> cases h
  obtain ⟨hl, hh⟩ := (s.scanIn_eq_bits _ _).1 hb
  exact ⟨bs, ⟨hl, by omega, hh⟩, rfl⟩

end Sys2Proof.Machine
end

