-- ==== Sys2Proof/Laws/Checks.lean ====
section
/-! SUPPORT. The checks of every command in one form: PARAM, then RANGE, then the scans of the ranges read, then the
computation (60_exceptions.md R63). -/

namespace Sys2Proof.Machine

/-- The computation of a command once its checks have passed, on the bits it read from IN and GEN. -/
def finish (i : Instr) (s : State) (bs g : List Bool) : Evaluation :=
  match i with
  | .nop => .ok {}
  | .a2h => .ok { result := some (packLsb bs) }
  | .h2a => .ok { out := unpackLsb s.value s.len.toNat }
  | .lfsr => .ok { out := lfsrDiv bs s.len.toNat s.klen.toNat g }
  | .acgen =>
    .ok { out := expand (accessCode s.cfg s.lap), ac := some (accessWords (accessCode s.cfg s.lap)) }
  | .acmatch => .ok { matchFlag := some (bs == expand (accessCode s.cfg s.lap)) }
  | .unwhiten =>
    .ok { out := unwhitenBits s.cfg.whitenSeq (whitenStart s.cfg s.clk.toNat s.skip.toNat) bs }
  | .fec13 => .ok { out := fec13Bits bs }
  | .fec23 =>
    match fec23Blocks s.cfg.g23 s.blocks bs with
    | none => .err .uncorrectable
    | some d => .ok { out := d, result := some (BitVec.ofNat 32 (10 * s.blocks)) }
  | .crc16 => .ok { result := some ((crc16Bits s.uap bs).setWidth 32) }

/-- What the computation can give: a success, or, for FEC23 only, UNCORRECTABLE. -/
theorem finish_cases (i : Instr) (s : State) (bs g : List Bool) :
    (∃ S, finish i s bs g = .ok S) ∨ (i = .fec23 ∧ finish i s bs g = .err .uncorrectable) := by
  cases i <;> simp [finish]
  split <;> simp

@[simp] theorem scanIn_zero (s : State) : s.scanIn 0 = .bits [] := rfl

@[simp] theorem scanGen_zero (s : State) : s.scanGen 0 = .bits [] := rfl

/-- PARAM is checked first (60_exceptions.md R63, R64). -/
theorem evalOf_param {i : Instr} {s : State} (h : paramTable i s) : evalOf i s = .err .param := by
  cases i <;> simp only [paramTable] at h <;>
    simp [evalOf, evalA2h, evalH2a, evalLfsr, State.lenN, State.klenN, h]

/-- RANGE is checked next (60_exceptions.md R63, R65). -/
theorem evalOf_range {i : Instr} {s : State} (hp : ¬paramTable i s) (h : rangeTable i s) :
    evalOf i s = .err .range := by
  cases i <;> simp only [paramTable, rangeTable] at hp h <;>
    simp [evalOf, evalA2h, evalLfsr, evalAcmatch, evalUnwhiten, evalFec13, evalFec23_eq, evalCrc16, State.lenN,
      State.klenN, hp, h]

/-- Past PARAM and RANGE, a command scans its ranges and then computes (60_exceptions.md R63, R66). -/
theorem evalOf_scan {i : Instr} {s : State} (hp : ¬paramTable i s) (hr : ¬rangeTable i s) :
    evalOf i s = (s.scanIn (checkedIn i s)).onBits fun bs =>
      (s.scanGen (checkedGen i s)).onBits fun g => finish i s bs g := by
  cases i <;> simp only [paramTable, rangeTable, not_or] at hp hr <;>
    simp [evalOf, evalNop, evalA2h, evalH2a, evalLfsr, evalAcgen, evalAcmatch, evalUnwhiten, evalFec13, evalFec23_eq,
      evalCrc16, State.lenN, State.klenN, State.clkN, State.skipN, hp, hr, checkedIn, checkedGen, finish]
  all_goals rfl

/-- A command past its checks on ranges that hold bits runs its computation. -/
theorem evalOf_finish {i : Instr} {s : State} {bs g : List Bool} (hp : ¬paramTable i s) (hr : ¬rangeTable i s)
    (hb : s.scanIn (checkedIn i s) = .bits bs) (hg : s.scanGen (checkedGen i s) = .bits g) :
    evalOf i s = finish i s bs g := by
  rw [evalOf_scan hp hr, hb, Scan.onBits_bits, hg, Scan.onBits_bits]

/-- An element that is a bit, as the scans see it. -/
theorem isBit_iff (e : Option Byte) : isBit e ↔ ∃ v, e = some (bitByte v) := by
  constructor
  · rintro (rfl | rfl)
    · exact ⟨false, rfl⟩
    · exact ⟨true, rfl⟩
  · rintro ⟨v, rfl⟩
    cases v
    · exact .inl rfl
    · exact .inr rfl

/-- A scan of IN stops at an unwritten element (10_state.md R29). -/
theorem scanIn_eq_unwritten (s : State) (n : Nat) :
    s.scanIn n = .unwritten ↔ ∃ j < n, s.inElem (s.offset.toNat + j) = none ∧
      ∀ k < j, isBit (s.inElem (s.offset.toNat + k)) := by
  simp only [State.scanIn, Memory.scan_eq_unwritten, isBit_iff, State.inElem_eq, State.offsetN, Nat.add_assoc]

/-- A scan of GEN stops at an unwritten element (10_state.md R29). -/
theorem scanGen_eq_unwritten (s : State) (n : Nat) :
    s.scanGen n = .unwritten ↔ ∃ j < n, s.genElem j = none ∧ ∀ k < j, isBit (s.genElem k) := by
  simp only [State.scanGen, Memory.scan_eq_unwritten, isBit_iff, State.genElem_eq]

/-- A scan of IN meets a contract violation (60_exceptions.md R66). -/
theorem scanIn_eq_contract (s : State) (n : Nat) :
    s.scanIn n = .contract ↔ ∃ j < n, (∃ b, s.inElem (s.offset.toNat + j) = some b ∧ b ≠ 0 ∧ b ≠ 1) ∧
      ∀ k < j, isBit (s.inElem (s.offset.toNat + k)) := by
  simp only [State.scanIn, Memory.scan_eq_contract, isBit_iff, State.inElem_eq, State.offsetN, Nat.add_assoc]

/-- A scan of GEN meets a contract violation (60_exceptions.md R66). -/
theorem scanGen_eq_contract (s : State) (n : Nat) :
    s.scanGen n = .contract ↔ ∃ j < n, (∃ b, s.genElem j = some b ∧ b ≠ 0 ∧ b ≠ 1) ∧
      ∀ k < j, isBit (s.genElem k) := by
  simp only [State.scanGen, Memory.scan_eq_contract, isBit_iff, State.genElem_eq]

/-- A scan of IN gives bits exactly when every element of the range is one. -/
theorem scanIn_bits_iff (s : State) (n : Nat) :
    (∃ bs, s.scanIn n = .bits bs) ↔ ∀ k < n, isBit (s.inElem (s.offset.toNat + k)) := by
  constructor
  · rintro ⟨bs, h⟩ k hk
    obtain ⟨hl, hh⟩ := (s.scanIn_eq_bits n bs).1 h
    have e := hh k (by omega)
    rw [isBit_iff, e, List.getElem?_eq_getElem (by omega)]
    exact ⟨_, rfl⟩
  · intro h
    cases hs : s.scanIn n with
    | bits bs => exact ⟨bs, rfl⟩
    | contract =>
      obtain ⟨j, hj, ⟨b, hb, h0, h1⟩, -⟩ := (scanIn_eq_contract s n).1 hs
      rcases h j hj with e | e <;> rw [hb] at e <;> simp_all
    | unwritten =>
      obtain ⟨j, hj, hb, -⟩ := (scanIn_eq_unwritten s n).1 hs
      rcases h j hj with e | e <;> rw [hb] at e <;> cases e

/-- A scan of GEN gives bits exactly when every element of the range is one. -/
theorem scanGen_bits_iff (s : State) (n : Nat) :
    (∃ bs, s.scanGen n = .bits bs) ↔ ∀ k < n, isBit (s.genElem k) := by
  constructor
  · rintro ⟨bs, h⟩ k hk
    obtain ⟨hl, hh⟩ := (s.scanGen_eq_bits n bs).1 h
    have e := hh k (by omega)
    rw [isBit_iff, e, List.getElem?_eq_getElem (by omega)]
    exact ⟨_, rfl⟩
  · intro h
    cases hs : s.scanGen n with
    | bits bs => exact ⟨bs, rfl⟩
    | contract =>
      obtain ⟨j, hj, ⟨b, hb, h0, h1⟩, -⟩ := (scanGen_eq_contract s n).1 hs
      rcases h j hj with e | e <;> rw [hb] at e <;> simp_all
    | unwritten =>
      obtain ⟨j, hj, hb, -⟩ := (scanGen_eq_unwritten s n).1 hs
      rcases h j hj with e | e <;> rw [hb] at e <;> cases e

/-- A command fails with a code exactly when its evaluation is that error. -/
theorem failsWith_iff (i : Instr) (s : State) (c : ErrorCode) : FailsWith i s c.code ↔ evalOf i s = .err c := by
  unfold FailsWith
  rw [exec_eq_commit]
  constructor
  · rintro ⟨t, h, he, hc⟩
    rcases commit_next h with ⟨S, -, rfl⟩ | ⟨d, hd, rfl⟩
    · simp at he
    · rw [hd]
      simp at hc
      congr 1
      cases c <;> cases d <;> first | rfl | (exfalso; revert hc; decide)
  · intro h
    rw [h]
    exact ⟨_, rfl, rfl, rfl⟩

end Sys2Proof.Machine
end

