-- ==== Sys2Proof/Laws/AccessCode.lean ====
section
/-! SUPPORT. The access code: its length, and its bits in terms of its parts (42_access_code.md R100, R101). -/

namespace Sys2Proof.Machine

theorem xorPn_length (pn f : List Byte) : (xorPn pn f).length = min f.length pn.length := by simp [xorPn]

@[simp] theorem packLap_length (sel : TrailerSel) (lap : BitVec 24) : (packLap sel lap).length = 9 := rfl

theorem repack_length (cw : List Bool) (f : List Byte) (h : f.length = 9) : (repack cw f).length = 9 := by
  simp [repack, h]

theorem addPreamble_length (f : List Byte) : (addPreamble f).length = f.length := by cases f <;> rfl

/-- The access code has 9 bytes (42_access_code.md R100). -/
theorem accessCode_length (c : Config) (lap : BitVec 24) (h : c.pn.length = 9) : (accessCode c lap).length = 9 := by
  simp only [accessCode, addPreamble_length, xorPn_length]
  rw [repack_length _ _ (by simp [xorPn_length, h])]
  simp [h]

theorem expand_accessCode_length (c : Config) (lap : BitVec 24) (h : c.pn.length = 9) :
    (expand (accessCode c lap)).length = 72 := by rw [expand_length, accessCode_length c lap h]

theorem Config.pn_length {c : Config} (h : c.wf = true) : c.pn.length = 9 := by
  simp only [Config.wf, Config.pnOk, Bool.and_eq_true, beq_iff_eq] at h
  exact h.1.1.1.2

/-- The sizes of a well-formed configuration (00_scope.md R6). -/
theorem Config.sizes {c : Config} (h : c.wf = true) :
    72 ≤ c.inSize ∧ c.inSize ≤ 4096 ∧ 72 ≤ c.outSize ∧ c.outSize ≤ 4096 ∧ 1 ≤ c.genSize ∧ c.genSize ≤ 64 := by
  simp [Config.wf, Config.inSizeOk, Config.outSizeOk, Config.genSizeOk] at h
  omega

/-- `Expand`, element by element (42_access_code.md R101). -/
theorem expand_getD (f : List Byte) (c t : Nat) (ht : t < 8) :
    (expand f).getD (8 * c + t) false = (f.getD c 0).getLsbD (7 - t) := by
  induction f generalizing c with
  | nil => simp [expand]
  | cons b f ih =>
    have e : expand (b :: f) = msbBits b ++ expand f := by simp [expand]
    rw [e, List.getD_eq_getElem?_getD, List.getElem?_append]
    cases c with
    | zero => simp [ht, msbBits]
    | succ c =>
      rw [if_neg (by simp; omega), msbBits_length, show 8 * (c + 1) + t - 8 = 8 * c + t by omega]
      simpa using ih c

end Sys2Proof.Machine
end

