-- ==== Sys2Proof/Laws/Decode.lean ====
section
/-! SUPPORT. The decoder and the encoder, one fact each. -/

namespace Sys2Proof

/-- The opcode map read back (30_encoding.md R163). -/
theorem instrOfOpcode_eq_some (op : BitVec 4) (i : Instr) : instrOfOpcode op = some i ↔ op = i.opcode := by
  cases i <;> revert op <;> decide

theorem instrOfOpcode_eq_none (op : BitVec 4) : instrOfOpcode op = none ↔ 10 ≤ op.toNat := by
  revert op; decide

theorem rsvField_eq_zero (w : Word) : rsvField w = 0 ↔ w.toNat < 16 := by
  unfold rsvField
  rw [← BitVec.toNat_inj]
  simp [Nat.shiftRight_eq_div_pow]
  omega

theorem opcodeField_toNat (w : Word) : (opcodeField w).toNat = w.toNat % 16 := by
  simp [opcodeField]

theorem encode_toNat (i : Instr) : (encode i).toNat = i.opcode.toNat := by cases i <;> decide

theorem opcode_lt (i : Instr) : i.opcode.toNat < 10 := by cases i <;> decide

/-- A word decodes to a command exactly when it is that command's word. -/
theorem decodeWord_eq_ok (w : Word) (i : Instr) : decodeWord w = .ok i ↔ w = encode i := by
  unfold decodeWord
  constructor
  · intro h
    split_ifs at h with h0
    split at h <;> cases h
    next h1 =>
    rw [instrOfOpcode_eq_some] at h1
    rw [rsvField_eq_zero] at h0
    have := opcodeField_toNat w
    rw [← BitVec.toNat_inj, encode_toNat, ← h1, this]
    omega
  · rintro rfl
    cases i <;> decide

/-- A word decodes to no command exactly when its value is 10 or more (30_encoding.md R161). -/
theorem decodeWord_eq_error (w : Word) : (∃ e, decodeWord w = .error e) ↔ 10 ≤ w.toNat := by
  unfold decodeWord
  have h1 := opcodeField_toNat w
  have h2 := instrOfOpcode_eq_none (opcodeField w)
  have h3 := rsvField_eq_zero w
  split_ifs with h0
  · rw [h3] at h0
    rw [h1, Nat.mod_eq_of_lt h0] at h2
    rw [← h2]
    split <;> simp_all
  · simp; rw [h3] at h0; omega

end Sys2Proof
end

