-- ==== Sys2Proof/Laws/Fec.lean ====
section
/-! SUPPORT. The rate-2/3 decoder block by block (44_fec.md R132). -/

namespace Sys2Proof.Machine

theorem rxBlock_zero (bs : List Bool) : rxBlock bs 0 = bs.take 15 := by simp [rxBlock]

theorem rxBlock_drop (bs : List Bool) (b : Nat) : rxBlock (bs.drop 15) b = rxBlock bs (b + 1) := by
  simp [rxBlock, List.drop_drop, Nat.mul_add, Nat.add_comm]

theorem rxBlock_length {bs : List Bool} {n b : Nat} (h : bs.length = 15 * n) (hb : b < n) :
    (rxBlock bs b).length = 15 := by
  simp [rxBlock]; omega

theorem rxBlock_getD {bs : List Bool} {b i : Nat} (hi : i < 15) :
    (rxBlock bs b).getD i false = bs.getD (15 * b + i) false := by
  simp [rxBlock, hi]

/-- The decoder's syndrome is the claims' syndrome. -/
theorem syndromeOf_eq {g23 block : List Bool} (h : block.length = 15) :
    xorBits (lfsrDiv (block.take 10) 15 10 g23) ((block.drop 10).take 5) = syndromeOf g23 block := by
  unfold xorBits syndromeOf
  rw [List.take_of_length_le (l := block.drop 10) (by simp [h])]

theorem synLookup_eq_none (g23 s : List Bool) : synLookup g23 s = none ↔ ∀ j < 10, synEntry g23 j ≠ s := by
  simp [synLookup]

theorem synLookup_eq_some (g23 s : List Bool) (j : Nat) :
    synLookup g23 s = some j ↔ j < 10 ∧ synEntry g23 j = s ∧ ∀ k < j, synEntry g23 k ≠ s := by
  unfold synLookup
  rw [List.find?_eq_some_iff_getElem]
  simp only [beq_iff_eq, List.length_range, List.getElem_range]
  constructor
  · rintro ⟨h1, i, hi, rfl, h2⟩
    exact ⟨hi, h1, fun k hk => by simpa using h2 k hk⟩
  · rintro ⟨h1, h2, h3⟩
    exact ⟨h2, j, h1, rfl, fun k hk => by simpa using h3 k hk⟩

/-- A block is uncorrectable exactly when its syndrome has two or more ones and is no SYN entry (60_exceptions.md
R67). -/
theorem fec23Block_eq_none {g23 block : List Bool} (h : block.length = 15) :
    fec23Block g23 block = none ↔
      2 ≤ (syndromeOf g23 block).count true ∧ ∀ j < 10, synEntry g23 j ≠ syndromeOf g23 block := by
  simp only [fec23Block, syndromeOf_eq h, popcount]
  split_ifs with h2
  · simp [h2, synLookup_eq_none]
  · simp [h2]

/-- What decoding a block gives, bit by bit. -/
theorem fec23Block_eq_some {g23 block d : List Bool} (h : block.length = 15) (hd : fec23Block g23 block = some d) :
    ∀ i < 10, d.getD i false = (block.getD i false ^^
      decide (2 ≤ (syndromeOf g23 block).count true ∧ synEntry g23 i = syndromeOf g23 block ∧
        ∀ j < i, synEntry g23 j ≠ syndromeOf g23 block)) := by
  simp only [fec23Block, syndromeOf_eq h, popcount] at hd
  intro i hi
  have ht : (block.take 10).getD i false = block.getD i false := by simp [hi]
  split_ifs at hd with h2
  · simp only [Option.map_eq_some_iff] at hd
    obtain ⟨j, hj, rfl⟩ := hd
    rw [synLookup_eq_some] at hj
    obtain ⟨hj1, hj2, hj3⟩ := hj
    by_cases e : j = i
    · subst e
      have : j < (block.take 10).length := by simp [h]; omega
      rw [← ht]
      simp only [flipBit, List.getD_eq_getElem?_getD, List.getElem?_modify]
      rw [List.getElem?_eq_getElem this]
      rw [decide_eq_true ⟨h2, hj2, hj3⟩]
      simp
    · have : ¬(synEntry g23 i = syndromeOf g23 block ∧ ∀ k < i, synEntry g23 k ≠ syndromeOf g23 block) := by
        rintro ⟨h3, h4⟩
        rcases Nat.lt_or_gt_of_ne e with hlt | hlt
        · exact h4 j hlt hj2
        · exact hj3 i hlt h3
      rw [← ht]
      simp only [flipBit, List.getD_eq_getElem?_getD, List.getElem?_modify, e, if_false, this, and_false,
        decide_false, Bool.xor_false]
      simp
  · simp only [Option.some.injEq] at hd
    subst hd
    rw [ht]
    simp [h2]

/-- The command's blocks decode exactly when each does. -/
theorem fec23Blocks_eq_none (g23 : List Bool) (n : Nat) (bs : List Bool) :
    fec23Blocks g23 n bs = none ↔ ∃ b < n, fec23Block g23 (rxBlock bs b) = none := by
  induction n generalizing bs with
  | zero => simp [fec23Blocks]
  | succ n ih =>
    rw [fec23Blocks]
    constructor
    · intro h
      split at h
      · next h0 => exact ⟨0, by omega, by rwa [rxBlock_zero]⟩
      · rw [Option.map_eq_none_iff, ih] at h
        obtain ⟨b, hb, h⟩ := h
        exact ⟨b + 1, by omega, by rwa [← rxBlock_drop]⟩
    · rintro ⟨b, hb, h⟩
      cases b with
      | zero => rw [rxBlock_zero] at h; simp [h]
      | succ b =>
        split
        · rfl
        · rw [Option.map_eq_none_iff, ih]
          exact ⟨b, by omega, by rwa [rxBlock_drop]⟩

/-- The output of the command's blocks, block by block. -/
theorem fec23Blocks_getD {g23 : List Bool} {n : Nat} {bs d : List Bool} (h : fec23Blocks g23 n bs = some d)
    (hl : bs.length = 15 * n) {b : Nat} (hb : b < n) :
    ∃ db, fec23Block g23 (rxBlock bs b) = some db ∧ ∀ i < 10, d.getD (10 * b + i) false = db.getD i false := by
  induction n generalizing bs d b with
  | zero => omega
  | succ n ih =>
    rw [fec23Blocks] at h
    split at h
    · cases h
    next d0 h0 =>
    simp only [Option.map_eq_some_iff] at h
    obtain ⟨d1, h1, rfl⟩ := h
    have e0 := fec23Block_length h0 (by simp; omega)
    cases b with
    | zero =>
      refine ⟨d0, by rwa [rxBlock_zero], fun i hi => ?_⟩
      simp [List.getElem?_append, e0, hi]
    | succ b =>
      obtain ⟨db, hdb, he⟩ := ih h1 (by simp; omega) (by omega : b < n)
      refine ⟨db, by rwa [← rxBlock_drop], fun i hi => ?_⟩
      rw [← he i hi]
      simp only [List.getD_eq_getElem?_getD, List.getElem?_append, e0]
      rw [if_neg (by omega), show 10 * (b + 1) + i - 10 = 10 * b + i by omega]

end Sys2Proof.Machine
end

