-- ==== Sys2Proof/Laws/HostBus.lean ====
section
/-! SUPPORT. The host bus: routing, the register map, and everything a host access can do. -/

namespace Sys2Proof.Machine

/-- An address at offset `a` of the window reaches that offset (20_memory.md R44). -/
theorem windowOffset_base_add (c : Config) {a : Nat} (h : a < 0x4000) : windowOffset c (c.base + a) = some a := by
  simp [windowOffset, windowSize, h]

theorem windowOffset_eq_some {c : Config} {addr a : Nat} (h : windowOffset c addr = some a) :
    addr = c.base + a ∧ a < 0x4000 := by
  unfold windowOffset windowSize at h
  split_ifs at h with h1
  cases h
  omega

theorem windowOffset_eq_none {c : Config} {addr : Nat} :
    windowOffset c addr = none ↔ addr < c.base ∨ c.base + 0x4000 ≤ addr := by
  unfold windowOffset windowSize
  split_ifs <;> simp <;> omega

/-- The register map read back (10_state.md R19). -/
theorem regAt_byteOffset (r : Reg) : regAt r.byteOffset = some r := by cases r <;> rfl

theorem byteOffset_of_regAt {a : Nat} {r : Reg} (h : regAt a = some r) : a = r.byteOffset := by
  unfold regAt at h; split at h <;> cases h <;> rfl

theorem regAt_reserved {a : Nat} (h : 0x040 ≤ a) : regAt a = none := by
  unfold regAt; split <;> first | rfl | omega

/-- The legal accesses, spelled out (20_memory.md R45). -/
theorem legalAccess_iff (a n : Nat) :
    legalAccess a n = true ↔
      (a < 0x1000 ∧ n = 4 ∧ a % 4 = 0) ∨ (0x1000 ≤ a ∧ (n = 1 ∨ n = 2 ∨ n = 4) ∧ a % n = 0) := by
  unfold legalAccess regionOf inBase outBase genBase
  split_ifs <;> simp <;> omega

/-- A write that takes effect only while Idle either does or leaves the state. -/
theorem whenIdle_idle {s t : State} (h : s.pend = .idle) : whenIdle s t = t := by simp [whenIdle, h, Pend.isBusy]

theorem whenIdle_busy {s t : State} {w : Word} (h : s.pend = .busy w) : whenIdle s t = s := by
  simp [whenIdle, h, Pend.isBusy]

theorem whenIdle_cases (s t : State) : (s.pend = .idle ∧ whenIdle s t = t) ∨ whenIdle s t = s := by
  cases h : s.pend with
  | idle => exact .inl ⟨rfl, whenIdle_idle h⟩
  | busy w => exact .inr (whenIdle_busy h)

/-- Everything a host write of a register can do (20_memory.md R47). -/
theorem writeReg_cases (r : Reg) (v : Word) (s : State) :
    writeReg r v s = s ∨
    (r = .ctrl ∧ v.getLsbD 1 = true ∧ writeReg r v s = softReset s) ∨
    (r = .ctrl ∧ v.getLsbD 1 = false ∧ writeReg r v s = { s with irqEn := v.getLsbD 0 }) ∨
    (s.pend = .idle ∧
      ((r = .status ∧ writeReg r v s = { s with status := s.status.writeOneToClear v }) ∨
       (r = .cmd ∧ writeReg r v s = issue v s) ∨
       (r = .len ∧ writeReg r v s = { s with len := v.setWidth 16 }) ∨
       (r = .offset ∧ writeReg r v s = { s with offset := v.setWidth 16 }) ∨
       (r = .klen ∧ writeReg r v s = { s with klen := v.setWidth 16 }) ∨
       (r = .lap ∧ writeReg r v s = { s with lap := v.setWidth 24 }) ∨
       (r = .uap ∧ writeReg r v s = { s with uap := v.setWidth 8 }) ∨
       (r = .clk ∧ writeReg r v s = { s with clk := v }) ∨
       (r = .skip ∧ writeReg r v s = { s with skip := v.setWidth 16 }) ∨
       (r = .value ∧ writeReg r v s = { s with value := v }))) := by
  have hc : ∀ w : Bool, v.getLsbD 1 = w →
      writeReg .ctrl v s = if w then softReset s else { s with irqEn := v.getLsbD 0 } := by
    intro w hw; subst hw; rfl
  cases r with
  | ctrl =>
    cases hv : v.getLsbD 1 with
    | false => exact .inr (.inr (.inl ⟨rfl, rfl, hc false hv⟩))
    | true => exact .inr (.inl ⟨rfl, rfl, hc true hv⟩)
  | id | result | ac0 | ac1 | ac2 => exact .inl rfl
  | _ =>
    cases hp : s.pend.isBusy with
    | true => exact .inl (by simp only [writeReg, whenIdle, hp, if_true])
    | false =>
      refine .inr (.inr (.inr ⟨by revert hp; cases s.pend <;> simp [Pend.isBusy], ?_⟩))
      simp only [writeReg, whenIdle, hp, Bool.false_eq_true, if_false, true_and, reduceCtorEq, false_and, or_false,
        false_or]

/-- A write of a buffer byte changes at most that element, and only inside IN or GEN (20_memory.md R47, R49). -/
theorem writeElem_cases (c : Config) (m : Memory) (x : Nat) (b : Byte) :
    writeElem c m x b = m ∨
      (((inBase ≤ x ∧ x < outBase ∧ x - inBase < c.inSize) ∨ (genBase ≤ x ∧ x - genBase < c.genSize)) ∧
        writeElem c m x b = m.write x b) := by
  unfold writeElem regionOf
  split_ifs <;> simp_all

/-- What a read gives after a host write of one buffer byte. -/
theorem writeElem_read (c : Config) (m : Memory) (x y : Nat) (b : Byte) :
    (writeElem c m x b).read y =
      if y = x ∧ ((inBase ≤ x ∧ x < outBase ∧ x - inBase < c.inSize) ∨ (genBase ≤ x ∧ x - genBase < c.genSize))
      then some b else m.read y := by
  unfold writeElem regionOf
  have h1 : inBase = 0x1000 := rfl
  have h2 : outBase = 0x2000 := rfl
  have h3 : genBase = 0x3000 := rfl
  split_ifs <;> simp_all [Memory.read_write] <;> omega

/-- A property of memories that every single-element write inside IN or GEN keeps is kept by a host write. -/
theorem writeElems_induction {c : Config} {P : Memory → Prop}
    (hw : ∀ m x b, ((inBase ≤ x ∧ x < outBase ∧ x - inBase < c.inSize) ∨ (genBase ≤ x ∧ x - genBase < c.genSize)) →
      P m → P (m.write x b))
    (n : Nat) {m : Memory} (x : Nat) (v : Word) (h : P m) : P (writeElems c m x n v) := by
  induction n generalizing m x v with
  | zero => exact h
  | succ n ih =>
    refine ih _ _ ?_
    rcases writeElem_cases c m x (v.setWidth 8) with e | ⟨hx, e⟩ <;> rw [e]
    · exact h
    · exact hw _ _ _ hx h

/-- Everything a legal host write can do: what a register write does, or, while Idle, a buffer write. -/
theorem memWrite_cases (s : State) (a n : Nat) (v : Word) :
    memWrite s a n v = s ∨
    (∃ r, a = r.byteOffset ∧ memWrite s a n v = writeReg r v s) ∨
    (s.pend = .idle ∧ inBase ≤ a ∧ memWrite s a n v = { s with mem := writeElems s.cfg s.mem a n v }) := by
  unfold memWrite
  split
  · split
    · next r hr => exact .inr (.inl ⟨r, byteOffset_of_regAt hr, rfl⟩)
    · exact .inl rfl
  · next hr =>
    rcases whenIdle_cases s { s with mem := writeElems s.cfg s.mem a n v } with ⟨hp, e⟩ | e
    · refine .inr (.inr ⟨hp, ?_, e⟩)
      by_contra hc
      exact hr (by simp [regionOf, Nat.lt_of_not_le hc])
    · exact .inl e

/-- A byte read has a value exactly when it is no buffer element without its mark (10_state.md R29, 20_memory.md R46). -/
theorem readByte_isSome (s : State) (x : Nat) :
    (readByte s x).isSome = true ↔ (isElement s.cfg x = true → (s.mem.read x).isSome = true) := by
  cases hr : regionOf x <;> simp only [readByte, isElement, windowByte, hr, decide_eq_true_eq] <;>
    (try split_ifs with h) <;> simp_all

/-- A read of several bytes has a value exactly when each of them has one (20_memory.md R46). -/
theorem memRead_isSome (s : State) (a n : Nat) :
    (memRead s a n).isSome = true ↔ ∀ j < n, (readByte s (a + j)).isSome = true := by
  induction n generalizing a with
  | zero => simp [memRead]
  | succ n ih =>
    have e : ∀ j, a + (j + 1) = a + 1 + j := fun j => by omega
    rw [Nat.forall_lt_succ_left, Nat.add_zero,
      show (∀ m < n, (readByte s (a + (m + 1))).isSome = true) ↔ ∀ j < n, (readByte s (a + 1 + j)).isSome = true from
        forall_congr' fun j => by rw [e], ← ih]
    cases h1 : readByte s a <;> cases h2 : memRead s (a + 1) n <;> simp [memRead, h1, h2]

/-- A legal host write while a command is pending, other than a soft reset, changes at most IRQ_EN, and that only at CTRL
(70_reset_and_hazards.md R192, R194). -/
theorem memWrite_busy {s : State} {w : Word} (hp : s.pend = .busy w) (a n : Nat) (v : Word)
    (hr : a = 0x004 → v.getLsbD 1 = false) :
    memWrite s a n v = s ∨ (a = 0x004 ∧ memWrite s a n v = { s with irqEn := v.getLsbD 0 }) := by
  rcases memWrite_cases s a n v with e | ⟨r, rfl, e⟩ | ⟨h, -, -⟩
  · exact .inl e
  · rw [e]
    rcases writeReg_cases r v s with e | ⟨rfl, hv, -⟩ | ⟨rfl, -, e⟩ | ⟨h, -⟩
    · exact .inl e
    · rw [hr rfl] at hv; cases hv
    · exact .inr ⟨rfl, e⟩
    · rw [hp] at h; cases h
  · rw [hp] at h; cases h

/-- Everything a host access can answer with a next state. -/
theorem hostStep_next {h : HostAccess} {s t : State} (hs : hostStep h s = .next t) :
    t = s ∨ (∃ v, t = { s with readLog := v :: s.readLog }) ∨
      (∃ a n v, h = .write (s.cfg.base + a) n v ∧ legalAccess a n = true ∧ t = memWrite s a n v) := by
  cases h with
  | read addr n =>
    simp only [hostStep, hostRead] at hs
    split at hs
    · cases hs; exact .inl rfl
    · split_ifs at hs
      split at hs <;> cases hs
      exact .inr (.inl ⟨_, rfl⟩)
  | write addr n v =>
    simp only [hostStep] at hs
    split at hs
    · cases hs; exact .inl rfl
    · next a ha =>
      split_ifs at hs with hl
      cases hs
      exact .inr (.inr ⟨a, n, v, by rw [(windowOffset_eq_some ha).1], hl, rfl⟩)

end Sys2Proof.Machine
end

