-- ==== Sys2Proof/Laws/PerInstr.lean ====
section
/-! SUPPORT. The per-instruction family `CommandWord`: every command's word is legal, keeps its reserved field zero, and
its bytes are the four the bus carries (30_encoding.md R160, R161). -/

namespace Sys2Proof.Laws.CommandWord

/-- A command is well-formed, its word is legal, and it takes exactly four bytes. -/
def Statement (i : Instr) : Prop :=
  i.wf = true ∧ wordOk (encode i) = true ∧ (encodeBytes i).length = 4

theorem nop : Statement .nop := by unfold Statement; decide
theorem a2h : Statement .a2h := by unfold Statement; decide
theorem h2a : Statement .h2a := by unfold Statement; decide
theorem lfsr : Statement .lfsr := by unfold Statement; decide
theorem acgen : Statement .acgen := by unfold Statement; decide
theorem acmatch : Statement .acmatch := by unfold Statement; decide
theorem unwhiten : Statement .unwhiten := by unfold Statement; decide
theorem fec13 : Statement .fec13 := by unfold Statement; decide
theorem fec23 : Statement .fec23 := by unfold Statement; decide
theorem crc16 : Statement .crc16 := by unfold Statement; decide

end Sys2Proof.Laws.CommandWord
end

