-- ==== Sys2Proof/Laws/Step.lean ====
section
/-! SUPPORT. Everything one step can do. -/

namespace Sys2Proof.Machine

theorem step_empty {s : State} (h : s.inbox = []) : step s = engineStep s := by simp [step, h]

theorem step_event {s : State} {e : Event} {rest : List Event} (h : s.inbox = e :: rest) :
    step s = eventStep e { s with inbox := rest } := by simp [step, h]

@[simp] theorem step_inbox_cons (s : State) (e : Event) (rest : List Event) :
    step { s with inbox := e :: rest } = eventStep e { s with inbox := rest } := rfl

/-- On the engine's turn the step is the engine's, with the turn taken from the inbox. -/
theorem step_engineTurn {s : State} (h : EngineTurn s) : step s = engineStep { s with inbox := s.inbox.tail } := by
  rcases h with h | h
  · rw [step_empty h, h]
    obtain ⟨⟩ := s
    cases h; rfl
  · cases hi : s.inbox with
    | nil => simp [hi] at h
    | cons e rest =>
      simp [hi] at h
      subst h
      rw [step_event hi]
      rfl

theorem engineStep_idle {s : State} (h : s.pend = .idle) : engineStep s = .next s := by simp [engineStep, h]

theorem engineStep_ok {s : State} {w : Word} {i : Instr} (h : s.pend = .busy w) (hd : decodeWord w = .ok i) :
    engineStep s = exec i s := by simp [engineStep, h, hd]

theorem engineStep_error {s : State} {w : Word} {e : DecodeError} (h : s.pend = .busy w)
    (hd : decodeWord w = .error e) : engineStep s = .next (s.failed 1) := by
  simp [engineStep, h, hd, commitErr_eq_failed, ErrorCode.code]

/-- Everything the engine's turn can answer with a next state: nothing while Idle, or the commit of what the pending
word's evaluation gives. -/
theorem engineStep_next {s t : State} (h : engineStep s = .next t) :
    (s.pend = .idle ∧ t = s) ∨
    (∃ w i S, s.pend = .busy w ∧ decodeWord w = .ok i ∧ evalOf i s = .ok S ∧ t = commitOk S s) ∨
    (∃ w c, s.pend = .busy w ∧ t = commitErr c s) := by
  unfold engineStep at h
  split at h
  · next hp => cases h; exact .inl ⟨hp, rfl⟩
  · next w hp =>
    split at h
    · next i hd =>
      rcases exec_next h with ⟨S, hS, rfl⟩ | ⟨c, -, rfl⟩
      · exact .inr (.inl ⟨w, i, S, hp, hd, hS, rfl⟩)
      · exact .inr (.inr ⟨w, c, hp, rfl⟩)
    · rw [commit_err] at h
      cases h
      exact .inr (.inr ⟨w, .illegal, hp, rfl⟩)

/-- Everything a step can answer with a next state. -/
theorem step_next {s t : State} (h : step s = .next t) :
    (EngineTurn s ∧ engineStep { s with inbox := s.inbox.tail } = .next t) ∨
    (∃ a rest, s.inbox = .access a :: rest ∧ hostStep a { s with inbox := rest } = .next t) ∨
    (∃ rest, s.inbox = .hardReset :: rest ∧ t = hardReset { s with inbox := rest }) := by
  by_cases he : EngineTurn s
  · exact .inl ⟨he, step_engineTurn he ▸ h⟩
  · cases hi : s.inbox with
    | nil => exact absurd (.inl hi) he
    | cons e rest =>
      rw [step_event hi] at h
      cases e with
      | access a => exact .inr (.inl ⟨a, rest, rfl, h⟩)
      | engine => exact absurd (.inr (by simp [hi])) he
      | hardReset => exact .inr (.inr ⟨rest, rfl, by simpa [eventStep, eq_comm] using h⟩)

/-- A step with a host write at an offset of the window. -/
theorem step_writeEvent (s : State) {a : Nat} (n : Nat) (v : Word) (rest : List Event) (ha : a < 0x4000) :
    step { s with inbox := writeEvent s.cfg a n v :: rest } =
      if legalAccess a n then .next (memWrite { s with inbox := rest } a n v) else .fault .busError := by
  simp [writeEvent, eventStep, hostStep, windowOffset_base_add s.cfg ha]

/-- A step with a host read at an offset of the window. -/
theorem step_readEvent (s : State) {a : Nat} (n : Nat) (rest : List Event) (ha : a < 0x4000) :
    step { s with inbox := readEvent s.cfg a n :: rest } =
      if legalAccess a n then hostRead { s with inbox := rest } a n else .fault .busError := by
  simp [readEvent, eventStep, hostStep, windowOffset_base_add s.cfg ha]

/-- A legal write of a register. -/
theorem memWrite_reg (s : State) (r : Reg) (v : Word) : memWrite s r.byteOffset 4 v = writeReg r v s := by
  have h : regionOf r.byteOffset = .registers := by cases r <;> rfl
  simp [memWrite, h, regAt_byteOffset]

/-- A step with a host write of a register. -/
theorem step_writeReg (s : State) (r : Reg) (v : Word) (rest : List Event) :
    step { s with inbox := writeEvent s.cfg r.byteOffset 4 v :: rest } =
      .next (writeReg r v { s with inbox := rest }) := by
  have hl : legalAccess r.byteOffset 4 = true := by cases r <;> rfl
  have ha : r.byteOffset < 0x4000 := by cases r <;> decide
  rw [step_writeEvent s 4 v rest ha, if_pos hl, memWrite_reg]

/-- Two steps in a row: a first next state, then the rest of the run. -/
theorem run_succ_next {k : Nat} {s t : State} (h : step s = .next t) :
    Host.Core.run Sys2Proof.core (k + 1) s = Host.Core.run Sys2Proof.core k t := by
  have h' : Sys2Proof.core.step s = .next t := h
  simp only [Host.Core.run, h']

/-- A run of one step is the step. -/
theorem run_one (s : State) : Host.Core.run Sys2Proof.core 1 s = step s := by
  have e : Sys2Proof.core.step s = step s := rfl
  simp only [Host.Core.run, e]
  cases step s <;> rfl

/-- A clean run of `k + 1` steps is a clean step and a clean run of `k`. -/
theorem cleanRun_succ {k : Nat} {s t : State} (h : CleanRun (k + 1) s t) : ∃ u, step s = .next u ∧ CleanRun k u t := by
  unfold CleanRun at h
  have e : Sys2Proof.core.step s = step s := rfl
  simp only [Host.Core.run, e] at h
  cases hs : step s with
  | next u => rw [hs] at h; exact ⟨u, rfl, h⟩
  | fault r => rw [hs] at h; cases h
  | refused r => rw [hs] at h; cases h

/-- A clean run of no step ends where it begins. -/
theorem cleanRun_zero {s t : State} (h : CleanRun 0 s t) : s = t := by cases h; rfl

end Sys2Proof.Machine
end

