-- ==== Sys2Proof/Tests/Slice0.lean ====
section
/-! SUPPORT. The model's own tests. Every expected value comes from spec/: the vectors V-* of 95_test_vectors.md, the
tables of 10_state.md, and the encodings of 30_encoding.md. The last part shows, for every statement with hypotheses, a
concrete state that meets them together. -/

namespace Sys2Proof.Tests

open Sys2Proof.Machine

/-! ## Helpers -/

/-- The property holds of the next state that the outcome gives. -/
def onNext (o : Host.Outcome State Fault Refusal) (p : State → Bool) : Bool :=
  match o with
  | .next t => p t
  | .fault _ => false
  | .refused _ => false

/-- The outcome is this fault. -/
def isFault (o : Host.Outcome State Fault Refusal) (f : Fault) : Bool :=
  match o with
  | .next _ => false
  | .fault g => g == f
  | .refused _ => false

/-- Elements written to consecutive offsets. -/
def put (a : Nat) (l : List Nat) (m : Memory) : Memory := m.writeBytes a (l.map (BitVec.ofNat 8))

/-- `OUT[0 .. |l| - 1]` holds `l`. -/
def outIs (l : List Nat) (t : State) : Bool :=
  (List.range l.length).map t.outElem == l.map (fun n => some (BitVec.ofNat 8 n))

/-- The state with one event in its inbox. -/
def withEvent (e : Event) (s : State) : State := { s with inbox := [e] }

/-- The state with a command pending. -/
def pending (i : Instr) (s : State) : State := issue (encode i) s

/-- The expanded access code `E1` of V-AC-1. -/
def giac : List Nat :=
  [0, 1, 0, 1, 0, 1, 0, 0, 0, 1, 1, 1, 0, 1, 0, 1, 1, 1, 0, 0, 0, 1, 0, 1] ++
  [1, 0, 0, 0, 1, 1, 0, 0, 1, 1, 0, 0, 0, 1, 1, 1, 0, 0, 1, 1, 0, 0, 1, 1] ++
  [0, 1, 0, 0, 0, 1, 0, 1, 1, 1, 1, 0, 0, 1, 1, 1, 0, 0, 1, 0, 1, 0, 1, 0]

/-- V-BO-2. -/
def a2hState : State := { State.reset with len := 4, mem := put inBase [1, 0, 1, 1] [] }

/-- V-BO-7. -/
def h2aState : State := { State.reset with len := 8, value := 0xA5 }

/-- V-LF-3. -/
def lfsrState : State :=
  { State.reset with len := 7, klen := 4, mem := put genBase [1, 1, 0] (put inBase [1, 0, 1, 1] []) }

/-- V-AC-1. -/
def acgenState : State := { State.reset with lap := 0x9E8B33 }

/-- Program P1: the code of V-AC-1 at `IN[3..74]`. -/
def acmatchState : State := { State.reset with lap := 0x9E8B33, offset := 3, mem := put (inBase + 3) giac [] }

/-- V-WH-6. -/
def unwhitenState : State :=
  { State.reset with len := 8, clk := 5, skip := 3, mem := put inBase [1, 1, 1, 1, 1, 1, 1, 1] [] }

/-- V-F13-2. -/
def fec13State : State := { State.reset with len := 3, mem := put inBase [1, 1, 0, 0, 0, 1, 1, 1, 1] [] }

/-- V-F23-4. -/
def fec23State : State :=
  { State.reset with len := 10, mem := put inBase [1, 0, 1, 0, 0, 0, 1, 1, 1, 0, 0, 1, 0, 1, 0] [] }

/-- V-F23-7. -/
def fec23Bad : State :=
  { State.reset with len := 10, mem := put inBase [1, 0, 1, 0, 1, 0, 1, 1, 1, 0, 0, 1, 0, 1, 0] [] }

/-- V-CRC-9. -/
def crcState : State :=
  { State.reset with len := 10, uap := 0x47, mem := put inBase [0, 1, 0, 0, 1, 0, 1, 1, 0, 0] [] }

/-! ## Decoding: the ten words of 30_encoding.md R163, bit by bit as R160 lays them out -/

theorem test_decode_nop : decodeWord 0b00000000000000000000000000000000#32 = .ok .nop := by decide
theorem test_decode_a2h : decodeWord 0b00000000000000000000000000000001#32 = .ok .a2h := by decide
theorem test_decode_h2a : decodeWord 0b00000000000000000000000000000010#32 = .ok .h2a := by decide
theorem test_decode_lfsr : decodeWord 0b00000000000000000000000000000011#32 = .ok .lfsr := by decide
theorem test_decode_acgen : decodeWord 0b00000000000000000000000000000100#32 = .ok .acgen := by decide
theorem test_decode_acmatch : decodeWord 0b00000000000000000000000000000101#32 = .ok .acmatch := by decide
theorem test_decode_unwhiten : decodeWord 0b00000000000000000000000000000110#32 = .ok .unwhiten := by decide
theorem test_decode_fec13 : decodeWord 0b00000000000000000000000000000111#32 = .ok .fec13 := by decide
theorem test_decode_fec23 : decodeWord 0b00000000000000000000000000001000#32 = .ok .fec23 := by decide
theorem test_decode_crc16 : decodeWord 0b00000000000000000000000000001001#32 = .ok .crc16 := by decide

/-- V-EX-1 to V-EX-3: the illegal words of 30_encoding.md R161. -/
theorem test_decode_illegal :
    decodeWord 0xF = .error .unknownOpcode ∧ decodeWord 0xA = .error .unknownOpcode ∧
    decodeWord 0x11 = .error .reservedBits ∧ decodeWord 0x80000001 = .error .reservedBits := by decide

/-- 20_memory.md R48: the bytes of a command word, lowest address first; a short run of bytes is refused. -/
theorem test_decode_bytes :
    decodeBytes [5, 0, 0, 0, 7] = .ok (.acmatch, [7]) ∧ decodeBytes [0, 0, 0, 5] = .error .reservedBits ∧
    decodeBytes [5, 0, 0] = .error .truncated ∧ encodeBytes .fec23 = [8, 0, 0, 0] := by decide

/-! ## Well-formedness refuses an ill-formed term at each check -/

theorem test_default_config_wf : Config.default.wf = true := by decide +kernel

theorem test_base_refused :
    let c := { Config.default with base := 0x2000 }
    c.baseOk = false ∧ c.wf = false := by decide

theorem test_in_size_refused :
    let c := { Config.default with inSize := 71 }
    let d := { Config.default with inSize := 4097 }
    c.inSizeOk = false ∧ c.wf = false ∧ d.inSizeOk = false ∧ d.wf = false := by decide

theorem test_out_size_refused :
    let c := { Config.default with outSize := 71 }
    let d := { Config.default with outSize := 4097 }
    c.outSizeOk = false ∧ c.wf = false ∧ d.outSizeOk = false ∧ d.wf = false := by decide

theorem test_gen_size_refused :
    let c := { Config.default with genSize := 0 }
    let d := { Config.default with genSize := 65 }
    c.genSizeOk = false ∧ c.wf = false ∧ d.genSizeOk = false ∧ d.wf = false := by decide

theorem test_g_ac_refused :
    let c := { Config.default with gAC := List.replicate 35 false }
    let d := { Config.default with gAC := List.replicate 36 true }
    c.gACOk = false ∧ c.wf = false ∧ d.gACOk = false ∧ d.wf = false := by decide

theorem test_pn_refused :
    let c := { Config.default with pn := [0, 1] }
    c.pnOk = false ∧ c.wf = false := by decide

theorem test_whiten_seq_refused :
    let c := { Config.default with whitenSeq := List.replicate 126 true }
    c.whitenSeqOk = false ∧ c.wf = false := by decide +kernel

theorem test_whiten_idx_refused :
    let c := { Config.default with whitenIdx := List.replicate 64 127 }
    let d := { Config.default with whitenIdx := List.replicate 63 0 }
    c.whitenIdxOk = false ∧ c.wf = false ∧ d.whitenIdxOk = false ∧ d.wf = false := by decide +kernel

theorem test_g23_refused :
    let c := { Config.default with g23 := bits01 [1, 1, 0, 1, 0, 0] }
    let d := { Config.default with g23 := bits01 [1, 1, 0, 1, 1] }
    c.g23Ok = false ∧ c.wf = false ∧ d.g23Ok = false ∧ d.wf = false := by decide +kernel

theorem test_word_refused :
    wordRsvOk 0x10 = false ∧ wordOk 0x10 = false ∧ wordOpcodeOk 0xA = false ∧ wordOk 0xA = false ∧
    wordOk 9 = true := by decide

/-! ## The tables of 10_state.md -/

/-- The integer form that R33 prints beside the elements of G_AC: bit `j` is the coefficient of `D^j`. -/
theorem test_g_ac_as_integer :
    (List.range 35).map (fun j => (0x585713DA9 : Nat).testBit j) = Config.default.gAC := by decide

/-- R36's derivation: the register's outputs from the all-ones state. -/
theorem test_whiten_seq_derivation :
    (List.range 127).map (whitenRegOut [true, true, true, true, true, true, true]) = Config.default.whitenSeq := by
  decide +kernel

/-- R37's derivation at phases 0, 5, 37 and 63, over ten outputs each (indices 99, 58, 77 and 0 of R37's rows). -/
theorem test_whiten_idx_derivation :
    ∀ p ∈ [(0, 99), (5, 58), (37, 77), (63, 0)],
      Config.default.whitenIdx.getD p.1 0 = p.2 ∧
      ∀ i < 10, Config.default.whitenSeq.getD ((p.2 + i) % 127) false = whitenRegOut (whitenRegStart p.1) i := by
  decide

/-! ## Commands: one step on a small state -/

/-- V-BO-1. -/
theorem test_nop_status : onNext (exec .nop State.reset) (fun t => t.status.word == 0x02) = true := by decide

/-- V-EX-7: with IRQ_EN set, NOP raises IRQ at its commit, and not before. -/
theorem test_nop_raises_irq :
    (pending .nop { State.reset with irqEn := true }).irq = false ∧
    onNext (exec .nop (pending .nop { State.reset with irqEn := true })) State.irq = true := by decide

/-- V-BO-2. -/
theorem test_a2h : onNext (exec .a2h a2hState) (fun t => t.result == 0xD && t.status.word == 0x02) = true := by
  decide

/-- V-BO-11 and V-BO-12: RANGE, then CONTRACT. -/
theorem test_a2h_fails :
    onNext (exec .a2h { State.reset with offset := 4095, len := 2, mem := put 0x1FFF [1] [] })
      (fun t => t.status.word == 0x36) = true ∧
    onNext (exec .a2h { State.reset with len := 1, mem := put inBase [2] [] }) (fun t => t.status.word == 0x46) =
      true := by decide

/-- V-BO-7. -/
theorem test_h2a : onNext (exec .h2a h2aState) (outIs [1, 0, 1, 0, 0, 1, 0, 1]) = true := by decide

/-- V-BO-10. -/
theorem test_h2a_param :
    onNext (exec .h2a { State.reset with len := 33, value := 1 }) (fun t => t.status.word == 0x26 && t.mem == []) =
      true := by decide

/-- V-LF-3. -/
theorem test_lfsr : onNext (exec .lfsr lfsrState) (outIs [1, 0, 0]) = true := by decide

/-- V-LF-12: CONTRACT on GEN[1]. -/
theorem test_lfsr_contract :
    onNext (exec .lfsr { lfsrState with mem := put genBase [1, 2, 0] lfsrState.mem })
      (fun t => t.status.word == 0x46) = true := by decide

/-- V-AC-1. -/
theorem test_acgen :
    onNext (exec .acgen acgenState) (fun t =>
      t.ac0 == 0x8CC57554 && t.ac1 == 0xE74533C7 && t.ac2 == 0x2A && outIs giac t) = true := by decide +kernel

/-- V-AC-2 under `INPUT_BIT0`: `AD 37 EE 9F 48 03 45 E4 D5`. -/
theorem test_access_code_input_bit0 :
    accessCode { Config.default with trailerSel := .inputBit0 } 0x9E8B00 =
      [0xAD, 0x37, 0xEE, 0x9F, 0x48, 0x03, 0x45, 0xE4, 0xD5] := by decide +kernel

/-- Program P1 at offset 3. -/
theorem test_acmatch : onNext (exec .acmatch acmatchState) (fun t => t.status.word == 0x0A) = true := by
  decide +kernel

/-- V-AC-10: the preamble is compared too. -/
theorem test_acmatch_preamble :
    onNext (exec .acmatch { acmatchState with mem := acmatchState.mem.write (inBase + 3) 1 })
      (fun t => t.status.word == 0x02) = true := by decide +kernel

/-- V-WH-6. -/
theorem test_unwhiten : onNext (exec .unwhiten unwhitenState) (outIs [0, 0, 1, 1, 1, 1, 1, 0]) = true := by
  decide

/-- V-WH-5: the index wraps from 126 to 0. -/
theorem test_unwhiten_wraps :
    onNext (exec .unwhiten { State.reset with len := 6, skip := 27, mem := put inBase [0, 0, 0, 0, 0, 0] [] })
      (outIs [1, 1, 1, 1, 0, 0]) = true := by decide

/-- V-F13-2. -/
theorem test_fec13 : onNext (exec .fec13 fec13State) (outIs [1, 0, 1]) = true := by decide

/-- V-F13-5: `3 · LEN` does not wrap. -/
theorem test_fec13_range :
    onNext (exec .fec13 { State.reset with len := 1366 }) (fun t => t.status.word == 0x36) = true := by
  decide

/-- V-F23-4. -/
theorem test_fec23 :
    onNext (exec .fec23 fec23State) (fun t => t.result == 10 && outIs [1, 0, 1, 1, 0, 0, 1, 1, 1, 0] t) = true := by
  decide

/-- V-F23-7. -/
theorem test_fec23_uncorrectable :
    onNext (exec .fec23 fec23Bad) (fun t => t.status.word == 0x56 && t.result == 0 && t.mem == fec23Bad.mem) =
      true := by decide

/-- V-CRC-9. -/
theorem test_crc16 : onNext (exec .crc16 crcState) (fun t => t.result == 0xDAFE) = true := by decide

/-- Program P6: a command that reads unwritten elements. -/
theorem test_crc16_unwritten : isFault (exec .crc16 { State.reset with len := 8, uap := 0x47 }) .unwrittenRead = true := by
  decide

/-! ## The engine, the host bus and the resets -/

/-- V-EX-1: an illegal word commits with STATUS 0x16 and stays in CMD. -/
theorem test_illegal_commits :
    onNext (step (withEvent .engine (issue 0xF State.reset))) (fun t => t.status.word == 0x16 && t.cmd == 0xF) =
      true := by decide

/-- V-EX-6: STATUS reads 0x01 while a command is pending. -/
theorem test_busy_reads_one :
    onNext (step (withEvent (readEvent Config.default 0x008 4) (issue 0 State.reset)))
      (fun t => t.readLog == [0x01]) = true := by decide

/-- V-EX-12: only DONE and ERR are write-1-to-clear. -/
theorem test_status_w1c :
    onNext (step (withEvent (writeEvent Config.default 0x008 4 0xFF)
      { State.reset with status := ⟨false, true, false, true, 0⟩ })) (fun t => t.status.word == 0x08) = true := by
  decide

/-- The example of 20_memory.md R48. -/
theorem test_little_endian_write :
    onNext (step (withEvent (writeEvent Config.default 0x1000 4 0x01000101) State.reset))
      (fun t => (List.range 4).map t.inElem == [some 1, some 1, some 0, some 1]) = true := by decide

/-- V-RS-2: a host read of an unwritten element. -/
theorem test_unwritten_host_read :
    isFault (step (withEvent (readEvent Config.default 0x2000 1) State.reset)) .unwrittenRead = true := by
  decide

/-- V-RS-3: a soft reset ignores the IRQ_EN of the same write and keeps IN. -/
theorem test_soft_reset :
    onNext (step (withEvent (writeEvent Config.default 0x004 4 0x3) { a2hState with irqEn := true }))
      (fun t => t.irqEn == false && t.len == 0 && t.inElem 0 == some 1) = true := by decide

/-- V-RS-7: a buffer write while a command is pending is ignored. -/
theorem test_busy_write_ignored :
    onNext (step (withEvent (writeEvent Config.default 0x1000 1 1) (issue 0 State.reset)))
      (fun t => t.inElem 0 == none) = true := by decide

/-- 20_memory.md R45: a sub-word register access is a bus error. -/
theorem test_bus_error :
    isFault (step (withEvent (readEvent Config.default 0x008 2) State.reset)) .busError = true := by decide

/-- The host's question: a table word decodes, and the next step runs it. -/
theorem test_fetch_word :
    decodeTableWord 32 4 = some .acgen ∧
    onNext (step (State.reset.withFetchWord 32 4)) (fun t => t.cmd == 4 && t.status.word == 0x02) = true := by
  decide

/-! ## Witnesses: for each statement with hypotheses, a concrete state and operands that meet them together -/

/-- A well-formed instance away from the defaults: another BASE and smaller buffers. -/
def smallConfig : Config := { Config.default with base := 0x8000, inSize := 80, outSize := 72, genSize := 3 }

/-- A busy state. -/
def busyState : State := pending .a2h a2hState

/-- The state with these events to come. -/
def withInbox (l : List Event) (s : State) : State := { s with inbox := l }

/-- The bits of a list of 0 and 1. -/
def rx23 : List Bool := bits01 [1, 0, 1, 0, 0, 0, 1, 1, 1, 0, 0, 1, 0, 1, 0]

/-- DecoderFollowsOpcodeMap: the first illegal word of each kind, and the last legal one. -/
theorem witness_DecoderFollowsOpcodeMap :
    (0x10 : Word).toNat / 16 ≠ 0 ∧ ((0xA : Word).toNat / 16 = 0 ∧ 10 ≤ (0xA : Word).toNat % 16) ∧
    decodeWord 9 = .ok .crc16 := by decide

/-- BytesEncodeDecodeAgree: bytes that decode with a rest. -/
theorem witness_BytesEncodeDecodeAgree : decodeBytes [9, 0, 0, 0, 1] = .ok (.crc16, [1]) := by decide

/-- StepRunsPendingCommand: a legal word, an illegal word, and no word. -/
theorem witness_StepRunsPendingCommand :
    (EngineTurn busyState ∧ busyState.pend = .busy 1 ∧ decodeWord 1 = .ok .a2h) ∧
    (EngineTurn (withEvent .engine (issue 10 State.reset)) ∧
      (withEvent .engine (issue 10 State.reset)).pend = .busy 10 ∧ decodeWord 10 = .error .unknownOpcode) ∧
    (EngineTurn State.reset ∧ State.reset.pend = .idle) :=
  ⟨⟨.inl rfl, rfl, rfl⟩, ⟨.inr rfl, rfl, rfl⟩, .inl rfl, rfl⟩

/-- CmdWriteThenEngineTurnRunsCommand, PseudoInstructionsIssueTheirCommand, RegisterWritesFollowTable. -/
theorem witness_idle : a2hState.pend = .idle := rfl

/-- CmdWriteIssuesOnlyWhenIdle: both cases. -/
theorem witness_CmdWriteIssuesOnlyWhenIdle : a2hState.pend = .idle ∧ busyState.pend = .busy 1 := ⟨rfl, rfl⟩

/-- IllegalWordCommitsIllegal: each kind of illegal word at its least value. -/
theorem witness_IllegalWordCommitsIllegal :
    State.reset.pend = .idle ∧ (0x10 : Word) >>> 4 ≠ 0 ∧ 10 ≤ ((10 : Word) &&& 15).toNat := ⟨rfl, by decide, by decide⟩

/-- FailedCommandWritesOnlyStatus. -/
theorem witness_FailedCommandWritesOnlyStatus :
    ∃ t, (issue 10 State.reset).pend = .busy 10 ∧ engineStep (issue 10 State.reset) = .next t ∧
      t.status.errFlag = true := ⟨_, rfl, rfl, rfl⟩

/-- RangeConditionsComplete: the zero-length boundary at IN_SIZE and one past it, for the plain commands and LFSR, and a
well-formed configuration. -/
theorem witness_RangeConditionsComplete :
    (let s := { State.reset with offset := 4096 }
     s.len = 0 ∧ s.offset.toNat = s.cfg.inSize) ∧
    (let s := { State.reset with offset := 4097 }
     s.len = 0 ∧ s.cfg.inSize < s.offset.toNat) ∧
    (let s := { lfsrState with klen := 0, len := 3, offset := 4096 }
     let g := bits01 [1, 1, 0]
     s.klen = 0 ∧ g.length = s.len.toNat ∧ 0 < g.length ∧ g.length ≤ s.cfg.genSize ∧ s.genHolds g ∧
       s.offset.toNat = s.cfg.inSize) ∧
    State.reset.cfg.wf = true := by
  unfold State.genHolds
  decide +kernel

/-- ContractConditionsComplete: marked elements of which the last of GEN is no bit. -/
theorem witness_ContractConditionsComplete :
    let s := { lfsrState with mem := put genBase [1, 1, 2] lfsrState.mem }
    ¬paramTable .lfsr s ∧ ¬rangeTable .lfsr s ∧
    (∀ j < checkedIn .lfsr s, (s.inElem (s.offset.toNat + j)).isSome = true) ∧
    (∀ j < checkedGen .lfsr s, (s.genElem j).isSome = true) ∧ ¬isBit (s.genElem 2) := by
  unfold paramTable rangeTable isBit
  decide

/-- ContractConditionsComplete, second clause: a marked element that is no bit before one without its mark, in IN and in
GEN. -/
theorem witness_ContractConditionsComplete_unwritten :
    (let s := { State.reset with len := 2, mem := put inBase [2] [] }
     ¬paramTable .crc16 s ∧ ¬rangeTable .crc16 s ∧ 0 < checkedIn .crc16 s ∧ ¬isBit (s.inElem (s.offset.toNat + 0)) ∧
       (s.inElem (s.offset.toNat + 0)).isSome = true ∧ s.inElem (s.offset.toNat + 1) = none ∧
       onNext (exec .crc16 s) (fun t => t.status.errCode == 4) = true) ∧
    (let s := { State.reset with len := 2, mem := put genBase [2] [] }
     ¬paramTable .lfsr s ∧ ¬rangeTable .lfsr s ∧ checkedIn .lfsr s = 0 ∧ ¬isBit (s.genElem 0) ∧
       (s.genElem 0).isSome = true ∧ s.genElem 1 = none ∧
       onNext (exec .lfsr s) (fun t => t.status.errCode == 4) = true) := by
  unfold paramTable rangeTable isBit
  decide

/-- UnwrittenReadFaultExactly: a fault, and a range whose first bad element is no bit. -/
theorem witness_UnwrittenReadFaultExactly :
    isFault (exec .crc16 { State.reset with len := 1 }) .unwrittenRead = true ∧
    isFault (exec .crc16 { State.reset with len := 2, mem := put inBase [2] [] }) .unwrittenRead = false := by
  decide

/-- Fec23WritesCorrectedBlocks and UncorrectableConditionComplete: one block, its length at the padding boundary. -/
theorem witness_Fec23WritesCorrectedBlocks :
    let s := { fec23State with len := 1 }
    10 * s.blocks ≤ s.cfg.outSize ∧ s.reads (15 * s.blocks) rx23 ∧
    ∀ b < s.blocks, (syndromeOf s.cfg.g23 (rxBlock rx23 b)).count true ≤ 1 ∨
      ∃ j < 10, synEntry s.cfg.g23 j = syndromeOf s.cfg.g23 (rxBlock rx23 b) := by
  unfold State.reads State.inHolds
  decide

/-- UncorrectableConditionComplete: V-F23-7 meets its hypotheses and its condition. -/
theorem witness_UncorrectableConditionComplete :
    let bs := bits01 [1, 0, 1, 0, 1, 0, 1, 1, 1, 0, 0, 1, 0, 1, 0]
    fec23Bad.reads (15 * fec23Bad.blocks) bs ∧ 10 * fec23Bad.blocks ≤ fec23Bad.cfg.outSize ∧
    2 ≤ (syndromeOf fec23Bad.cfg.g23 (rxBlock bs 0)).count true ∧
    ∀ j < 10, synEntry fec23Bad.cfg.g23 j ≠ syndromeOf fec23Bad.cfg.g23 (rxBlock bs 0) := by
  unfold State.reads State.inHolds
  decide

/-- NopCommitsOnly: the least word with opcode 0 and a reserved bit. -/
theorem witness_NopCommitsOnly : (0x10 : Word) &&& 15 = 0 ∧ (0x10 : Word) ≠ 0 := by decide

/-- A2hResultIsLsbFirst: the full width, at the end of IN. -/
theorem witness_A2hResultIsLsbFirst :
    let s := { State.reset with len := 32, offset := 4064, mem := put (inBase + 4064) (List.replicate 32 1) [] }
    s.len.toNat ≤ 32 ∧ s.reads s.len.toNat (List.replicate 32 true) := by
  unfold State.reads State.inHolds
  decide

/-- H2aWritesValueBits: the full width. -/
theorem witness_H2aWritesValueBits : ({ h2aState with len := 32 } : State).len.toNat ≤ 32 := by decide

/-- LfsrWritesRemainder: V-LF-3, and no data at the end of IN. -/
theorem witness_LfsrWritesRemainder :
    (let g := bits01 [1, 1, 0]
     lfsrState.klen.toNat < lfsrState.len.toNat ∧ g.length = lfsrState.len.toNat - lfsrState.klen.toNat ∧
       g.length ≤ lfsrState.cfg.genSize ∧ lfsrState.reads lfsrState.klen.toNat (bits01 [1, 0, 1, 1]) ∧
       lfsrState.genHolds g) ∧
    (let s := { lfsrState with klen := 0, len := 3, offset := 4096 }
     let g := bits01 [1, 1, 0]
     s.klen.toNat < s.len.toNat ∧ g.length = s.len.toNat - s.klen.toNat ∧ g.length ≤ s.cfg.genSize ∧
       s.reads s.klen.toNat [] ∧ s.genHolds g) := by
  unfold State.reads State.inHolds State.genHolds
  decide

/-- AcgenClosedForm, FrameOfAcgenAndFec23, EngineWritesOnlyOutAndResults: a well-formed configuration off the defaults,
and the default PN. -/
theorem witness_AcgenClosedForm :
    ({ acgenState with cfg := smallConfig } : State).cfg.wf = true ∧ smallConfig.pn = Config.default.pn := by
  decide +kernel

/-- AcmatchComparesWithAcgen: the window of program P1. -/
theorem witness_AcmatchComparesWithAcgen : acmatchState.cfg.wf = true ∧ acmatchState.reads 72 (bits01 giac) := by
  unfold State.reads State.inHolds
  decide +kernel

/-- UnwhitenXorsSequence. -/
theorem witness_UnwhitenXorsSequence :
    unwhitenState.len.toNat ≤ unwhitenState.cfg.outSize ∧
    unwhitenState.reads unwhitenState.len.toNat (List.replicate 8 true) := by
  unfold State.reads State.inHolds
  decide

/-- Fec13WritesMajority. -/
theorem witness_Fec13WritesMajority :
    fec13State.len.toNat ≤ fec13State.cfg.outSize ∧
    fec13State.reads (3 * fec13State.len.toNat) (bits01 [1, 1, 0, 0, 0, 1, 1, 1, 1]) := by
  unfold State.reads State.inHolds
  decide

/-- Crc16IsPolynomialRemainder. -/
theorem witness_Crc16IsPolynomialRemainder :
    crcState.reads crcState.len.toNat (bits01 [0, 1, 0, 0, 1, 0, 1, 1, 0, 0]) := by
  unfold State.reads State.inHolds
  decide

/-- LfsrDivIsRemainder and LfsrDivIsLinear: no data and a register of one stage, and the code of V-LF-3. -/
theorem witness_LfsrDiv :
    (([] : List Bool).length = 0 ∧ 0 < 1 ∧ 1 - 0 ≤ (bits01 [1]).length) ∧
    ((bits01 [1, 0, 1, 1]).length = 4 ∧ 4 < 7 ∧ 7 - 4 ≤ (bits01 [1, 1, 0]).length) := by decide

/-- BitOrderRoundTrip, first clause: V-BO-14. -/
theorem witness_BitOrderRoundTrip_value :
    let s := { State.reset with len := 4, value := 0xB }
    let s' := { State.reset with len := 4, mem := put inBase [1, 1, 0, 1] [] }
    s.len.toNat ≤ 32 ∧ s'.len = s.len ∧ s'.offset.toNat + s.len.toNat ≤ s'.cfg.inSize ∧
    onNext (exec .h2a s) (fun t => (List.range 4).all fun i => s'.inElem (s'.offset.toNat + i) == t.outElem i) =
      true := by decide

/-- BitOrderRoundTrip, second clause: V-BO-2 and its result. -/
theorem witness_BitOrderRoundTrip_elements :
    let s' := { State.reset with len := 4, value := 0xD }
    a2hState.len.toNat ≤ 32 ∧ a2hState.reads a2hState.len.toNat (bits01 [1, 0, 1, 1]) ∧ s'.len = a2hState.len ∧
    onNext (exec .a2h a2hState) (fun t => s'.value == t.result) = true := by
  unfold State.reads State.inHolds
  decide

/-- AccessCodeRoundTrip: the code of V-AC-1 copied to the last offset that leaves 72 elements, on a state that differs
elsewhere. -/
theorem witness_AccessCodeRoundTrip :
    let s' := { acgenState with uap := 0x47, offset := 4024, mem := put (inBase + 4024) giac [] }
    acgenState.cfg.wf = true ∧ s'.cfg = acgenState.cfg ∧ s'.lap = acgenState.lap ∧
    s'.offset.toNat ≤ s'.cfg.inSize - 72 ∧ onNext (exec .acgen s') (fun _ => true) = true ∧
    onNext (exec .acgen acgenState)
      (fun t => (List.range 72).all fun i => s'.inElem (s'.offset.toNat + i) == t.outElem i) = true := by
  decide +kernel

/-- UnwhitenIsInvolution: V-WH-6 and its output copied to IN. -/
theorem witness_UnwhitenIsInvolution :
    let s' := { unwhitenState with offset := 9, mem := put (inBase + 9) [0, 0, 1, 1, 1, 1, 1, 0] [] }
    unwhitenState.len.toNat ≤ unwhitenState.cfg.outSize ∧
    unwhitenState.reads unwhitenState.len.toNat (List.replicate 8 true) ∧ s'.cfg = unwhitenState.cfg ∧
    s'.len = unwhitenState.len ∧ s'.clk = unwhitenState.clk ∧ s'.skip = unwhitenState.skip ∧
    s'.offset.toNat + unwhitenState.len.toNat ≤ s'.cfg.inSize ∧
    onNext (exec .unwhiten unwhitenState)
      (fun t => (List.range 8).all fun i => s'.inElem (s'.offset.toNat + i) == t.outElem i) = true := by
  unfold State.reads State.inHolds
  decide

/-- WhiteningFollowsRegister. -/
theorem witness_WhiteningFollowsRegister :
    unwhitenState.cfg.whitenSeq = Config.default.whitenSeq ∧ unwhitenState.cfg.whitenIdx = Config.default.whitenIdx ∧
    unwhitenState.len.toNat ≤ unwhitenState.cfg.outSize ∧
    unwhitenState.reads unwhitenState.len.toNat (List.replicate 8 true) := by
  unfold State.reads State.inHolds
  decide

/-- FecCorrectsSingleErrors: agreeing triples; one block with one flipped bit (V-F23-4); one block with two (V-F23-7). -/
theorem witness_FecCorrectsSingleErrors :
    (let s := { State.reset with len := 3, mem := put inBase [1, 1, 1, 0, 0, 0, 1, 1, 1] [] }
     let d := bits01 [1, 0, 1]
     d.length = s.len.toNat ∧ s.len.toNat ≤ s.cfg.outSize ∧
       s.reads (3 * s.len.toNat) (d.flatMap fun b => [b, b, b])) ∧
    (let d := bits01 [1, 0, 1, 1, 0, 0, 1, 1, 1, 0]
     let e := (List.range 15).map (fun i => i == 3)
     let e2 := (List.range 15).map (fun i => i == 3 || i == 4)
     let bs2 := bits01 [1, 0, 1, 0, 1, 0, 1, 1, 1, 0, 0, 1, 0, 1, 0]
     fec23State.cfg.g23 = Config.default.g23 ∧ fec23State.blocks = 1 ∧ 10 * fec23State.blocks ≤ fec23State.cfg.outSize ∧
       fec23State.reads (15 * fec23State.blocks) rx23 ∧ d.length = 10 * fec23State.blocks ∧ e.length = 15 ∧
       e.count true ≤ 1 ∧ rxBlock rx23 0 = List.zipWith (· ^^ ·) (encode23 fec23State.cfg.g23 ((d.drop 0).take 10)) e ∧
       fec23Bad.reads (15 * fec23Bad.blocks) bs2 ∧ e2.length = 15 ∧ e2.count true = 2 ∧
       rxBlock bs2 0 = List.zipWith (· ^^ ·) (encode23 fec23Bad.cfg.g23 d) e2) := by
  unfold State.reads State.inHolds
  decide

/-- Crc16Properties, empty range at the end of IN. -/
theorem witness_Crc16Properties_empty :
    let s := { State.reset with offset := 4096, uap := 0xFF }
    s.len = 0 ∧ s.offset.toNat ≤ s.cfg.inSize := by decide

/-- Crc16Properties, appended CRC: V-CRC-9 and V-CRC-10. -/
theorem witness_Crc16Properties_append :
    let bs := bits01 [0, 1, 0, 0, 1, 0, 1, 1, 0, 0]
    let s' := { crcState with
      len := 26
      mem := put (inBase + 10) [1, 1, 0, 1, 1, 0, 1, 0, 1, 1, 1, 1, 1, 1, 1, 0] crcState.mem }
    crcState.reads crcState.len.toNat bs ∧ s'.uap = crcState.uap ∧ s'.len.toNat = crcState.len.toNat + 16 ∧
    s'.reads s'.len.toNat (bs ++ (List.range 16).map (fun i => (0xDAFE : Word).getLsbD (15 - i))) ∧
    onNext (exec .crc16 crcState) (fun t => t.result == 0xDAFE) = true := by
  unfold State.reads State.inHolds
  decide

/-- The frames: each command answers a next state somewhere. -/
theorem witness_frames :
    ∀ p ∈ [(Instr.nop, State.reset), (.a2h, a2hState), (.acmatch, acmatchState), (.crc16, crcState), (.h2a, h2aState),
      (.lfsr, lfsrState), (.unwhiten, unwhitenState), (.fec13, fec13State), (.acgen, acgenState), (.fec23, fec23State)],
      onNext (exec p.1 p.2) (fun t => t.cfg.outSize == 4096) = true := by decide +kernel

/-- An Idle and a busy state that are well-formed. -/
theorem witness_Inv : Inv h2aState ∧ Inv (pending .h2a h2aState) := by
  refine ⟨⟨by decide +kernel, rfl, ?_, ?_, rfl, ?_, fun _ => rfl, ?_, ?_⟩,
    ⟨by decide +kernel, rfl, ?_, ?_, rfl, fun _ => ⟨rfl, rfl⟩, fun _ => rfl, ?_, ?_⟩⟩
  · intro c hc; cases hc
  · intro c hc; cases hc
  · intro h; cases h
  · intro h; cases h
  · intro w hw; cases hw
  · intro c hc; cases hc
  · intro c hc; cases hc
  · intro h; cases h
  · intro w hw; cases hw; rfl

/-- StepKeepsWellFormed, NoStepChangesConfiguration, EngineWritesOnlyOutAndResults: a well-formed state with a command
pending, whose step commits it. -/
theorem witness_StepKeepsWellFormed :
    ∃ t, Inv (pending .h2a h2aState) ∧ EngineTurn (pending .h2a h2aState) ∧ step (pending .h2a h2aState) = .next t :=
  ⟨_, witness_Inv.2, .inl rfl, rfl⟩

/-- MatchWrittenOnlyByAcmatch: MATCH set by ACMATCH, and cleared by each reset. -/
theorem witness_MatchWrittenOnlyByAcmatch :
    let m := { State.reset with status := ⟨false, true, false, true, 0⟩ }
    onNext (step (pending .acmatch acmatchState)) (fun t => t.status.matchFlag) = true ∧
    onNext (step (withEvent .hardReset m)) (fun t => !t.status.matchFlag) = true ∧
    onNext (step (withEvent (writeEvent Config.default 0x004 4 2) m)) (fun t => !t.status.matchFlag) = true := by
  decide +kernel

/-- SoftResetKeepsBuffers and InterruptLineFollowsDone: CTRL values with bit 1 set and clear. -/
theorem witness_ctrl_values : (0x2 : Word).getLsbD 1 = true ∧ (0x1 : Word).getLsbD 1 = false := by decide

/-- BusErrorExactlyOnIllegalAccess: the edges of the register region and of the window, legal and not. -/
theorem witness_BusErrorExactlyOnIllegalAccess :
    legalAccess 0xFFC 4 = true ∧ legalAccess 0xFFE 4 = false ∧ legalAccess 0xFFF 1 = false ∧
    legalAccess 0x1000 1 = true ∧ legalAccess 0x3FFF 1 = true ∧ legalAccess 0x3FFF 2 = false ∧
    legalAccess 0x1000 0 = false ∧ legalAccess 0x1000 3 = false := by decide

/-- AccessOutsideWindowHasNoEffect: the addresses just below and just above a window; the access of two bytes at the
first of them reaches into the window (log 20). -/
theorem witness_AccessOutsideWindowHasNoEffect :
    0x7FFF < smallConfig.base ∧ smallConfig.base + 0x4000 ≤ 0xC000 ∧ smallConfig.base < 0x7FFF + 2 := by decide

/-- RegisterReadsFollowMap and RegisterWritesFollowTable: the first and the last reserved offset. -/
theorem witness_reserved_offsets :
    (0x040 ≤ 0x040 ∧ 0x040 < 0x1000 ∧ 0x040 % 4 = 0) ∧ (0x040 ≤ 0xFFC ∧ 0xFFC < 0x1000 ∧ 0xFFC % 4 = 0) := by decide

/-- A state of the small instance with all three elements of GEN written. -/
def smallGen : State := { State.reset with cfg := smallConfig, mem := put genBase [7, 8, 9] [] }

/-- BufferReadsAreLittleEndian: an access across the end of GEN, with every inside element marked, and with one that is
not. -/
theorem witness_BufferReadsAreLittleEndian :
    (0x3000, smallGen.cfg.genSize) ∈
      [(0x1000, smallGen.cfg.inSize), (0x2000, smallGen.cfg.outSize), (0x3000, smallGen.cfg.genSize)] ∧
    0x3000 % 4 = 0 ∧ (∀ j < 4, 0x3000 + j < 0x3000 + smallGen.cfg.genSize → (smallGen.mem.read (0x3000 + j)).isSome = true) ∧
    State.reset.mem.read (0x3000 + 0) = none := by decide

/-- BufferWritesAreLittleEndian: an access across the end of GEN, and one in OUT, while Idle. -/
theorem witness_BufferWritesAreLittleEndian :
    smallGen.pend = .idle ∧ (0x1000 ≤ 0x3000 ∧ 0x3000 < 0x4000 ∧ 0x3000 % 4 = 0) ∧
    (0x1000 ≤ 0x2FFF ∧ 0x2FFF < 0x4000 ∧ 0x2FFF % 1 = 0) := by decide

/-- WritesWhileBusyAreIgnored and InterruptLineFollowsDone: a pending command, a legal write that is not to CTRL, a read
of a marked element and a register read that complete, and the engine's turn. -/
theorem witness_WritesWhileBusyAreIgnored :
    busyState.pend = .busy 1 ∧ legalAccess 0x010 4 = true ∧ legalAccess 0x1000 1 = true ∧ EngineTurn busyState ∧
    (∀ j < 1, isElement busyState.cfg (0x1000 + j) = true → (busyState.mem.read (0x1000 + j)).isSome = true) ∧
    onNext (step (withEvent (readEvent busyState.cfg 0x1000 1) busyState)) (fun t => t.readLog == [1]) = true ∧
    onNext (step (withEvent (readEvent busyState.cfg 0x010 4) busyState)) (fun t => t.readLog == [4]) = true ∧
    onNext (step busyState) (fun t => t.pend == .idle) = true :=
  ⟨rfl, by decide, by decide, .inl rfl, by decide, by decide, by decide, by decide⟩

/-- RepeatedAccessesAreIdempotent: a well-formed state on which a write and a read complete. -/
theorem witness_RepeatedAccessesAreIdempotent :
    Inv h2aState ∧
    onNext (step (withEvent (writeEvent h2aState.cfg 0x1000 4 5) h2aState)) (fun t => t.inElem 0 == some 5) = true ∧
    onNext (step (withEvent (readEvent h2aState.cfg 0x010 4) h2aState)) (fun t => t.readLog == [8]) = true :=
  ⟨witness_Inv.1, by decide, by decide⟩

/-- PendingCommandIsFrozen: a run with a lost write, a read and then the engine's turn. -/
theorem witness_PendingCommandIsFrozen :
    let hs := [HostAccess.write (busyState.cfg.base + 0x010) 4 5, HostAccess.read (busyState.cfg.base + 0x010) 4]
    ∃ t, busyState.pend = .busy 1 ∧ (∀ h ∈ hs, ∀ n v, h ≠ .write (busyState.cfg.base + 0x004) n v) ∧
      CleanRun (hs.length + 1) { busyState with inbox := hs.map .access ++ [.engine] } t := by
  refine ⟨_, rfl, ?_, rfl⟩
  intro h hh n v he
  subst he
  simp [busyState, pending, a2hState, State.reset, Config.default] at hh

/-- PendingCommandCommits: a pending command with a read, a lost write and a CTRL write that is no reset still to come. -/
theorem witness_PendingCommandCommits :
    let s := withInbox [readEvent Config.default 0x008 4, writeEvent Config.default 0x010 4 2,
      writeEvent Config.default 0x004 4 1] busyState
    ∃ t, s.pend = .busy 1 ∧
      (∀ e ∈ s.inbox, ∃ h, e = .access h ∧
        ∀ n v, h = .write (s.cfg.base + 0x004) n v → v.getLsbD 1 = false) ∧
      CleanRun (s.inbox.length + 1) s t := by
  refine ⟨_, rfl, ?_, rfl⟩
  intro e he
  simp only [withInbox, List.mem_cons, List.not_mem_nil, or_false] at he
  rcases he with rfl | rfl | rfl
  · exact ⟨_, rfl, fun _ _ h => by cases h⟩
  · exact ⟨_, rfl, fun _ _ h => by cases h⟩
  · exact ⟨_, rfl, fun _ _ h => by cases h; decide⟩

/-- PollEndsWithBusyClear: a well-formed busy state polled with two busy reads, and an Idle one polled at once. -/
theorem witness_PollEndsWithBusyClear :
    (∃ t, Inv (pending .h2a h2aState) ∧ (∃ w, (pending .h2a h2aState).pend = .busy w) ∧
      CleanRun (2 + 2) { pending .h2a h2aState with inbox := (Stmt.poll 2).events (pending .h2a h2aState).cfg } t) ∧
    (∃ t, Inv h2aState ∧ CleanRun (0 + 2) { h2aState with inbox := (Stmt.poll 0).events h2aState.cfg } t) :=
  ⟨⟨_, witness_Inv.2, ⟨_, rfl⟩, rfl⟩, _, witness_Inv.1, rfl⟩

/-- RunsWithoutBufferReadsAreSafe: each kind of event, the least and greatest harmless words among the writes. -/
theorem witness_RunsWithoutBufferReadsAreSafe :
    let s := withInbox [.engine, .hardReset, readEvent Config.default Reg.lap.byteOffset 4,
      writeEvent Config.default 0x00C 4 0, writeEvent Config.default 0x1000 1 2] (pending .acgen State.reset)
    (∀ w, s.pend = .busy w → w ∈ [encode .nop, encode .h2a, encode .acgen] ∨ 10 ≤ w.toNat) ∧
    (∀ e ∈ s.inbox, e = .engine ∨ e = .hardReset ∨ (∃ r : Reg, e = readEvent s.cfg r.byteOffset 4) ∨
      ∃ a n v, e = writeEvent s.cfg a n v ∧ a < 0x4000 ∧
        ((a < 0x1000 ∧ n = 4 ∧ a % 4 = 0) ∨ (0x1000 ≤ a ∧ (n = 1 ∨ n = 2 ∨ n = 4) ∧ a % n = 0)) ∧
        (a = 0x00C → v ∈ [encode .nop, encode .h2a, encode .acgen] ∨ 10 ≤ v.toNat)) := by
  refine ⟨fun w hw => ?_, fun e he => ?_⟩
  · cases hw; decide
  · simp only [withInbox, List.mem_cons, List.not_mem_nil, or_false] at he
    rcases he with rfl | rfl | rfl | rfl | rfl
    · exact .inl rfl
    · exact .inr (.inl rfl)
    · exact .inr (.inr (.inl ⟨.lap, rfl⟩))
    · exact .inr (.inr (.inr ⟨0x00C, 4, 0, rfl, by decide, by decide, fun _ => by decide⟩))
    · exact .inr (.inr (.inr ⟨0x1000, 1, 2, rfl, by decide, by decide, fun h => absurd h (by decide)⟩))


end Sys2Proof.Tests
end

section
/-! The configuration under every step (00_scope.md R7). No operation of the engine, the host bus or a reset writes the
field `cfg`: one lemma per layer, from the register write up to the step, each by the cases its law lists. -/

namespace Sys2Proof.Machine

@[simp] theorem writeReg_cfg (r : Reg) (v : Word) (s : State) : (writeReg r v s).cfg = s.cfg := by
  rcases writeReg_cases r v s with e | ⟨-, -, e⟩ | ⟨-, -, e⟩ | ⟨-, hIdle⟩
  · rw [e]
  · rw [e, softReset_cfg]
  · rw [e]
  · rcases hIdle with ⟨-, e⟩ | ⟨-, e⟩ | ⟨-, e⟩ | ⟨-, e⟩ | ⟨-, e⟩ | ⟨-, e⟩ | ⟨-, e⟩ | ⟨-, e⟩ | ⟨-, e⟩ | ⟨-, e⟩ <;>
      simp [e]

@[simp] theorem memWrite_cfg (s : State) (a n : Nat) (v : Word) : (memWrite s a n v).cfg = s.cfg := by
  rcases memWrite_cases s a n v with e | ⟨r, -, e⟩ | ⟨-, -, e⟩
  · rw [e]
  · rw [e, writeReg_cfg]
  · rw [e]

/-- No host access changes the configuration. -/
theorem hostStep_keeps_cfg {a : HostAccess} {s t : State} (h : hostStep a s = .next t) : t.cfg = s.cfg := by
  rcases hostStep_next h with rfl | ⟨v, rfl⟩ | ⟨o, n, v, -, -, rfl⟩
  · rfl
  · rfl
  · exact memWrite_cfg s o n v

/-- No command, and no illegal word, changes the configuration. -/
theorem engineStep_keeps_cfg {s t : State} (h : engineStep s = .next t) : t.cfg = s.cfg := by
  rcases engineStep_next h with ⟨-, rfl⟩ | ⟨w, i, S, -, -, -, rfl⟩ | ⟨w, c, -, rfl⟩
  · rfl
  · exact commitOk_cfg S s
  · exact commitErr_cfg c s

/-- No step changes the configuration: it is an engine turn, a host access or the hard reset. -/
theorem step_keeps_cfg {s t : State} (h : step s = .next t) : t.cfg = s.cfg := by
  rcases step_next h with ⟨-, hEngine⟩ | ⟨a, rest, -, hHost⟩ | ⟨rest, -, rfl⟩
  · exact (engineStep_keeps_cfg hEngine :)
  · exact (hostStep_keeps_cfg hHost :)
  · exact hardReset_cfg { s with inbox := rest }

/-- Settles O39, by the three kinds of step: engine turn, host access and hard reset. -/
theorem noStepChangesConfiguration : Obligations.NoStepChangesConfiguration :=
  fun _ _ h => step_keeps_cfg h

end Sys2Proof.Machine
end

section
/-! Well-formedness under every step (10_state.md R43). `Inv` speaks of three parts of the state that are written apart:
the configuration, which no step writes; memory; and STATUS with PEND and CMD. Each part has its own predicate here, with
one lemma per operation that writes it, and `inv_iff` puts the three together. -/

namespace Sys2Proof.Machine

/-- The clauses of `Inv` about memory: canonical form, marks only on elements, OUT elements 0 or 1. -/
structure WfMemory (c : Config) (m : Memory) : Prop where
  canonical : m.wf = true
  elems : ∀ x ∈ m, isElement c x.1 = true
  outBits : ∀ x ∈ m, regionOf x.1 = .outWindow → x.2 = 0 ∨ x.2 = 1

/-- The clauses of `Inv` about STATUS, PEND and CMD. -/
structure WfControl (st : Status) (p : Pend) (cmd : Word) : Prop where
  busyPend : st.busy = p.isBusy
  busyClear : st.busy = true → st.doneFlag = false ∧ st.errFlag = false
  errZero : st.errFlag = false → st.errCode = 0
  errRange : st.errFlag = true → 1 ≤ st.errCode.toNat ∧ st.errCode.toNat ≤ 5
  pendCmd : ∀ w, p = .busy w → cmd = w

theorem inv_iff (s : State) :
    Inv s ↔ s.cfg.wf = true ∧ WfMemory s.cfg s.mem ∧ WfControl s.status s.pend s.cmd :=
  ⟨fun h => ⟨h.cfgWf, ⟨h.memWf, h.memElems, h.outBits⟩,
      ⟨h.busyPend, h.busyClear, h.errZero, h.errRange, h.pendCmd⟩⟩,
    fun ⟨hc, hm, hs⟩ => ⟨hc, hm.canonical, hm.elems, hm.outBits, hs.busyPend, hs.busyClear, hs.errZero, hs.errRange,
      hs.pendCmd⟩⟩

/-! The regions of the window (20_memory.md R44). -/

theorem regionOf_inWindow {x : Nat} (hlo : inBase ≤ x) (hhi : x < outBase) : regionOf x = .inWindow := by
  rw [regionOf, if_neg (by omega), if_pos hhi]

theorem regionOf_outWindow {x : Nat} (hlo : outBase ≤ x) (hhi : x < genBase) : regionOf x = .outWindow := by
  have : inBase < outBase := by decide
  rw [regionOf, if_neg (by omega), if_neg (by omega), if_pos hhi]

theorem regionOf_genWindow {x : Nat} (hlo : genBase ≤ x) : regionOf x = .genWindow := by
  have : inBase < outBase := by decide
  have : outBase < genBase := by decide
  rw [regionOf, if_neg (by omega), if_neg (by omega), if_neg (by omega)]

/-! Memory. -/

theorem wfMemory_nil (c : Config) : WfMemory c [] :=
  ⟨rfl, fun _ h => absurd h List.not_mem_nil, fun _ h => absurd h List.not_mem_nil⟩

/-- The elements a host may write are elements, and not of OUT (20_memory.md R47, R49). -/
theorem isElement_of_hostWritable {c : Config} {x : Nat}
    (hx : (inBase ≤ x ∧ x < outBase ∧ x - inBase < c.inSize) ∨ (genBase ≤ x ∧ x - genBase < c.genSize)) :
    isElement c x = true ∧ regionOf x ≠ .outWindow := by
  rcases hx with ⟨hlo, hhi, hsize⟩ | ⟨hlo, hsize⟩
  · simp [isElement, regionOf_inWindow hlo hhi, hsize]
  · simp [isElement, regionOf_genWindow hlo, hsize]

/-- The elements a commit writes are elements of OUT. -/
theorem isElement_out {c : Config} (hc : c.wf = true) {x : Nat} (hlo : outBase ≤ x) (hhi : x < outBase + c.outSize) :
    isElement c x = true := by
  have hsize := Config.sizes hc
  have hgen : x < genBase := by simp only [outBase, genBase] at *; omega
  simp only [isElement, regionOf_outWindow hlo hgen, decide_eq_true_eq]
  omega

theorem wfMemory_writeElems {c : Config} {m : Memory} (h : WfMemory c m) (x n : Nat) (v : Word) :
    WfMemory c (writeElems c m x n v) := by
  refine writeElems_induction (P := WfMemory c) (fun m y b hy hm => ?_) n x v h
  obtain ⟨hElem, hNotOut⟩ := isElement_of_hostWritable hy
  refine ⟨Memory.wf_write y b hm.canonical, fun d hd => ?_, fun d hd hr => ?_⟩
  · rcases Memory.mem_write hd with rfl | hd
    · exact hElem
    · exact hm.elems d hd
  · rcases Memory.mem_write hd with rfl | hd
    · exact absurd hr hNotOut
    · exact hm.outBits d hd hr

theorem wfMemory_writeOut {c : Config} {m : Memory} (hc : c.wf = true) (h : WfMemory c m) (out : List Bool)
    (hlen : out.length ≤ c.outSize) : WfMemory c (m.writeBytes outBase (out.map bitByte)) := by
  refine ⟨Memory.wf_writeBytes _ _ h.canonical, fun d hd => ?_, fun d hd hr => ?_⟩
  · rcases Memory.mem_writeBytes hd with ⟨hlo, hhi, -⟩ | hd
    · rw [List.length_map] at hhi
      exact isElement_out hc hlo (by omega)
    · exact h.elems d hd
  · rcases Memory.mem_writeBytes hd with ⟨-, -, hbit⟩ | hd
    · obtain ⟨b, -, hb⟩ := List.mem_map.1 hbit
      exact hb ▸ bitByte_zero_or_one b
    · exact h.outBits d hd hr

/-- A success stages no more elements of OUT than OUT has (60_exceptions.md R64, R65). -/
theorem evalOf_out_length {i : Instr} {s : State} {S : Staged} (hc : s.cfg.wf = true) (h : evalOf i s = .ok S) :
    S.out.length ≤ s.cfg.outSize := by
  have hsize := Config.sizes hc
  cases i with
  | nop => cases h; simp
  | a2h => obtain ⟨-, bs, -, rfl⟩ := evalA2h_ok h; simp
  | h2a => obtain ⟨hlen, rfl⟩ := evalH2a_ok h; simp; omega
  | lfsr =>
    obtain ⟨hk, hgen, data, g, -, hg, -, rfl⟩ := evalLfsr_ok h
    have := lfsrDiv_length data g s.len.toNat s.klen.toNat hk hg.ge
    simp only
    omega
  | acgen =>
    have := expand_accessCode_length s.cfg s.lap (Config.pn_length hc)
    obtain rfl := evalAcgen_ok h
    simp only
    omega
  | acmatch => obtain ⟨bs, -, rfl⟩ := evalAcmatch_ok h; simp
  | unwhiten => obtain ⟨hout, bs, ⟨hlen, -, -⟩, rfl⟩ := evalUnwhiten_ok h; simp; omega
  | fec13 =>
    obtain ⟨hout, bs, ⟨hlen, -, -⟩, rfl⟩ := evalFec13_ok h
    exact (fec13Bits_length bs _ hlen).trans_le hout
  | fec23 =>
    obtain ⟨hout, bs, d, ⟨hlen, -, -⟩, hd, rfl⟩ := evalFec23_ok h
    exact (fec23Blocks_length hd hlen).trans_le hout
  | crc16 => obtain ⟨bs, -, rfl⟩ := evalCrc16_ok h; simp

/-! STATUS, PEND and CMD. -/

theorem ErrorCode.code_range (c : ErrorCode) : 1 ≤ c.code.toNat ∧ c.code.toNat ≤ 5 := by cases c <;> decide

theorem wfControl_reset : WfControl Status.reset .idle 0 :=
  ⟨rfl, nofun, fun _ => rfl, nofun, nofun⟩

theorem wfControl_issue (w : Word) (mf : Bool) : WfControl ⟨true, false, false, mf, 0⟩ (.busy w) w :=
  ⟨rfl, fun _ => ⟨rfl, rfl⟩, fun _ => rfl, nofun, fun _ h => Pend.busy.inj h⟩

theorem wfControl_commitOk (mf : Bool) (cmd : Word) : WfControl ⟨false, true, false, mf, 0⟩ .idle cmd :=
  ⟨rfl, nofun, fun _ => rfl, nofun, nofun⟩

theorem wfControl_commitErr (c : ErrorCode) (mf : Bool) (cmd : Word) :
    WfControl ⟨false, true, true, mf, c.code⟩ .idle cmd :=
  ⟨rfl, nofun, nofun, fun _ => c.code_range, nofun⟩

theorem wfControl_writeOneToClear {st : Status} {p : Pend} {cmd : Word} (h : WfControl st p cmd) (v : Word) :
    WfControl (st.writeOneToClear v) p cmd := by
  refine ⟨h.busyPend, fun hb => ?_, fun he => ?_, fun he => ?_, h.pendCmd⟩
  · obtain ⟨hDone, hErr⟩ := h.busyClear hb
    simp [Status.writeOneToClear, hDone, hErr]
  · cases hv : v.getLsbD 2 with
    | true => simp only [Status.writeOneToClear, hv, if_true]
    | false =>
      simp only [Status.writeOneToClear, hv, Bool.not_false, Bool.and_true, Bool.false_eq_true, if_false] at he ⊢
      exact h.errZero he
  · simp only [Status.writeOneToClear, Bool.and_eq_true, Bool.not_eq_true'] at he ⊢
    obtain ⟨hErr, hv⟩ := he
    rw [if_neg (by rw [hv]; exact Bool.false_ne_true)]
    exact h.errRange hErr

/-! The operations. -/

theorem inv_commitOk {i : Instr} {s : State} {S : Staged} (h : Inv s) (hS : evalOf i s = .ok S) : Inv (commitOk S s) := by
  obtain ⟨hc, hm, -⟩ := (inv_iff s).1 h
  exact (inv_iff _).2 ⟨hc, wfMemory_writeOut hc hm S.out (evalOf_out_length hc hS), wfControl_commitOk _ s.cmd⟩

theorem inv_commitErr {s : State} (h : Inv s) (c : ErrorCode) : Inv (commitErr c s) := by
  obtain ⟨hc, hm, -⟩ := (inv_iff s).1 h
  exact (inv_iff _).2 ⟨hc, hm, wfControl_commitErr c _ s.cmd⟩

theorem inv_issue {s : State} (h : Inv s) (w : Word) : Inv (issue w s) := by
  obtain ⟨hc, hm, -⟩ := (inv_iff s).1 h
  exact (inv_iff _).2 ⟨hc, hm, wfControl_issue w _⟩

theorem inv_softReset {s : State} (h : Inv s) : Inv (softReset s) := by
  obtain ⟨hc, hm, -⟩ := (inv_iff s).1 h
  exact (inv_iff _).2 ⟨hc, hm, wfControl_reset⟩

theorem inv_hardReset {s : State} (h : s.cfg.wf = true) : Inv (hardReset s) :=
  (inv_iff _).2 ⟨h, wfMemory_nil s.cfg, wfControl_reset⟩

/-- `Inv` does not read the operand registers, CTRL, RESULT, AC0 to AC2 and the model's own two fields. -/
theorem Inv.of_eq {s t : State} (h : Inv s) (hcfg : t.cfg = s.cfg) (hmem : t.mem = s.mem) (hst : t.status = s.status)
    (hpend : t.pend = s.pend) (hcmd : t.cmd = s.cmd) : Inv t := by
  rw [inv_iff, hcfg, hmem, hst, hpend, hcmd, ← inv_iff]
  exact h

/-- Taking an event from the inbox keeps the state well-formed. -/
theorem inv_inbox {s : State} (h : Inv s) (l : List Event) : Inv { s with inbox := l } :=
  h.of_eq rfl rfl rfl rfl rfl

theorem inv_writeReg {s : State} (h : Inv s) (r : Reg) (v : Word) : Inv (writeReg r v s) := by
  rcases writeReg_cases r v s with e | ⟨-, -, e⟩ | ⟨-, -, e⟩ | ⟨-, hIdle⟩
  · rwa [e]
  · rw [e]; exact inv_softReset h
  · rw [e]; exact h.of_eq rfl rfl rfl rfl rfl
  · rcases hIdle with ⟨-, e⟩ | ⟨-, e⟩ | hOperand
    · obtain ⟨hc, hm, hs⟩ := (inv_iff s).1 h
      rw [e]
      exact (inv_iff _).2 ⟨hc, hm, wfControl_writeOneToClear hs v⟩
    · rw [e]; exact inv_issue h v
    · rcases hOperand with ⟨-, e⟩ | ⟨-, e⟩ | ⟨-, e⟩ | ⟨-, e⟩ | ⟨-, e⟩ | ⟨-, e⟩ | ⟨-, e⟩ | ⟨-, e⟩ <;>
        rw [e] <;> exact h.of_eq rfl rfl rfl rfl rfl

theorem inv_memWrite {s : State} (h : Inv s) (a n : Nat) (v : Word) : Inv (memWrite s a n v) := by
  rcases memWrite_cases s a n v with e | ⟨r, -, e⟩ | ⟨-, -, e⟩
  · rwa [e]
  · rw [e]; exact inv_writeReg h r v
  · obtain ⟨hc, hm, hs⟩ := (inv_iff s).1 h
    rw [e]
    exact (inv_iff _).2 ⟨hc, wfMemory_writeElems hm a n v, hs⟩

theorem hostStep_keeps_inv {a : HostAccess} {s t : State} (h : Inv s) (hs : hostStep a s = .next t) : Inv t := by
  rcases hostStep_next hs with rfl | ⟨v, rfl⟩ | ⟨o, n, v, -, -, rfl⟩
  · exact h
  · exact h.of_eq rfl rfl rfl rfl rfl
  · exact inv_memWrite h o n v

theorem engineStep_keeps_inv {s t : State} (h : Inv s) (hs : engineStep s = .next t) : Inv t := by
  rcases engineStep_next hs with ⟨-, rfl⟩ | ⟨w, i, S, -, -, hS, rfl⟩ | ⟨w, c, -, rfl⟩
  · exact h
  · exact inv_commitOk h hS
  · exact inv_commitErr h c

theorem step_keeps_inv {s t : State} (h : Inv s) (hs : step s = .next t) : Inv t := by
  rcases step_next hs with ⟨-, hEngine⟩ | ⟨a, rest, -, hHost⟩ | ⟨rest, -, rfl⟩
  · exact engineStep_keeps_inv (inv_inbox h _) hEngine
  · exact hostStep_keeps_inv (inv_inbox h rest) hHost
  · exact inv_hardReset h.cfgWf

/-- Settles O44, by the three kinds of step and the operations each of them is made of. -/
theorem stepKeepsWellFormed : Obligations.StepKeepsWellFormed :=
  fun _ _ h hs => step_keeps_inv h hs

/-- `WHITEN_SEQ` is the one default table that is too long for `decide` to count. -/
theorem Config.default_wf : Config.default.wf = true := by
  have hSeq : Config.default.whitenSeqOk = true := by
    simp [Config.whitenSeqOk, Config.default, Config.defaultWhitenSeq, bits01]
  simp only [Config.wf, hSeq]
  decide

/-- Settles O43: the reset state has the default configuration, no marks and STATUS 0. -/
theorem resetIsWellFormed : Obligations.ResetIsWellFormed :=
  (inv_iff _).2 ⟨Config.default_wf, wfMemory_nil _, wfControl_reset⟩

end Sys2Proof.Machine
end

section
/-! When a command is the model fault `UnwrittenRead` (10_state.md R29; log 7). -/

namespace Sys2Proof.Machine

/-- A command that continues a scan is the fault when the scan is, or when it is on the bits read. -/
theorem Scan.onBits_eq_unwritten (r : Scan) (k : List Bool → Evaluation) :
    r.onBits k = .unwritten ↔ r = .unwritten ∨ ∃ bs, r = .bits bs ∧ k bs = .unwritten := by
  cases r <;> simp

theorem finish_ne_unwritten (i : Instr) (s : State) (bs g : List Bool) : finish i s bs g ≠ .unwritten := by
  rcases finish_cases i s bs g with ⟨S, e⟩ | ⟨-, e⟩ <;> simp [e]

theorem exec_eq_unwrittenRead (i : Instr) (s : State) : exec i s = .fault .unwrittenRead ↔ evalOf i s = .unwritten :=
  ⟨fun h => (exec_fault h).2, fun h => by rw [exec_eq_commit, h, commit_unwritten]⟩

/-- Past PARAM and RANGE a command is the fault when the scan of IN is, or, IN holding bits, the scan of GEN. -/
theorem evalOf_eq_unwritten {i : Instr} {s : State} (hp : ¬paramTable i s) (hr : ¬rangeTable i s) :
    evalOf i s = .unwritten ↔
      s.scanIn (checkedIn i s) = .unwritten ∨
        (∃ bs, s.scanIn (checkedIn i s) = .bits bs) ∧ s.scanGen (checkedGen i s) = .unwritten := by
  simp only [evalOf_scan hp hr, Scan.onBits_eq_unwritten, finish_ne_unwritten, and_false, exists_false, or_false,
    exists_and_right]

/-- Settles O13: PARAM and RANGE come first, then the scans, each of which says which element stops it. -/
theorem unwrittenReadFaultExactly : Obligations.UnwrittenReadFaultExactly := by
  intro i s
  rw [exec_eq_unwrittenRead]
  by_cases hp : paramTable i s
  · simp [hp, evalOf_param hp]
  by_cases hr : rangeTable i s
  · simp [hr, evalOf_range hp hr]
  rw [evalOf_eq_unwritten hp hr, scanIn_eq_unwritten, scanIn_bits_iff, scanGen_eq_unwritten]
  simp [hp, hr]

end Sys2Proof.Machine
end

section
/-! What can change STATUS.MATCH (10_state.md R40). -/

namespace Sys2Proof.Machine

/-- No command but ACMATCH stages MATCH (60_exceptions.md R62). -/
theorem evalOf_matchFlag {i : Instr} {s : State} {S : Staged} (h : evalOf i s = .ok S) (hi : i ≠ .acmatch) :
    S.matchFlag = none := by
  cases i with
  | nop => cases h; rfl
  | a2h => obtain ⟨-, bs, -, rfl⟩ := evalA2h_ok h; rfl
  | h2a => obtain ⟨-, rfl⟩ := evalH2a_ok h; rfl
  | lfsr => obtain ⟨-, -, data, g, -, -, -, rfl⟩ := evalLfsr_ok h; rfl
  | acgen => obtain rfl := evalAcgen_ok h; rfl
  | acmatch => exact absurd rfl hi
  | unwhiten => obtain ⟨-, bs, -, rfl⟩ := evalUnwhiten_ok h; rfl
  | fec13 => obtain ⟨-, bs, -, rfl⟩ := evalFec13_ok h; rfl
  | fec23 => obtain ⟨-, bs, d, -, -, rfl⟩ := evalFec23_ok h; rfl
  | crc16 => obtain ⟨bs, -, rfl⟩ := evalCrc16_ok h; rfl

/-- The engine changes MATCH only in a successful ACMATCH. -/
theorem engineStep_matchFlag {s t : State} (h : engineStep s = .next t)
    (hm : t.status.matchFlag ≠ s.status.matchFlag) : s.pend = .busy 5 ∧ t.status.errFlag = false := by
  rcases engineStep_next h with ⟨-, rfl⟩ | ⟨w, i, S, hp, hd, hS, rfl⟩ | ⟨w, c, -, rfl⟩
  · exact absurd rfl hm
  · by_cases hi : i = .acmatch
    · have hw : w = 5 := by rw [(decodeWord_eq_ok w i).1 hd, hi]; rfl
      exact ⟨hw ▸ hp, rfl⟩
    · exact absurd (by simp [evalOf_matchFlag hS hi]) hm
  · exact absurd rfl hm

/-- A register write changes MATCH only as a soft reset. -/
theorem writeReg_matchFlag {r : Reg} {v : Word} {s : State}
    (hm : (writeReg r v s).status.matchFlag ≠ s.status.matchFlag) :
    r = .ctrl ∧ v.getLsbD 1 = true ∧ (writeReg r v s).status.matchFlag = false := by
  rcases writeReg_cases r v s with e | ⟨hr, hv, e⟩ | ⟨-, -, e⟩ | ⟨-, hIdle⟩
  · exact absurd (by rw [e]) hm
  · exact ⟨hr, hv, by rw [e, softReset_status]; rfl⟩
  · exact absurd (by rw [e]) hm
  · refine absurd ?_ hm
    rcases hIdle with ⟨-, e⟩ | ⟨-, e⟩ | ⟨-, e⟩ | ⟨-, e⟩ | ⟨-, e⟩ | ⟨-, e⟩ | ⟨-, e⟩ | ⟨-, e⟩ | ⟨-, e⟩ | ⟨-, e⟩ <;>
      rw [e] <;> rfl

/-- A host access changes MATCH only as a write of CTRL with bit 1 set. -/
theorem hostStep_matchFlag {a : HostAccess} {s t : State} (h : hostStep a s = .next t)
    (hm : t.status.matchFlag ≠ s.status.matchFlag) :
    t.status.matchFlag = false ∧ ∃ v, a = .write (s.cfg.base + 0x004) 4 v ∧ v.getLsbD 1 = true := by
  rcases hostStep_next h with rfl | ⟨v, rfl⟩ | ⟨o, n, v, rfl, hl, rfl⟩
  · exact absurd rfl hm
  · exact absurd rfl hm
  · rcases memWrite_cases s o n v with e | ⟨r, rfl, e⟩ | ⟨-, -, e⟩
    · exact absurd (by rw [e]) hm
    · rw [e] at hm ⊢
      obtain ⟨rfl, hv, hclear⟩ := writeReg_matchFlag hm
      have hn : n = 4 := by
        have := (legalAccess_iff Reg.ctrl.byteOffset n).1 hl
        simp only [Reg.byteOffset] at this
        omega
      exact ⟨hclear, v, by rw [hn]; rfl, hv⟩
    · exact absurd (by rw [e]) hm

/-- Settles O40, by the three kinds of step. -/
theorem matchWrittenOnlyByAcmatch : Obligations.MatchWrittenOnlyByAcmatch := by
  intro s t h hm
  rcases step_next h with ⟨hTurn, hEngine⟩ | ⟨a, rest, hInbox, hHost⟩ | ⟨rest, hInbox, rfl⟩
  · obtain ⟨hp, hErr⟩ := engineStep_matchFlag hEngine hm
    exact .inl ⟨hTurn, hp, hErr⟩
  · obtain ⟨hclear, v, rfl, hv⟩ := hostStep_matchFlag hHost hm
    exact .inr (.inr ⟨hclear, rest, v, hInbox, hv⟩)
  · exact .inr (.inl ⟨rfl, rest, hInbox⟩)

end Sys2Proof.Machine
end

section
/-! What a host read of the register region returns (20_memory.md R46, 10_state.md R19, R21). -/

namespace Sys2Proof.Machine

theorem regionOf_registers {x : Nat} (h : x < inBase) : regionOf x = .registers := if_pos h

/-- A byte of the register region is a byte of the aligned word it lies in (20_memory.md R46, R48). -/
theorem readByte_regionWord (s : State) {a j : Nat} (ha : a % 4 = 0) (hj : j < 4) (hr : a + j < inBase) :
    readByte s (a + j) = some ((regionWord a s).extractLsb' (8 * j) 8) := by
  have hmod : (a + j) % 4 = j := by omega
  simp only [readByte, regionOf_registers hr, hmod, Nat.add_sub_cancel]

/-- A byte put below the bytes above it (20_memory.md R48). -/
theorem shiftRight_push_byte (w : Word) (k : Nat) :
    (w >>> (k + 8)) <<< 8 ||| (w.extractLsb' k 8).setWidth 32 = w >>> k := by
  ext i hi
  by_cases h : i < 8
  · simp [h]
  · have e : k + 8 + (i - 8) = k + i := by omega
    simp [h, e]

/-- A word put together again from its four bytes, the lowest least significant (20_memory.md R48). -/
theorem word_of_bytes (w : Word) :
    ((((0 : Word) <<< 8 ||| (w.extractLsb' 24 8).setWidth 32) <<< 8 ||| (w.extractLsb' 16 8).setWidth 32) <<< 8
      ||| (w.extractLsb' 8 8).setWidth 32) <<< 8 ||| (w.extractLsb' 0 8).setWidth 32 = w := by
  have h : (0 : Word) = w >>> 32 := (BitVec.ushiftRight_eq_zero le_rfl).symm
  rw [h, shiftRight_push_byte w 24, shiftRight_push_byte w 16, shiftRight_push_byte w 8, shiftRight_push_byte w 0,
    BitVec.ushiftRight_zero]
/-- A read of a word of the register region (20_memory.md R46). -/
theorem memRead_regionWord (s : State) {a : Nat} (ha : a % 4 = 0) (hr : a < inBase) :
    memRead s a 4 = some (regionWord a s) := by
  have hlast : a + 3 < inBase := by simp only [inBase] at *; omega
  have hbyte : ∀ j < 4, readByte s (a + j) = some ((regionWord a s).extractLsb' (8 * j) 8) :=
    fun j hj => readByte_regionWord s ha hj (by omega)
  have h0 := hbyte 0 (by decide)
  rw [Nat.add_zero] at h0
  simp only [memRead, Nat.add_assoc, Nat.reduceAdd, h0, hbyte 1 (by decide), hbyte 2 (by decide), hbyte 3 (by decide),
    Nat.reduceMul, word_of_bytes]

/-- A step with a host read of an aligned word of the register region. -/
theorem step_readRegionWord (s : State) (rest : List Event) {a : Nat} (ha : a % 4 = 0) (hr : a < inBase) :
    step { s with inbox := readEvent s.cfg a 4 :: rest } =
      .next { s with inbox := rest, readLog := regionWord a s :: s.readLog } := by
  have hl : legalAccess a 4 = true := (legalAccess_iff a 4).2 (.inl ⟨hr, rfl, ha⟩)
  rw [step_readEvent s 4 rest (hr.trans (by decide)), if_pos hl, hostRead, memRead_regionWord _ ha hr]
  rfl

theorem regionWord_byteOffset (r : Reg) (s : State) : regionWord r.byteOffset s = readReg r s := by
  rw [regionWord, regAt_byteOffset]

/-- A step with a host read of a register. -/
theorem step_readReg (s : State) (r : Reg) (rest : List Event) :
    step { s with inbox := readEvent s.cfg r.byteOffset 4 :: rest } =
      .next { s with inbox := rest, readLog := readReg r s :: s.readLog } := by
  have h : r.byteOffset % 4 = 0 ∧ r.byteOffset < inBase := by cases r <;> decide
  rw [step_readRegionWord s rest h.1 h.2, regionWord_byteOffset]

/-- CTRL as a number (10_state.md R23). -/
theorem ofNat_eq_ctrlWord (s : State) : BitVec.ofNat 32 s.irqEn.toNat = s.ctrlWord := by
  unfold State.ctrlWord
  cases s.irqEn <;> rfl

/-- STATUS as a number, field by field (10_state.md R24): 256 values of the five fields. -/
theorem ofNat_eq_statusWord (st : Status) :
    BitVec.ofNat 32 (st.busy.toNat + 2 * st.doneFlag.toNat + 4 * st.errFlag.toNat + 8 * st.matchFlag.toNat +
      16 * st.errCode.toNat) = st.word := by
  obtain ⟨busy, done, err, mflag, code⟩ := st
  unfold Status.word
  revert busy done err mflag code
  decide

/-- Settles O47, register by register, each at its offset of the map. -/
theorem registerReadsFollowMap : Obligations.RegisterReadsFollowMap := by
  refine fun s rest => ⟨?_, fun a hlo hhi ha => ?_⟩
  · have hReg : ∀ (r : Reg) (v : Nat), BitVec.ofNat 32 v = readReg r s →
        step { s with inbox := readEvent s.cfg r.byteOffset 4 :: rest } =
          .next { s with inbox := rest, readLog := BitVec.ofNat 32 v :: s.readLog } :=
      fun r v hv => hv ▸ step_readReg s r rest
    have hWord : ∀ x : Word, BitVec.ofNat 32 x.toNat = x := fun x => by rw [BitVec.ofNat_toNat, BitVec.setWidth_eq]
    have hField : ∀ {n : Nat} (x : BitVec n), BitVec.ofNat 32 x.toNat = x.setWidth 32 := BitVec.ofNat_toNat 32
    simp only [List.forall_mem_cons]
    exact ⟨hReg .id _ rfl, hReg .ctrl _ (ofNat_eq_ctrlWord s), hReg .status _ (ofNat_eq_statusWord s.status),
      hReg .cmd _ (hWord _), hReg .len _ (hField _), hReg .offset _ (hField _),
      hReg .klen _ (hField _), hReg .lap _ (hField _), hReg .uap _ (hField _),
      hReg .clk _ (hWord _), hReg .skip _ (hField _), hReg .value _ (hWord _),
      hReg .result _ (hWord _), hReg .ac0 _ (hWord _), hReg .ac1 _ (hWord _),
      hReg .ac2 _ (hField _), List.forall_mem_nil _⟩
  · rw [step_readRegionWord s rest ha hhi, regionWord, regAt_reserved hlo]

end Sys2Proof.Machine
end

section
/-! Runs that read no buffer element (10_state.md R29, 20_memory.md R45). What a step does to the inbox and to PEND is said
once for all steps; then the states whose pending word and inbox are harmless are shown to step, and to step only into
such states. -/

namespace Sys2Proof.Machine

/-! The inbox and PEND under a step. -/

@[simp] theorem writeReg_inbox (r : Reg) (v : Word) (s : State) : (writeReg r v s).inbox = s.inbox := by
  rcases writeReg_cases r v s with e | ⟨-, -, e⟩ | ⟨-, -, e⟩ | ⟨-, hIdle⟩
  · rw [e]
  · rw [e, softReset_inbox]
  · rw [e]
  · rcases hIdle with ⟨-, e⟩ | ⟨-, e⟩ | ⟨-, e⟩ | ⟨-, e⟩ | ⟨-, e⟩ | ⟨-, e⟩ | ⟨-, e⟩ | ⟨-, e⟩ | ⟨-, e⟩ | ⟨-, e⟩ <;>
      simp [e]

@[simp] theorem memWrite_inbox (s : State) (a n : Nat) (v : Word) : (memWrite s a n v).inbox = s.inbox := by
  rcases memWrite_cases s a n v with e | ⟨r, -, e⟩ | ⟨-, -, e⟩
  · rw [e]
  · rw [e, writeReg_inbox]
  · rw [e]

theorem hostStep_keeps_inbox {a : HostAccess} {s t : State} (h : hostStep a s = .next t) : t.inbox = s.inbox := by
  rcases hostStep_next h with rfl | ⟨v, rfl⟩ | ⟨o, n, v, -, -, rfl⟩
  · rfl
  · rfl
  · exact memWrite_inbox s o n v

theorem engineStep_keeps_inbox {s t : State} (h : engineStep s = .next t) : t.inbox = s.inbox := by
  rcases engineStep_next h with ⟨-, rfl⟩ | ⟨w, i, S, -, -, -, rfl⟩ | ⟨w, c, -, rfl⟩
  · rfl
  · exact commitOk_inbox S s
  · exact commitErr_inbox c s

/-- Every step takes exactly the oldest event. -/
theorem step_inbox {s t : State} (h : step s = .next t) : t.inbox = s.inbox.tail := by
  rcases step_next h with ⟨-, hEngine⟩ | ⟨a, rest, hi, hHost⟩ | ⟨rest, hi, rfl⟩
  · exact (engineStep_keeps_inbox hEngine :)
  · rw [hi]; exact (hostStep_keeps_inbox hHost :)
  · rw [hi]; rfl

/-- The engine's turn leaves PEND Idle (60_exceptions.md R62). -/
theorem engineStep_pend {s t : State} (h : engineStep s = .next t) : t.pend = .idle := by
  rcases engineStep_next h with ⟨hp, rfl⟩ | ⟨w, i, S, -, -, -, rfl⟩ | ⟨w, c, -, rfl⟩
  · exact hp
  · exact commitOk_pend S s
  · exact commitErr_pend c s

theorem writeReg_pend (r : Reg) (v : Word) (s : State) :
    (writeReg r v s).pend = s.pend ∨ (writeReg r v s).pend = .idle ∨ (r = .cmd ∧ (writeReg r v s).pend = .busy v) := by
  rcases writeReg_cases r v s with e | ⟨-, -, e⟩ | ⟨-, -, e⟩ | ⟨-, ⟨-, e⟩ | ⟨hr, e⟩ | hOperand⟩
  · exact .inl (by rw [e])
  · exact .inr (.inl (by rw [e, softReset_pend]))
  · exact .inl (by rw [e])
  · exact .inl (by rw [e])
  · exact .inr (.inr ⟨hr, by rw [e, issue_pend]⟩)
  · refine .inl ?_
    rcases hOperand with ⟨-, e⟩ | ⟨-, e⟩ | ⟨-, e⟩ | ⟨-, e⟩ | ⟨-, e⟩ | ⟨-, e⟩ | ⟨-, e⟩ | ⟨-, e⟩ <;> rw [e]

/-- PEND takes a new word only from a host write of CMD (60_exceptions.md R61). -/
theorem hostStep_pend {a : HostAccess} {s t : State} (h : hostStep a s = .next t) :
    t.pend = s.pend ∨ t.pend = .idle ∨ ∃ n v, a = .write (s.cfg.base + 0x00C) n v ∧ t.pend = .busy v := by
  rcases hostStep_next h with rfl | ⟨v, rfl⟩ | ⟨o, n, v, rfl, -, rfl⟩
  · exact .inl rfl
  · exact .inl rfl
  · rcases memWrite_cases s o n v with e | ⟨r, rfl, e⟩ | ⟨-, -, e⟩
    · exact .inl (by rw [e])
    · rw [e]
      rcases writeReg_pend r v s with hp | hp | ⟨rfl, hp⟩
      · exact .inl hp
      · exact .inr (.inl hp)
      · exact .inr (.inr ⟨n, v, rfl, hp⟩)
    · exact .inl (by rw [e])

theorem step_pend {s t : State} (h : step s = .next t) :
    t.pend = s.pend ∨ t.pend = .idle ∨ ∃ n v rest, s.inbox = writeEvent s.cfg 0x00C n v :: rest ∧ t.pend = .busy v := by
  rcases step_next h with ⟨-, hEngine⟩ | ⟨a, rest, hi, hHost⟩ | ⟨rest, -, rfl⟩
  · exact .inr (.inl (engineStep_pend hEngine))
  · rcases hostStep_pend hHost with hp | hp | ⟨n, v, rfl, hp⟩
    · exact .inl hp
    · exact .inr (.inl hp)
    · exact .inr (.inr ⟨n, v, rest, hi, hp⟩)
  · exact .inr (.inl rfl)

/-! Safe runs. -/

/-- States that step, and step only into such states, are safe. -/
theorem safeState_of_invariant {P : State → Prop} (hP : ∀ s, P s → ∃ t, step s = .next t ∧ P t) {s : State} (hs : P s) :
    SafeState s := by
  intro k
  induction k generalizing s with
  | zero => exact ⟨s, rfl⟩
  | succ k ih =>
    obtain ⟨t, hstep, ht⟩ := hP s hs
    obtain ⟨u, hrun⟩ := ih ht
    exact ⟨u, (run_succ_next hstep).trans hrun⟩

/-- A command word that reads no buffer element: NOP, H2A, ACGEN, or an illegal word. -/
def HarmlessWord (w : Word) : Prop := w ∈ [encode .nop, encode .h2a, encode .acgen] ∨ 10 ≤ w.toNat

/-- An event that reads no buffer element: an engine turn, a reset, a register read, or a legal write that issues at most a
harmless word. -/
def HarmlessEvent (c : Config) (e : Event) : Prop :=
  e = .engine ∨ e = .hardReset ∨ (∃ r : Reg, e = readEvent c r.byteOffset 4) ∨
    ∃ a n v, e = writeEvent c a n v ∧ a < 0x4000 ∧
      ((a < 0x1000 ∧ n = 4 ∧ a % 4 = 0) ∨ (0x1000 ≤ a ∧ (n = 1 ∨ n = 2 ∨ n = 4) ∧ a % n = 0)) ∧
      (a = 0x00C → HarmlessWord v)

/-- Nothing pending and nothing still to happen reads a buffer element. -/
structure HarmlessState (s : State) : Prop where
  pend : ∀ w, s.pend = .busy w → HarmlessWord w
  inbox : ∀ e ∈ s.inbox, HarmlessEvent s.cfg e

/-- A command whose ranges are empty has a next state: its only fault is an element it reads (10_state.md R29). -/
theorem exec_next_of_no_reads {i : Instr} {s : State} (hin : checkedIn i s = 0) (hgen : checkedGen i s = 0) :
    ∃ t, exec i s = .next t := by
  cases h : exec i s with
  | next t => exact ⟨t, rfl⟩
  | refused r => exact absurd h (exec_ne_refused i s r)
  | fault f =>
    rw [(exec_fault h).1, unwrittenReadFaultExactly, hin, hgen] at h
    simp at h

theorem engineStep_next_of_harmless {s : State} (h : ∀ w, s.pend = .busy w → HarmlessWord w) :
    ∃ t, engineStep s = .next t := by
  cases hp : s.pend with
  | idle => exact ⟨s, engineStep_idle hp⟩
  | busy w =>
    rcases h w hp with hw | hw
    · have hNoReads : ∃ i, w = encode i ∧ checkedIn i s = 0 ∧ checkedGen i s = 0 := by
        simp only [List.mem_cons, List.not_mem_nil, or_false] at hw
        rcases hw with e | e | e <;> exact ⟨_, e, rfl, rfl⟩
      obtain ⟨i, hi, hin, hgen⟩ := hNoReads
      rw [engineStep_ok hp ((decodeWord_eq_ok w i).2 hi)]
      exact exec_next_of_no_reads hin hgen
    · obtain ⟨e, he⟩ := (decodeWord_eq_error w).2 hw
      exact ⟨_, engineStep_error hp he⟩

theorem State.with_inbox_eq {s : State} {l : List Event} (h : s.inbox = l) : { s with inbox := l } = s := by
  subst h; rfl

theorem step_next_of_harmless {s : State} (h : HarmlessState s) : ∃ t, step s = .next t := by
  cases hi : s.inbox with
  | nil => exact step_empty hi ▸ engineStep_next_of_harmless h.pend
  | cons e rest =>
    have hs := State.with_inbox_eq hi
    rcases h.inbox e (hi ▸ List.mem_cons_self) with rfl | rfl | ⟨r, rfl⟩ | ⟨a, n, v, rfl, ha, hl, -⟩
    · rw [step_event hi]
      exact engineStep_next_of_harmless (s := { s with inbox := rest }) h.pend
    · exact ⟨_, step_event hi⟩
    · exact ⟨_, hs ▸ step_readReg s r rest⟩
    · have hstep := step_writeEvent s n v rest ha
      rw [hs, if_pos ((legalAccess_iff a n).2 hl)] at hstep
      exact ⟨_, hstep⟩

/-- A write of CMD among harmless events carries a harmless word. -/
theorem harmlessWord_of_cmdWrite {c : Config} {n : Nat} {v : Word} (h : HarmlessEvent c (writeEvent c 0x00C n v)) :
    HarmlessWord v := by
  rcases h with h | h | ⟨r, h⟩ | ⟨a, m, u, h, -, -, hu⟩
  · cases h
  · cases h
  · cases h
  · simp only [writeEvent, Event.access.injEq, HostAccess.write.injEq, Nat.add_left_cancel_iff] at h
    obtain ⟨ha, -, rfl⟩ := h
    exact hu ha.symm

theorem step_keeps_harmless {s t : State} (h : HarmlessState s) (hs : step s = .next t) : HarmlessState t := by
  refine ⟨fun w hw => ?_, fun e he => ?_⟩
  · rcases step_pend hs with hp | hp | ⟨n, v, rest, hi, hp⟩ <;> rw [hp] at hw
    · exact h.pend w hw
    · cases hw
    · cases hw
      exact harmlessWord_of_cmdWrite (h.inbox _ (hi ▸ List.mem_cons_self))
  · rw [step_inbox hs] at he
    rw [step_keeps_cfg hs]
    exact h.inbox e (List.mem_of_mem_tail he)

/-- Settles O58: harmless states step, and step only into harmless states. -/
theorem runsWithoutBufferReadsAreSafe : Obligations.RunsWithoutBufferReadsAreSafe := by
  intro s harmless hPend hInbox
  refine safeState_of_invariant (P := HarmlessState) (fun u hu => ?_) ⟨hPend, hInbox⟩
  obtain ⟨t, ht⟩ := step_next_of_harmless hu
  exact ⟨t, ht, step_keeps_harmless hu ht⟩

end Sys2Proof.Machine
end

section
/-! The default tables (10_state.md R36 to R39, PRESUMED values, log 12): the syndrome table, and the whitening register
behind the whitening sequence. The seven stages of the register are linear in the next seven outputs, so the state that
goes with an index of the sequence is read off the sequence (`whitenState`); the register's step is then a step of the
index, which is checked once round the period of 127. -/

namespace Sys2Proof.Machine

/-- Settles O34: the ten divisions of R39, carried out. -/
theorem defaultSyndromeTable : Obligations.DefaultSyndromeTable := by
  unfold Obligations.DefaultSyndromeTable
  decide

/-- The default sequence at an index, which wraps at 127 (43_whitener.md R120). -/
def whitenOut (j : Nat) : Bool := Config.default.whitenSeq.getD (j % 127) false

/-- The register whose outputs are the default sequence from index `j` on: `x[6]` is the output, `x[5]` and `x[4]` are the
next two, and stage 4 and those before it still wait for the feedback of R36. -/
def whitenState (j : Nat) : List Bool :=
  [whitenOut (j + 6) ^^ whitenOut (j + 3), whitenOut (j + 5) ^^ whitenOut (j + 2), whitenOut (j + 4) ^^ whitenOut (j + 1),
    whitenOut (j + 3) ^^ whitenOut j, whitenOut (j + 2), whitenOut (j + 1), whitenOut j]

/-- The recurrence of `D^7 + D^4 + 1` (10_state.md R36), once round the period. -/
theorem whitenOut_recurrence (j : Nat) : (whitenOut (j + 7) ^^ whitenOut (j + 4)) = whitenOut j := by
  have hPeriod : ∀ k < 127, (whitenOut (k + 7) ^^ whitenOut (k + 4)) = whitenOut k := by decide
  have h := hPeriod (j % 127) (Nat.mod_lt _ (by decide))
  simpa only [whitenOut, Nat.mod_add_mod, Nat.mod_mod] using h

theorem whitenRegStep_whitenState (j : Nat) : whitenRegStep (whitenState j) = whitenState (j + 1) := by
  have h := whitenOut_recurrence j
  simp [whitenRegStep, whitenState, Nat.add_assoc, h]

/-- `i` steps of the register are `i` steps along the sequence. -/
theorem whitenRegStep_iterate (i j : Nat) : whitenRegStep^[i] (whitenState j) = whitenState (j + i) := by
  induction i generalizing j with
  | zero => rfl
  | succ i ih => rw [Function.iterate_succ_apply, whitenRegStep_whitenState, ih, Nat.add_right_comm, Nat.add_assoc]

/-- A phase starts the register in the state of its index (10_state.md R37). -/
theorem whitenRegStart_eq {c : Nat} (h : c < 64) :
    whitenRegStart c = whitenState (Config.default.whitenIdx.getD c 0) := by
  have hPhase : ∀ c < 64, whitenRegStart c = whitenState (Config.default.whitenIdx.getD c 0) := by decide
  exact hPhase c h

/-- The register's outputs from a phase's start are the sequence from the phase's index (43_whitener.md R122). -/
theorem whitenRegOut_start {c : Nat} (h : c < 64) (i : Nat) :
    whitenRegOut (whitenRegStart c) i = whitenOut (Config.default.whitenIdx.getD c 0 + i) := by
  rw [whitenRegOut, whitenRegStart_eq h, whitenRegStep_iterate]
  rfl

/-- UNWHITEN on a range that holds bits, with room in OUT: each element of OUT is the input bit XORed with the sequence
(43_whitener.md R120). -/
theorem exec_unwhiten {s : State} {bs : List Bool} (hout : s.len.toNat ≤ s.cfg.outSize)
    (h : s.reads s.len.toNat bs) :
    ∃ t, exec .unwhiten s = .next t ∧ ∀ i < s.len.toNat, t.outElem i = some (bitByte (bs.getD i false ^^
      s.cfg.whitenSeq.getD ((whitenStart s.cfg s.clk.toNat s.skip.toNat + i) % 127) false)) := by
  have hin := h.2.1
  have hlen : bs.length = s.len.toNat := h.1
  have hr : ¬rangeTable .unwhiten s := by simp only [rangeTable]; omega
  have hE := evalOf_finish (i := .unwhiten) (g := []) (fun hp => hp) hr (State.reads_scanIn h).2 (scanGen_zero s)
  have hstart : whitenStart s.cfg s.clk.toNat s.skip.toNat < 127 := Nat.mod_lt _ (by decide)
  refine ⟨_, by rw [exec_eq_commit, hE]; rfl, fun i hi => ?_⟩
  have hi' : i < (unwhitenBits s.cfg.whitenSeq (whitenStart s.cfg s.clk.toNat s.skip.toNat) bs).length := by
    rwa [unwhitenBits_length, hlen]
  rw [commitOk_onlyOut, outElem_writeBytes, if_pos hi', ← unwhitenBits_getD _ bs _ i hstart (hlen ▸ hi),
    List.getElem?_eq_getElem hi', List.getD_eq_getElem _ _ hi', Option.map_some]

/-- Settles O30: the register's outputs from a phase's start, and UNWHITEN started SKIP places later. -/
theorem whiteningFollowsRegister : Obligations.WhiteningFollowsRegister := by
  refine ⟨fun c hc i => (whitenRegOut_start hc i).symm, fun s bs hSeq hIdx hout hReads => ?_⟩
  obtain ⟨t, ht, hElem⟩ := exec_unwhiten hout hReads
  refine ⟨t, ht, fun i hi => ?_⟩
  rw [hElem i hi, whitenRegOut_start (Nat.mod_lt _ (by decide)), hSeq, whitenStart, hIdx, Nat.mod_add_mod, Nat.add_assoc]
  rfl

end Sys2Proof.Machine
end

section
/-! What the engine's turn writes (20_memory.md R52, 10_state.md R17): the inputs never, and of memory only OUT, with
bits. -/

namespace Sys2Proof.Machine

theorem sameInputs_refl (s : State) : SameInputs s s :=
  ⟨rfl, rfl, rfl, rfl, rfl, rfl, rfl, rfl, rfl, rfl, rfl, rfl, rfl⟩

theorem sameInputs_commitOk (S : Staged) (s : State) : SameInputs s (commitOk S s) :=
  ⟨rfl, rfl, rfl, rfl, rfl, rfl, rfl, rfl, rfl, rfl, rfl, rfl, rfl⟩

theorem sameInputs_commitErr (c : ErrorCode) (s : State) : SameInputs s (commitErr c s) :=
  ⟨rfl, rfl, rfl, rfl, rfl, rfl, rfl, rfl, rfl, rfl, rfl, rfl, rfl⟩

/-- The engine's turn leaves every input (20_memory.md R52). -/
theorem engineStep_sameInputs {s t : State} (h : engineStep s = .next t) : SameInputs s t := by
  rcases engineStep_next h with ⟨-, rfl⟩ | ⟨w, i, S, -, -, -, rfl⟩ | ⟨w, c, -, rfl⟩
  · exact sameInputs_refl t
  · exact sameInputs_commitOk S s
  · exact sameInputs_commitErr c s

/-- Where writing bits to OUT changes memory, it is within the bits' range and leaves a bit there (10_state.md R17). -/
theorem OutWritten.isBit_of_ne {m m' : Memory} {bs : List Bool} (h : OutWritten m m' bs) {a : Nat}
    (ha : m'.read a ≠ m.read a) : outBase ≤ a ∧ a < outBase + bs.length ∧ isBit (m'.read a) := by
  have hread := h a
  split_ifs at hread with hin
  · refine ⟨hin.1, hin.2, (isBit_iff _).2 ⟨bs[a - outBase]'(by omega), ?_⟩⟩
    rw [hread, List.getElem?_eq_getElem (by omega), Option.map_some]
  · exact absurd hread ha

/-- The engine's turn changes memory only inside OUT, and only to a bit (20_memory.md R52, 10_state.md R17). -/
theorem engineStep_mem {s t : State} (hc : s.cfg.wf = true) (h : engineStep s = .next t) {a : Nat}
    (ha : t.mem.read a ≠ s.mem.read a) : outBase ≤ a ∧ a < outBase + s.cfg.outSize ∧ isBit (t.mem.read a) := by
  rcases engineStep_next h with ⟨-, rfl⟩ | ⟨w, i, S, -, -, hS, rfl⟩ | ⟨w, c, -, rfl⟩
  · exact absurd rfl ha
  · obtain ⟨hlo, hhi, hbit⟩ := (outWritten_writeBytes s.mem S.out).isBit_of_ne ha
    have hlen := evalOf_out_length hc hS
    exact ⟨hlo, by omega, hbit⟩
  · exact absurd rfl ha

/-- Settles O38: on its turn the step is the engine's, on the state with that turn taken from the inbox. -/
theorem engineWritesOnlyOutAndResults : Obligations.EngineWritesOnlyOutAndResults := by
  intro s t hc hTurn h
  rw [step_engineTurn hTurn] at h
  exact ⟨engineStep_sameInputs h, fun a ha => engineStep_mem (s := { s with inbox := s.inbox.tail }) hc h ha⟩

end Sys2Proof.Machine
end

section
/-! Which host accesses reach the block at all (20_memory.md R44, R45). -/

namespace Sys2Proof.Machine

/-- A host access outside the window does nothing (20_memory.md R44; log 9). -/
theorem hostStep_outside {s : State} {addr : Nat} (h : windowOffset s.cfg addr = none) (n : Nat) (v : Word) :
    hostStep (.read addr n) s = .next s ∧ hostStep (.write addr n v) s = .next s := by
  simp [hostStep, h]

/-- Settles O46, at the state with the access taken from the inbox. -/
theorem accessOutsideWindowHasNoEffect : Obligations.AccessOutsideWindowHasNoEffect :=
  fun s _ n v rest h => hostStep_outside (s := { s with inbox := rest }) (windowOffset_eq_none.2 h) n v

/-- A legal read's only fault is an element without its mark (20_memory.md R46). -/
theorem hostRead_ne_busError (s : State) (a n : Nat) : hostRead s a n ≠ .fault .busError := by
  unfold hostRead
  cases memRead s a n <;> simp

/-- Settles O45: a step with an access at an offset of the window asks first whether the access is legal. -/
theorem busErrorExactlyOnIllegalAccess : Obligations.BusErrorExactlyOnIllegalAccess := by
  intro s a n v rest ha
  simp only [step_readEvent s n rest ha, step_writeEvent s n v rest ha, ← legalAccess_iff a n]
  refine ⟨fun hl => ?_, fun hl => ?_⟩
  · rw [if_neg hl, if_neg hl]
    exact ⟨rfl, rfl, rfl, rfl⟩
  · rw [if_pos hl, if_pos hl]
    exact ⟨hostRead_ne_busError _ a n, _, rfl⟩

end Sys2Proof.Machine
end

section
/-! Host reads of the buffer windows (20_memory.md R46, R48, R49): what a value that is read says byte by byte, and which
bytes a window has. -/

namespace Sys2Proof.Machine

/-- A byte put below a value of at most three bytes, as a number (20_memory.md R48). -/
theorem push_byte_toNat {v : Word} (b : Byte) (hv : v.toNat < 2 ^ 24) :
    (v <<< 8 ||| b.setWidth 32).toNat = 2 ^ 8 * v.toNat + b.toNat := by
  have hb := b.isLt
  rw [BitVec.toNat_or, BitVec.toNat_shiftLeft, BitVec.toNat_setWidth, Nat.shiftLeft_eq, Nat.mod_eq_of_lt (by omega),
    Nat.mod_eq_of_lt (by omega), Nat.mul_comm, Nat.two_pow_add_eq_or_of_lt hb]

/-- The low byte is the byte that was put below. -/
theorem push_byte_low (v : Word) (b : Byte) : (v <<< 8 ||| b.setWidth 32).setWidth 8 = b := by
  ext i hi
  simp

/-- Above the low byte stands the value it was put below. -/
theorem push_byte_high {v : Word} (b : Byte) (hv : v.toNat < 2 ^ 24) : (v <<< 8 ||| b.setWidth 32) >>> 8 = v := by
  have hb := b.isLt
  apply BitVec.eq_of_toNat_eq
  rw [BitVec.toNat_ushiftRight, push_byte_toNat b hv, Nat.shiftRight_eq_div_pow]
  omega

/-- A read of `n` bytes gives a value of `n` bytes, the lowest offset least significant (20_memory.md R46, R48). -/
theorem memRead_bytes {s : State} {a n : Nat} {v : Word} (hn : n ≤ 4) (h : memRead s a n = some v) :
    v.toNat < 2 ^ (8 * n) ∧ ∀ j < n, readByte s (a + j) = some ((v >>> (8 * j)).setWidth 8) := by
  induction n generalizing a v with
  | zero => cases h; exact ⟨by decide, fun j hj => absurd hj (Nat.not_lt_zero j)⟩
  | succ n ih =>
    rw [memRead] at h
    split at h
    · next b u hb hu =>
      cases h
      obtain ⟨hlt, hbytes⟩ := ih (by omega) hu
      have hu24 : u.toNat < 2 ^ 24 := hlt.trans_le (Nat.pow_le_pow_right (by decide) (by omega))
      refine ⟨?_, fun j hj => ?_⟩
      · have := b.isLt
        rw [push_byte_toNat b hu24, Nat.mul_succ, Nat.pow_add]
        omega
      · cases j with
        | zero => rw [Nat.mul_zero, BitVec.ushiftRight_zero, push_byte_low, Nat.add_zero, hb]
        | succ j =>
          rw [Nat.mul_succ, Nat.add_comm (8 * j), BitVec.shiftRight_add, push_byte_high b hu24,
            ← hbytes j (by omega), Nat.add_assoc, Nat.add_comm 1]
    · cases h

/-- A byte of a buffer window, the three windows listed by first offset and size of the buffer (20_memory.md R44, R49):
the element, or 0 beyond the size. -/
theorem readByte_buffer (s : State) {base size x : Nat}
    (hw : (base, size) ∈ [(0x1000, s.cfg.inSize), (0x2000, s.cfg.outSize), (0x3000, s.cfg.genSize)])
    (hlo : base ≤ x) (hhi : x < base + 0x1000) :
    readByte s x = if x < base + size then s.mem.read x else some 0 := by
  have hsize : x - base < size ↔ x < base + size := by omega
  have hwindow : readByte s x = windowByte s.mem base size x := by
    simp only [List.mem_cons, Prod.mk.injEq, List.not_mem_nil, or_false] at hw
    rcases hw with ⟨rfl, rfl⟩ | ⟨rfl, rfl⟩ | ⟨rfl, rfl⟩
    · rw [readByte, regionOf_inWindow hlo hhi, inBase]
    · rw [readByte, regionOf_outWindow hlo hhi, outBase]
    · rw [readByte, regionOf_genWindow hlo, genBase]
  simp only [hwindow, windowByte, hsize]

/-- A legal access of a buffer window stays in it: the windows are aligned to every legal width (20_memory.md R45). -/
theorem legal_end_le {base a n : Nat} (hbase : base % 0x1000 = 0) (ha : a < base + 0x1000)
    (hn : n = 1 ∨ n = 2 ∨ n = 4) (hal : a % n = 0) : a + n ≤ base + 0x1000 := by
  rcases hn with rfl | rfl | rfl <;> omega

/-- Settles O48: each byte of the access is an element of the window, or 0 beyond the buffer's size. -/
theorem bufferReadsAreLittleEndian : Obligations.BufferReadsAreLittleEndian := by
  intro s rest a n base size hw hlo hhi hn hal
  have hbase : base % 0x1000 = 0 ∧ 0x1000 ≤ base ∧ base ≤ 0x3000 := by
    simp only [List.mem_cons, Prod.mk.injEq, List.not_mem_nil, or_false] at hw
    omega
  have hend := legal_end_le hbase.1 hhi hn hal
  have hbyte : ∀ j < n, readByte { s with inbox := rest } (a + j) =
      if a + j < base + size then s.mem.read (a + j) else some 0 := fun j hj =>
    readByte_buffer { s with inbox := rest } hw (by omega) (by omega)
  have hsome := memRead_isSome { s with inbox := rest } a n
  have hlegal : legalAccess a n = true := (legalAccess_iff a n).2 (.inr ⟨by omega, hn, hal⟩)
  rw [step_readEvent s n rest (by omega), if_pos hlegal, hostRead]
  refine ⟨fun hmarked => ?_, fun ⟨j, hj, hin, hnone⟩ => ?_⟩
  · obtain ⟨v, hv⟩ := Option.isSome_iff_exists.1 (hsome.2 fun j hj => by
      rw [hbyte j hj]
      split_ifs with hin
      · exact hmarked j hj hin
      · rfl)
    obtain ⟨hlt, hbytes⟩ := memRead_bytes (by omega) hv
    refine ⟨v, by rw [hv], hlt, fun j hj => ?_⟩
    have e := (hbytes j hj).symm.trans (hbyte j hj)
    split_ifs at e ⊢ with hin
    · rw [← e, Option.getD_some]
    · exact Option.some.inj e
  · have hv : memRead { s with inbox := rest } a n = none := by
      rw [← Option.not_isSome_iff_eq_none, hsome]
      intro h
      have := h j hj
      rw [hbyte j hj, if_pos hin, hnone] at this
      cases this
    rw [hv]

end Sys2Proof.Machine
end

section
/-! Host writes while Idle (20_memory.md R47 to R49), of registers and of the buffer windows. -/

namespace Sys2Proof.Machine

/-- A legal write at a register's offset is the write of that register. -/
theorem memWrite_of_regAt {a : Nat} {r : Reg} (h : regAt a = some r) (s : State) (n : Nat) (v : Word) :
    memWrite s a n v = writeReg r v s := by
  have hr : regionOf r.byteOffset = .registers := by cases r <;> rfl
  obtain rfl := byteOffset_of_regAt h
  simp only [memWrite, hr, h]

/-- A reserved offset ignores the write (20_memory.md R47). -/
theorem memWrite_reserved {a : Nat} (ha : a < inBase) (h : regAt a = none) (s : State) (n : Nat) (v : Word) :
    memWrite s a n v = s := by
  simp only [memWrite, regionOf_registers ha, h]

theorem regionOf_eq_registers {a : Nat} : regionOf a = .registers ↔ a < inBase := by
  unfold regionOf
  split_ifs <;> simp_all

/-- A legal write of a buffer window. -/
theorem memWrite_buffer {a : Nat} (ha : inBase ≤ a) (s : State) (n : Nat) (v : Word) :
    memWrite s a n v = whenIdle s { s with mem := writeElems s.cfg s.mem a n v } := by
  unfold memWrite
  split
  · next hr => exact absurd (regionOf_eq_registers.1 hr) (Nat.not_lt.2 ha)
  · rfl

/-- The write-1-to-clear of STATUS field by field (20_memory.md R47). -/
theorem Status.writeOneToClear_eq (v : Word) (st : Status) :
    st.writeOneToClear v =
      { busy := st.busy
        doneFlag := if v.getLsbD 1 then false else st.doneFlag
        errFlag := if v.getLsbD 2 then false else st.errFlag
        matchFlag := st.matchFlag
        errCode := if v.getLsbD 2 then 0 else st.errCode } := by
  unfold Status.writeOneToClear
  cases v.getLsbD 1 <;> cases v.getLsbD 2 <;> simp

/-- Settles O49, register by register, each at its offset of the map. -/
theorem registerWritesFollowTable : Obligations.RegisterWritesFollowTable := by
  refine fun s v rest hp => ⟨?_, fun a hlo hhi ha => ?_⟩
  · have hReg : ∀ (r : Reg) (t : State), writeReg r v { s with inbox := rest } = t →
        step { s with inbox := writeEvent s.cfg r.byteOffset 4 v :: rest } = .next t :=
      fun r t ht => ht ▸ step_writeReg s r v rest
    have hIdle : ∀ t, whenIdle { s with inbox := rest } t = t := fun t => whenIdle_idle hp
    simp only [List.forall_mem_cons, ← Status.writeOneToClear_eq, BitVec.ofNat_toNat]
    exact ⟨hReg .id _ rfl, hReg .result _ rfl, hReg .ac0 _ rfl, hReg .ac1 _ rfl, hReg .ac2 _ rfl,
      hReg .status _ (hIdle _), hReg .len _ (hIdle _), hReg .offset _ (hIdle _), hReg .klen _ (hIdle _),
      hReg .lap _ (hIdle _), hReg .uap _ (hIdle _), hReg .clk _ (hIdle _), hReg .skip _ (hIdle _),
      hReg .value _ (hIdle _), List.forall_mem_nil _⟩
  · rw [step_writeEvent s 4 v rest (by omega), if_pos ((legalAccess_iff a 4).2 (.inl ⟨hhi, rfl, ha⟩)),
      memWrite_reserved hhi (regAt_reserved hlo)]

/-- An offset whose element a host write reaches: one of IN or GEN (20_memory.md R47, R49). -/
abbrev HostWritable (c : Config) (x : Nat) : Prop :=
  (inBase ≤ x ∧ x < outBase ∧ x - inBase < c.inSize) ∨ (genBase ≤ x ∧ x - genBase < c.genSize)

/-- What a read gives after a host write of `n` bytes: in the range, byte `y - x` of the value where the host may write,
and everywhere else what was there before. -/
theorem writeElems_read (c : Config) (m : Memory) (x n : Nat) (v : Word) (y : Nat) :
    (writeElems c m x n v).read y =
      if (x ≤ y ∧ y < x + n) ∧ HostWritable c y then some ((v >>> (8 * (y - x))).setWidth 8) else m.read y := by
  induction n generalizing m x v with
  | zero => rw [if_neg (by omega)]; rfl
  | succ n ih =>
    rw [writeElems, ih, writeElem_read]
    by_cases hw : HostWritable c y
    · rcases Nat.lt_trichotomy y x with h | rfl | h
      · rw [if_neg (by omega), if_neg (by omega), if_neg (by omega)]
      · rw [if_neg (by omega), if_pos ⟨rfl, hw⟩, if_pos ⟨by omega, hw⟩, Nat.sub_self, Nat.mul_zero,
          BitVec.ushiftRight_zero]
      · have e : 8 + 8 * (y - (x + 1)) = 8 * (y - x) := by omega
        rw [← BitVec.shiftRight_add, e, if_neg (c := y = x ∧ _) (by omega)]
        exact if_congr (by simp only [hw, and_true]; omega) rfl rfl
    · have hx : ¬(y = x ∧ HostWritable c x) := fun ⟨e, h⟩ => hw (e ▸ h)
      rw [if_neg fun h => hw h.2, if_neg hx, if_neg fun h => hw h.2]

/-- Settles O50: the elements of the range that a host may write take the bytes of the value. -/
theorem bufferWritesAreLittleEndian : Obligations.BufferWritesAreLittleEndian := by
  intro s rest a n v hp hlo hhi hn hal
  refine ⟨writeElems s.cfg s.mem a n v, ?_, fun x => ?_⟩
  · rw [step_writeEvent s n v rest hhi, if_pos ((legalAccess_iff a n).2 (.inr ⟨hlo, hn, hal⟩)), memWrite_buffer hlo,
      whenIdle_idle (s := { s with inbox := rest }) hp]
  · have hbyte : (v >>> (8 * (x - a))).setWidth 8 = BitVec.ofNat 8 (v.toNat / 2 ^ (8 * (x - a))) := by
      rw [← BitVec.ofNat_toNat, BitVec.toNat_ushiftRight, Nat.shiftRight_eq_div_pow]
    rw [writeElems_read, hbyte]
    refine if_congr ?_ rfl rfl
    simp only [HostWritable, inBase, outBase, genBase]
    omega

end Sys2Proof.Machine
end

section
/-! Repeating an access at once (20_memory.md R51). A write that takes effect while Idle is idempotent when the change it
makes is, or when it ends with a command pending; a read depends on nothing that it changes. -/

namespace Sys2Proof.Machine

theorem whenIdle_twice (f : State → State) {s : State} (h : f (f s) = f s ∨ (f s).pend.isBusy = true) :
    whenIdle (whenIdle s (f s)) (f (whenIdle s (f s))) = whenIdle s (f s) := by
  cases hp : s.pend with
  | busy w => rw [whenIdle_busy hp, whenIdle_busy hp]
  | idle =>
    rw [whenIdle_idle hp]
    rcases h with h | h
    · rw [h, whenIdle, ite_self]
    · rw [whenIdle, if_pos h]

theorem Status.writeOneToClear_twice (v : Word) (st : Status) :
    (st.writeOneToClear v).writeOneToClear v = st.writeOneToClear v := by
  simp only [Status.writeOneToClear_eq]
  split_ifs <;> rfl

theorem writeReg_twice (r : Reg) (v : Word) (s : State) : writeReg r v (writeReg r v s) = writeReg r v s := by
  cases r with
  | id | result | ac0 | ac1 | ac2 => rfl
  | ctrl =>
    simp only [writeReg]
    split_ifs <;> rfl
  | status =>
    refine whenIdle_twice (fun s => { s with status := s.status.writeOneToClear v }) (.inl ?_)
    rw [Status.writeOneToClear_twice]
  | cmd => exact whenIdle_twice (issue v) (.inr rfl)
  | len => exact whenIdle_twice (fun s => { s with len := v.setWidth 16 }) (.inl rfl)
  | offset => exact whenIdle_twice (fun s => { s with offset := v.setWidth 16 }) (.inl rfl)
  | klen => exact whenIdle_twice (fun s => { s with klen := v.setWidth 16 }) (.inl rfl)
  | lap => exact whenIdle_twice (fun s => { s with lap := v.setWidth 24 }) (.inl rfl)
  | uap => exact whenIdle_twice (fun s => { s with uap := v.setWidth 8 }) (.inl rfl)
  | clk => exact whenIdle_twice (fun s => { s with clk := v }) (.inl rfl)
  | skip => exact whenIdle_twice (fun s => { s with skip := v.setWidth 16 }) (.inl rfl)
  | value => exact whenIdle_twice (fun s => { s with value := v }) (.inl rfl)

/-- The second write changes no read, and canonical memories that read alike are equal. -/
theorem writeElems_twice {c : Config} {m : Memory} (h : WfMemory c m) (x n : Nat) (v : Word) :
    writeElems c (writeElems c m x n v) x n v = writeElems c m x n v := by
  have h1 := wfMemory_writeElems h x n v
  refine Memory.eq_of_read_eq (wfMemory_writeElems h1 x n v).canonical h1.canonical fun y => ?_
  rw [writeElems_read, writeElems_read]
  split_ifs <;> rfl

theorem memWrite_twice {s : State} (h : WfMemory s.cfg s.mem) (a n : Nat) (v : Word) :
    memWrite (memWrite s a n v) a n v = memWrite s a n v := by
  rcases Nat.lt_or_ge a inBase with ha | ha
  · cases hr : regAt a with
    | none => rw [memWrite_reserved ha hr, memWrite_reserved ha hr]
    | some r => rw [memWrite_of_regAt hr, memWrite_of_regAt hr, writeReg_twice]
  · simp only [memWrite_buffer ha]
    refine whenIdle_twice (fun s => { s with mem := writeElems s.cfg s.mem a n v }) (.inl ?_)
    rw [writeElems_twice h]

/-- The value of a read depends on nothing of the model's own two fields. -/
theorem memRead_inbox_readLog (s : State) (l : List Event) (r : List Word) (a n : Nat) :
    memRead { s with inbox := l, readLog := r } a n = memRead s a n := by
  have hbyte : ∀ x, readByte { s with inbox := l, readLog := r } x = readByte s x := fun _ => rfl
  induction n generalizing a with
  | zero => rfl
  | succ n ih => rw [memRead, memRead, hbyte, ih]

/-- A read that completes returns the value read. -/
theorem hostRead_next {s t : State} {a n : Nat} (h : hostRead s a n = .next t) :
    ∃ x, memRead s a n = some x ∧ t = { s with readLog := x :: s.readLog } := by
  unfold hostRead at h
  split at h
  · next x hx => cases h; exact ⟨x, hx, rfl⟩
  · cases h

/-- A step with a host write at an offset of the window, for the base of a configuration known to be the state's. -/
theorem step_writeEvent_of_cfg {s : State} {c : Config} (hc : s.cfg = c) {a : Nat} (n : Nat) (v : Word)
    (rest : List Event) (ha : a < 0x4000) :
    step { s with inbox := writeEvent c a n v :: rest } =
      if legalAccess a n then .next (memWrite { s with inbox := rest } a n v) else .fault .busError :=
  hc ▸ step_writeEvent s n v rest ha

/-- Settles O51: the repeated access is legal as the first was, and meets the state that the first left. -/
theorem repeatedAccessesAreIdempotent : Obligations.RepeatedAccessesAreIdempotent := by
  intro s t rest a n hInv ha
  obtain ⟨-, hMem, -⟩ := (inv_iff s).1 hInv
  refine ⟨fun v h => ?_, fun h => ?_⟩
  · rw [step_writeEvent s n v rest ha] at h
    split_ifs at h with hl
    obtain rfl := Host.Outcome.next.inj h
    rw [step_writeEvent_of_cfg (memWrite_cfg { s with inbox := rest } a n v) n v rest ha, if_pos hl,
      State.with_inbox_eq (memWrite_inbox _ a n v), memWrite_twice (s := { s with inbox := rest }) hMem]
  · rw [step_readEvent s n rest ha] at h
    split_ifs at h with hl
    obtain ⟨x, hx, rfl⟩ := hostRead_next h
    refine ⟨x, rfl, ?_⟩
    rw [step_readEvent { s with inbox := rest, readLog := x :: s.readLog } n rest ha, if_pos hl, hostRead,
      memRead_inbox_readLog s rest, ← memRead_inbox_readLog s rest s.readLog, hx]

end Sys2Proof.Machine
end

section
/-! A pending command between issue and commit (20_memory.md R58, 60_exceptions.md R62). -/

namespace Sys2Proof.Machine

/-- A host access while a command is pending, other than a write of CTRL, leaves everything but the record of the host's
reads (70_reset_and_hazards.md R194). -/
theorem hostStep_busy {h : HostAccess} {s t : State} {w : Word} (hp : s.pend = .busy w)
    (hctrl : ∀ n v, h ≠ .write (s.cfg.base + 0x004) n v) (hs : hostStep h s = .next t) :
    ∃ l, t = { s with readLog := l } := by
  rcases hostStep_next hs with rfl | ⟨v, rfl⟩ | ⟨a, n, v, rfl, -, rfl⟩
  · exact ⟨_, rfl⟩
  · exact ⟨_, rfl⟩
  · have ha : a ≠ 0x004 := fun e => hctrl n v (by rw [e])
    rcases memWrite_busy hp a n v (fun e => absurd e ha) with e | ⟨e, -⟩
    · exact ⟨s.readLog, e⟩
    · exact absurd e ha

/-- A run of such accesses up to the engine's turn ends with that turn on the state it began in, but for the record of
the reads. -/
theorem engineStep_of_busyRun {s t : State} {w : Word} (hp : s.pend = .busy w) (hs : List HostAccess)
    (hctrl : ∀ h ∈ hs, ∀ n v, h ≠ .write (s.cfg.base + 0x004) n v) (l : List Word)
    (h : CleanRun (hs.length + 1) { s with inbox := hs.map .access ++ [.engine], readLog := l } t) :
    ∃ l', engineStep { s with inbox := [], readLog := l' } = .next t := by
  induction hs generalizing l with
  | nil =>
    obtain ⟨u, hstep, hrest⟩ := cleanRun_succ h
    obtain rfl := cleanRun_zero hrest
    exact ⟨l, hstep⟩
  | cons a hs ih =>
    obtain ⟨u, hstep, hrest⟩ := cleanRun_succ h
    obtain ⟨l', rfl⟩ := hostStep_busy (s := { s with inbox := hs.map .access ++ [.engine], readLog := l }) hp
      (hctrl a List.mem_cons_self) hstep
    exact ih (fun b hb => hctrl b (List.mem_cons_of_mem a hb)) l' hrest

/-- No command reads the record of the host's reads. -/
theorem evalOf_readLog (i : Instr) (s : State) (l : List Word) : evalOf i { s with readLog := l } = evalOf i s := by
  cases i <;> rfl

/-- A commit neither reads nor writes the record of the host's reads. -/
theorem commit_readLog {e : Evaluation} {s t : State} {l : List Word} (h : commit e { s with readLog := l } = .next t) :
    ∃ u, commit e s = .next u ∧ t = { u with readLog := l } := by
  rcases commit_next h with ⟨S, rfl, rfl⟩ | ⟨c, rfl, rfl⟩
  · exact ⟨commitOk S s, rfl, rfl⟩
  · exact ⟨commitErr c s, rfl, rfl⟩

/-- The engine's turn neither reads nor writes the record of the host's reads. -/
theorem engineStep_readLog {s t : State} {l : List Word} (h : engineStep { s with readLog := l } = .next t) :
    ∃ u, engineStep s = .next u ∧ t = { u with readLog := l } := by
  cases hp : s.pend with
  | idle =>
    rw [engineStep_idle (s := { s with readLog := l }) hp] at h
    exact ⟨s, engineStep_idle hp, (Host.Outcome.next.inj h).symm⟩
  | busy w =>
    cases hd : decodeWord w with
    | ok i =>
      rw [engineStep_ok (s := { s with readLog := l }) hp hd, exec_eq_commit, evalOf_readLog] at h
      rw [engineStep_ok hp hd, exec_eq_commit]
      exact commit_readLog h
    | error e =>
      rw [engineStep_error (s := { s with readLog := l }) hp hd] at h
      exact ⟨_, engineStep_error hp hd, (Host.Outcome.next.inj h).symm⟩

/-- Settles O54: the accesses leave everything but the record of the reads, which the commit does not read. -/
theorem pendingCommandIsFrozen : Obligations.PendingCommandIsFrozen := by
  intro s t w hs hp hctrl h
  obtain ⟨l, hl⟩ := engineStep_of_busyRun hp hs hctrl s.readLog h
  obtain ⟨u, hu, rfl⟩ := engineStep_readLog (s := { s with inbox := [] }) hl
  exact ⟨u, hu, rfl⟩

end Sys2Proof.Machine
end

section
/-! The decoder and the encoder in both directions (30_encoding.md R160 to R165): on the bytes the bus carries, then on
whole words. -/

namespace Sys2Proof

/-- A word laid out in four bytes and read back (20_memory.md R48). -/
theorem wordOfBytes_extractLsb' (w : Word) :
    wordOfBytes (w.extractLsb' 0 8) (w.extractLsb' 8 8) (w.extractLsb' 16 8) (w.extractLsb' 24 8) = w := by
  unfold wordOfBytes
  rw [BitVec.extractLsb'_append_extractLsb'_eq_extractLsb' (show 24 = 16 + 8 from rfl),
    BitVec.extractLsb'_append_extractLsb'_eq_extractLsb' (show 16 = 8 + 8 from rfl),
    BitVec.extractLsb'_append_extractLsb'_eq_extractLsb' (show 8 = 0 + 8 from rfl)]
  exact BitVec.extractLsb'_eq_self

/-- Four bytes read as a word and laid out again (20_memory.md R48). -/
theorem bytesOfWord_wordOfBytes (b0 b1 b2 b3 : Byte) : bytesOfWord (wordOfBytes b0 b1 b2 b3) = [b0, b1, b2, b3] := by
  have hLow : ∀ {n : Nat} (hi : BitVec n) (lo : Byte), (hi ++ lo).extractLsb' 0 8 = lo :=
    fun _ _ => BitVec.extractLsb'_append_eq_right
  have hHigh : ∀ {n : Nat} (hi : BitVec n) (lo : Byte) (k : Nat),
      (hi ++ lo).extractLsb' (k + 8) 8 = hi.extractLsb' k 8 := fun _ _ k => by
    rw [BitVec.extractLsb'_append_eq_of_le (by omega), Nat.add_sub_cancel]
  have h0 : (wordOfBytes b0 b1 b2 b3).extractLsb' 0 8 = b0 := hLow (b3 ++ b2 ++ b1) b0
  have h1 : (wordOfBytes b0 b1 b2 b3).extractLsb' 8 8 = b1 :=
    (hHigh (b3 ++ b2 ++ b1) b0 0).trans (hLow (b3 ++ b2) b1)
  have h2 : (wordOfBytes b0 b1 b2 b3).extractLsb' 16 8 = b2 :=
    (hHigh (b3 ++ b2 ++ b1) b0 8).trans ((hHigh (b3 ++ b2) b1 0).trans (hLow b3 b2))
  have h3 : (wordOfBytes b0 b1 b2 b3).extractLsb' 24 8 = b3 :=
    (hHigh (b3 ++ b2 ++ b1) b0 16).trans ((hHigh (b3 ++ b2) b1 8).trans ((hHigh b3 b2 0).trans
      BitVec.extractLsb'_eq_self))
  rw [bytesOfWord, h0, h1, h2, h3]

/-- Bytes decode to a command exactly when the word that the first four make does (30_encoding.md R165). -/
theorem decodeBytes_eq_ok_iff_word (bs rest : List Byte) (i : Instr) :
    decodeBytes bs = .ok (i, rest) ↔
      ∃ b0 b1 b2 b3, bs = b0 :: b1 :: b2 :: b3 :: rest ∧ decodeWord (wordOfBytes b0 b1 b2 b3) = .ok i := by
  constructor
  · intro h
    unfold decodeBytes at h
    split at h
    · next b0 b1 b2 b3 rest' =>
      split at h <;> cases h
      next hd => exact ⟨b0, b1, b2, b3, rfl, hd⟩
    · cases h
  · rintro ⟨b0, b1, b2, b3, rfl, hd⟩
    simp only [decodeBytes, hd]

/-- Bytes decode to a command exactly when they are that command's four bytes and what is left over
(30_encoding.md R165). -/
theorem decodeBytes_eq_ok_iff (bs rest : List Byte) (i : Instr) :
    decodeBytes bs = .ok (i, rest) ↔ bs = encodeBytes i ++ rest := by
  simp only [decodeBytes_eq_ok_iff_word, decodeWord_eq_ok]
  constructor
  · rintro ⟨b0, b1, b2, b3, rfl, hw⟩
    rw [encodeBytes, ← hw, bytesOfWord_wordOfBytes]
    rfl
  · rintro rfl
    exact ⟨_, _, _, _, rfl, wordOfBytes_extractLsb' (encode i)⟩

/-- Settles O2: both directions are `decodeBytes_eq_ok_iff`. -/
theorem bytesEncodeDecodeAgree : Obligations.BytesEncodeDecodeAgree :=
  fun i bs rest => ⟨(decodeBytes_eq_ok_iff _ rest i).2 rfl, (decodeBytes_eq_ok_iff bs rest i).1⟩

/-- A word with a reserved bit set is refused (30_encoding.md R161). -/
theorem decodeWord_reservedBits {w : Word} (h : 16 ≤ w.toNat) : decodeWord w = .error .reservedBits := by
  rw [decodeWord, if_neg (by rw [rsvField_eq_zero]; omega)]

/-- A word with its reserved bits zero and an opcode of 10..15 is refused (30_encoding.md R161). -/
theorem decodeWord_unknownOpcode {w : Word} (hlo : 10 ≤ w.toNat) (hhi : w.toNat < 16) :
    decodeWord w = .error .unknownOpcode := by
  have hNone : instrOfOpcode (opcodeField w) = none := by
    rw [instrOfOpcode_eq_none, opcodeField_toNat]
    omega
  rw [decodeWord, if_pos ((rsvField_eq_zero w).2 hhi), hNone]

/-- The opcode map as a list of ten rows: a command stands at its opcode and nowhere else (30_encoding.md R163). -/
theorem opcodeMap_getElem?_eq_some (n : Nat) (i : Instr) :
    [Instr.nop, .a2h, .h2a, .lfsr, .acgen, .acmatch, .unwhiten, .fec13, .fec23, .crc16][n]? = some i ↔
      i.opcode.toNat = n := by
  have hRow : [Instr.nop, .a2h, .h2a, .lfsr, .acgen, .acmatch, .unwhiten, .fec13, .fec23, .crc16][i.opcode.toNat]? =
      some i := by cases i <;> rfl
  rw [← hRow, eq_comm]
  exact List.getElem?_inj (opcode_lt i) (by decide)

/-- Settles O1: the two kinds of refused word, the ten rows of the map, and the word of each command. -/
theorem decoderFollowsOpcodeMap : Obligations.DecoderFollowsOpcodeMap := by
  refine fun w => ⟨fun h => decodeWord_reservedBits (by omega),
    fun h hOp => decodeWord_unknownOpcode (by omega) (by omega), fun i => ?_, fun i => ?_⟩
  · rw [decodeWord_eq_ok, opcodeMap_getElem?_eq_some, ← encode_toNat, ← BitVec.toNat_inj, eq_comm]
  · have hMask : w &&& 0xFFFFFFFF = w := BitVec.and_allOnes
    rw [decodeWord_eq_ok, hMask]

/-- Settles O3: ten words of the map, then the words beside them, evaluated. -/
theorem printedWordsDecode : Obligations.PrintedWordsDecode := by
  unfold Obligations.PrintedWordsDecode
  decide

end Sys2Proof
end

section
/-! An illegal command word from issue to commit (30_encoding.md R161). -/

namespace Sys2Proof.Machine

/-- A word with a reserved bit set or with an opcode of 10..15 has the value 10 or more. -/
theorem ten_le_of_illegal {w : Word} (h : w >>> 4 ≠ 0 ∨ 10 ≤ (w &&& 15).toNat) : 10 ≤ w.toNat := by
  rcases h with h | h
  · have hne : w.toNat / 16 ≠ 0 := fun e => h (BitVec.eq_of_toNat_eq (by
      rw [BitVec.toNat_ushiftRight, Nat.shiftRight_eq_div_pow]; exact e))
    omega
  · rw [BitVec.toNat_and] at h
    exact h.trans Nat.and_le_left

/-- A step with a host write of CMD while Idle is the issue of the word (60_exceptions.md R61). -/
theorem step_issue {s : State} (hp : s.pend = .idle) (w : Word) (rest : List Event) :
    step { s with inbox := writeEvent s.cfg 0x00C 4 w :: rest } = .next (issue w { s with inbox := rest }) := by
  have h := step_writeReg s .cmd w rest
  rwa [writeReg, whenIdle_idle (s := { s with inbox := rest }) hp] at h

/-- The engine's turn on a pending word that is no command. -/
theorem engineStep_illegal {s : State} {w : Word} (hp : s.pend = .busy w) (hw : 10 ≤ w.toNat) :
    engineStep s = .next (s.failed 1) := by
  obtain ⟨e, he⟩ := (decodeWord_eq_error w).2 hw
  exact engineStep_error hp he

/-- Settles O7: the issue, then the engine's turn on the word issued. -/
theorem illegalWordCommitsIllegal : Obligations.IllegalWordCommitsIllegal := by
  intro s w rest hp hw
  have hIssue := step_issue hp w (.engine :: rest)
  refine ⟨hIssue, ?_⟩
  rw [run_succ_next hIssue, run_one]
  exact engineStep_illegal (s := issue w { s with inbox := rest }) rfl (ten_le_of_illegal hw)

end Sys2Proof.Machine
end

section
/-! The frame of each command (30_encoding.md R162; 60_exceptions.md R62): which registers a success leaves alone and
how many elements of OUT it stages, and from it what the command leaves unchanged, whether it succeeds or fails. -/

namespace Sys2Proof.Machine

/-- The number of elements of OUT that a command stages, from element 0 on (30_encoding.md R162). -/
def outputLength (i : Instr) (s : State) : Nat :=
  match i with
  | .h2a => s.len.toNat
  | .lfsr => s.len.toNat - s.klen.toNat
  | .acgen => 72
  | .unwhiten => s.len.toNat
  | .fec13 => s.len.toNat
  | .fec23 => 10 * s.blocks
  | .nop => 0
  | .a2h => 0
  | .acmatch => 0
  | .crc16 => 0

/-- How far the staged writes of a command reach. Only the length of ACGEN's output rests on the configuration, whose PN
must have its nine bytes (10_state.md R32). -/
structure StagesOnly (i : Instr) (s : State) (S : Staged) : Prop where
  result : i ∉ [Instr.a2h, .fec23, .crc16] → S.result = none
  ac : i ≠ .acgen → S.ac = none
  outLength : (i = .acgen → s.cfg.wf = true) → S.out.length = outputLength i s

/-- Every success stages only what its row of 30_encoding.md R162 lists. -/
theorem evalOf_stagesOnly {i : Instr} {s : State} {S : Staged} (h : evalOf i s = .ok S) : StagesOnly i s S := by
  cases i with
  | nop => cases h; exact ⟨fun _ => rfl, fun _ => rfl, fun _ => rfl⟩
  | a2h =>
    obtain ⟨-, bs, -, rfl⟩ := evalA2h_ok h
    exact ⟨fun hi => absurd (by decide) hi, fun _ => rfl, fun _ => rfl⟩
  | h2a =>
    obtain ⟨-, rfl⟩ := evalH2a_ok h
    exact ⟨fun _ => rfl, fun _ => rfl, fun _ => unpackLsb_length s.value _⟩
  | lfsr =>
    obtain ⟨hk, -, data, g, -, hg, -, rfl⟩ := evalLfsr_ok h
    exact ⟨fun _ => rfl, fun _ => rfl, fun _ => lfsrDiv_length data g _ _ hk hg.ge⟩
  | acgen =>
    obtain rfl := evalAcgen_ok h
    exact ⟨fun _ => rfl, fun hi => absurd rfl hi,
      fun hc => expand_accessCode_length s.cfg s.lap (Config.pn_length (hc rfl))⟩
  | acmatch =>
    obtain ⟨bs, -, rfl⟩ := evalAcmatch_ok h
    exact ⟨fun _ => rfl, fun _ => rfl, fun _ => rfl⟩
  | unwhiten =>
    obtain ⟨-, bs, ⟨hlen, -, -⟩, rfl⟩ := evalUnwhiten_ok h
    exact ⟨fun _ => rfl, fun _ => rfl, fun _ => (unwhitenBits_length _ _ bs).trans hlen⟩
  | fec13 =>
    obtain ⟨-, bs, ⟨hlen, -, -⟩, rfl⟩ := evalFec13_ok h
    exact ⟨fun _ => rfl, fun _ => rfl, fun _ => fec13Bits_length bs _ hlen⟩
  | fec23 =>
    obtain ⟨-, bs, d, ⟨hlen, -, -⟩, hd, rfl⟩ := evalFec23_ok h
    exact ⟨fun hi => absurd (by decide) hi, fun _ => rfl, fun _ => fec23Blocks_length hd hlen⟩
  | crc16 =>
    obtain ⟨bs, -, rfl⟩ := evalCrc16_ok h
    exact ⟨fun hi => absurd (by decide) hi, fun _ => rfl, fun _ => rfl⟩

/-- A commit leaves every element of memory beyond the bits it stages (60_exceptions.md R62). -/
theorem sameOutside_commitOk (S : Staged) (s : State) : SameOutside s (commitOk S s) S.out.length :=
  fun a ha => (outWritten_writeBytes s.mem S.out a).trans (if_neg ha)

/-- What the step of a command from `s` to `t` leaves unchanged (30_encoding.md R162). -/
structure CommandFrame (i : Instr) (s t : State) : Prop where
  inputs : SameInputs s t
  access : i ≠ .acgen → SameAccess s t
  result : i ∉ [Instr.a2h, .fec23, .crc16] → t.result = s.result
  matchFlag : i ≠ .acmatch → t.status.matchFlag = s.status.matchFlag
  outside : (i = .acgen → s.cfg.wf = true) → SameOutside s t (outputLength i s)

/-- A success leaves what it does not stage; a failure writes STATUS alone (60_exceptions.md R62, R68). -/
theorem exec_frame {i : Instr} {s t : State} (h : exec i s = .next t) : CommandFrame i s t := by
  rcases exec_next h with ⟨S, hS, rfl⟩ | ⟨c, -, rfl⟩
  · have hOnly := evalOf_stagesOnly hS
    refine ⟨sameInputs_commitOk S s, fun hi => ?_, fun hi => ?_, fun hi => ?_, fun hc => ?_⟩
    · simp [SameAccess, hOnly.ac hi]
    · simp [hOnly.result hi]
    · simp [evalOf_matchFlag hS hi]
    · exact hOnly.outLength hc ▸ sameOutside_commitOk S s
  · exact ⟨sameInputs_commitErr c s, fun _ => ⟨rfl, rfl, rfl⟩, fun _ => rfl, fun _ => rfl, fun _ _ _ => rfl⟩

/-- A command without output leaves every element of memory. -/
theorem SameOutside.read_eq {s t : State} (h : SameOutside s t 0) (a : Nat) : t.mem.read a = s.mem.read a :=
  h a (by omega)

/-- Settles O35: the four commands have no output, and none of them is ACGEN. -/
theorem frameOfCommandsStoringNothing : Obligations.FrameOfCommandsStoringNothing := by
  intro i s t hi h
  have hFrame := exec_frame h
  have hAcgen : i ≠ .acgen := by rintro rfl; revert hi; decide
  have hOut : outputLength i s = 0 := by
    simp only [List.mem_cons, List.not_mem_nil, or_false] at hi
    rcases hi with rfl | rfl | rfl | rfl <;> rfl
  have hOutside := hFrame.outside fun e => absurd e hAcgen
  rw [hOut] at hOutside
  refine ⟨hFrame.inputs, hFrame.access hAcgen, hOutside.read_eq, fun hres => hFrame.result ?_, hFrame.matchFlag⟩
  rcases hres with rfl | rfl <;> decide

/-- Settles O36: each of the four commands stages LEN elements of OUT, LFSR `LEN - KLEN`. -/
theorem frameOfCommandsStoringToOut : Obligations.FrameOfCommandsStoringToOut := by
  intro i s t hi h
  obtain ⟨hInputs, hAccess, hResult, hMatch, hOutside⟩ := exec_frame h
  simp only [List.mem_cons, List.not_mem_nil, or_false] at hi
  rcases hi with rfl | rfl | rfl | rfl <;>
    exact ⟨hInputs, hAccess (by decide), hResult (by decide), hMatch (by decide), hOutside nofun⟩

/-- Settles O37: ACGEN stages 72 elements of OUT, FEC23 ten for each block. -/
theorem frameOfAcgenAndFec23 : Obligations.FrameOfAcgenAndFec23 := by
  refine ⟨fun s t hc h => ?_, fun s t h => ?_⟩ <;>
    obtain ⟨hInputs, hAccess, hResult, hMatch, hOutside⟩ := exec_frame h
  · exact ⟨hInputs, hResult (by decide), hMatch (by decide), hOutside fun _ => hc⟩
  · exact ⟨hInputs, hAccess (by decide), hMatch (by decide), hOutside nofun⟩

end Sys2Proof.Machine
end

section
/-! POLL as a run (30_encoding.md R166): reads of STATUS, the engine's turn, and the last read. -/

namespace Sys2Proof.Machine

/-- What a register reads as does not depend on the record of the host's reads. -/
theorem readReg_readLog (r : Reg) (s : State) (l : List Word) : readReg r { s with readLog := l } = readReg r s := by
  cases r <;> rfl

/-- A clean run that begins with `k` reads of one register returns its value `k` times and changes nothing else. -/
theorem cleanRun_readReg (r : Reg) (k : Nat) {n : Nat} {s t : State} {rest : List Event}
    (h : CleanRun (k + n) { s with inbox := List.replicate k (readEvent s.cfg r.byteOffset 4) ++ rest } t) :
    CleanRun n { s with inbox := rest, readLog := List.replicate k (readReg r s) ++ s.readLog } t := by
  induction k generalizing s with
  | zero => rwa [Nat.zero_add] at h
  | succ k ih =>
    rw [Nat.add_right_comm] at h
    obtain ⟨u, hstep, hrun⟩ := cleanRun_succ h
    obtain rfl := Host.Outcome.next.inj
      ((step_readReg s r (List.replicate k (readEvent s.cfg r.byteOffset 4) ++ rest)).symm.trans hstep)
    have hrest := ih (s := { s with readLog := readReg r s :: s.readLog }) hrun
    rw [readReg_readLog r s (readReg r s :: s.readLog)] at hrest
    rw [List.replicate_succ', List.append_assoc]
    exact hrest

/-- From a well-formed state, the engine's turn leaves BUSY clear, and a read of STATUS then shows it so. -/
theorem cleanRun_engine_readStatus {s t : State} (hInv : Inv s)
    (h : CleanRun 2 { s with inbox := [.engine, readEvent s.cfg Reg.status.byteOffset 4] } t) :
    t.status.busy = false ∧ t.readLog = t.status.word :: s.readLog := by
  obtain ⟨u, hstep, hrun⟩ := cleanRun_succ h
  obtain ⟨v, hread, hrun⟩ := cleanRun_succ hrun
  obtain rfl := cleanRun_zero hrun
  have hEngine : engineStep { s with inbox := [readEvent s.cfg Reg.status.byteOffset 4] } = .next u := hstep
  obtain ⟨hCfg, -, -, -, -, -, -, -, -, -, -, hInbox, hLog⟩ := engineStep_sameInputs hEngine
  have hInvU := engineStep_keeps_inv (inv_inbox hInv _) hEngine
  have hLast : u.inbox = [readEvent u.cfg Reg.status.byteOffset 4] := by rw [hInbox, hCfg]
  have hNext := step_readReg u .status []
  rw [State.with_inbox_eq hLast, hread] at hNext
  obtain rfl := Host.Outcome.next.inj hNext
  refine ⟨?_, congrArg (u.status.word :: ·) hLog⟩
  rw [hInvU.busyPend, engineStep_pend hEngine]
  rfl

/-- Settles O56: the reads while busy, then the engine's turn and the last read. -/
theorem pollEndsWithBusyClear : Obligations.PollEndsWithBusyClear := by
  intro s t k hInv hk h
  obtain ⟨hBusy, hLog⟩ := cleanRun_engine_readStatus
    (s := { s with readLog := List.replicate k s.status.word ++ s.readLog }) (hInv.of_eq rfl rfl rfl rfl rfl)
    (cleanRun_readReg .status k h)
  refine ⟨hBusy, ⟨List.replicate k s.status.word, hLog, List.length_replicate, fun r hr => ?_⟩, ?_⟩
  · obtain ⟨hk0, rfl⟩ := List.mem_replicate.1 hr
    obtain ⟨w, hp⟩ := hk.resolve_left hk0
    exact ⟨rfl, by rw [Status.word_bit0, hInv.busyPend, hp]; rfl⟩
  · rw [Status.word_bit0, hBusy]

end Sys2Proof.Machine
end

section
/-! The pseudo-instructions as runs of register writes (30_encoding.md R167). -/

namespace Sys2Proof.Machine

/-- A register write neither reads nor writes the inbox. -/
theorem writeReg_with_inbox (r : Reg) (v : Word) (s : State) (l : List Event) :
    writeReg r v { s with inbox := l } = { writeReg r v s with inbox := l } := by
  cases r with
  | id | result | ac0 | ac1 | ac2 => rfl
  | _ =>
    simp only [writeReg, whenIdle]
    split_ifs <;> rfl

/-- The writes of a list of registers, in order. -/
def writeRegs (ws : List (Reg × Word)) (s : State) : State := ws.foldl (fun u w => writeReg w.1 w.2 u) s

/-- `WR` statements run cleanly, one step each, and leave the statements after them. -/
theorem cleanRun_wr (ws : List (Reg × Word)) {s : State} {c : Config} (hc : s.cfg = c) (p : List Stmt) :
    CleanRun ws.length { s with inbox := stmtEvents c (ws.map (fun w => .wr w.1 w.2) ++ p) }
      (writeRegs ws { s with inbox := stmtEvents c p }) := by
  induction ws generalizing s with
  | nil => rfl
  | cons w ws ih =>
    subst hc
    have hstep := step_writeReg s w.1 w.2 (stmtEvents s.cfg (ws.map (fun w => .wr w.1 w.2) ++ p))
    rw [writeReg_with_inbox] at hstep
    rw [writeRegs, List.foldl_cons, writeReg_with_inbox]
    exact (run_succ_next hstep).trans (ih (writeReg_cfg w.1 w.2 s))

/-- Settles O57: each row is a list of register writes, and each write takes effect, as PEND is Idle before it. -/
theorem pseudoInstructionsIssueTheirCommand : Obligations.PseudoInstructionsIssueTheirCommand := by
  intro s k a b c d hp issued
  have hRow : ∀ (ws : List (Reg × Word)) (t : State),
      writeRegs ws { s with inbox := (Stmt.poll k).events s.cfg } = t →
      CleanRun ws.length { s with inbox := stmtEvents s.cfg (ws.map (fun w => .wr w.1 w.2) ++ [.poll k]) } t := by
    rintro ws t rfl
    have hrun := cleanRun_wr ws (s := s) rfl [.poll k]
    rwa [show stmtEvents s.cfg [.poll k] = (Stmt.poll k).events s.cfg from List.flatMap_singleton _ _] at hrun
  have hClear : writeReg .status 0x6 { s with inbox := [] } =
      { s with status := { s.status with doneFlag := false, errFlag := false, errCode := 0 }, inbox := [] } := by
    rw [writeReg, whenIdle_idle (s := { s with inbox := [] }) hp, Status.writeOneToClear_eq]
    rfl
  refine ⟨?_, hClear ▸ cleanRun_wr [(.status, 0x6)] rfl [], cleanRun_wr [(.ctrl, 0x2)] rfl []⟩
  cases s
  cases hp
  simp only [List.forall_mem_cons]
  exact ⟨hRow [(.cmd, 0)] _ rfl, hRow [(.offset, a), (.len, b), (.cmd, 1)] _ rfl,
    hRow [(.value, a), (.len, b), (.cmd, 2)] _ rfl, hRow [(.offset, a), (.len, b), (.klen, c), (.cmd, 3)] _ rfl,
    hRow [(.lap, a), (.cmd, 4)] _ rfl, hRow [(.lap, a), (.offset, b), (.cmd, 5)] _ rfl,
    hRow [(.offset, a), (.len, b), (.clk, c), (.skip, d), (.cmd, 6)] _ rfl,
    hRow [(.offset, a), (.len, b), (.cmd, 7)] _ rfl, hRow [(.offset, a), (.len, b), (.cmd, 8)] _ rfl,
    hRow [(.offset, a), (.len, b), (.uap, c), (.cmd, 9)] _ rfl, List.forall_mem_nil _⟩

end Sys2Proof.Machine
end

section
/-! The bit-order commands NOP, A2H and H2A (40_bit_order.md R90 to R93): the two conversions bit by bit and as inverses
of each other, then the whole next state of each command's success. -/

namespace Sys2Proof.Machine

/-- `unpackLsb` lists the word's bits, bit 0 first (40_bit_order.md R92). -/
theorem unpackLsb_getElem? (v : Word) {n i : Nat} (h : i < n) : (unpackLsb v n)[i]? = some (v.getLsbD i) := by
  rw [unpackLsb, List.getElem?_map, List.getElem?_range h, Option.map_some]

/-- Unpacking what was packed gives back the bits, as far as they fit a word (40_bit_order.md R93). -/
theorem unpackLsb_packLsb {bs : List Bool} (h : bs.length ≤ 32) : unpackLsb (packLsb bs) bs.length = bs := by
  refine List.ext_getElem (unpackLsb_length _ _) fun i _ hi => ?_
  apply Option.some.inj
  rw [← List.getElem?_eq_getElem, unpackLsb_getElem? _ hi, packLsb_getLsbD bs (by omega),
    List.getD_eq_getElem bs false hi]

/-- Packing what was unpacked keeps the low bits of the word (40_bit_order.md R93). -/
theorem packLsb_unpackLsb (v : Word) (n : Nat) : packLsb (unpackLsb v n) = (v.setWidth n).setWidth 32 := by
  refine BitVec.eq_of_getLsbD_eq fun i hi => ?_
  rw [packLsb_getLsbD _ hi, List.getD_eq_getElem?_getD, BitVec.getLsbD_setWidth, BitVec.getLsbD_setWidth]
  by_cases hn : i < n
  · rw [unpackLsb_getElem? v hn]
    simp [hi, hn]
  · simp [unpackLsb, hn]

theorem packLsb_unpackLsb_toNat (v : Word) (n : Nat) : (packLsb (unpackLsb v n)).toNat = v.toNat % 2 ^ n := by
  rw [packLsb_unpackLsb, BitVec.toNat_setWidth, BitVec.toNat_setWidth]
  exact Nat.mod_eq_of_lt ((Nat.mod_le _ _).trans_lt v.isLt)

/-- NOP writes STATUS and PEND only (40_bit_order.md R90). -/
theorem exec_nop (s : State) : exec .nop s = .next s.committed := by
  rw [exec_eq_commit]
  rfl

/-- A2H on a range that lies in IN and holds at most 32 bits (40_bit_order.md R91). -/
theorem exec_a2h {s : State} {bs : List Bool} (hlen : s.len.toNat ≤ 32) (h : s.reads s.len.toNat bs) :
    exec .a2h s = .next { s.committed with result := packLsb bs } := by
  have hp : ¬paramTable .a2h s := not_lt.2 hlen
  have ⟨_, hin, _⟩ := h
  have hr : ¬rangeTable .a2h s := not_lt.2 hin
  rw [exec_eq_commit, evalOf_finish hp hr (State.reads_scanIn h).2 (scanGen_zero s)]
  rfl

/-- H2A of at most 32 bits (40_bit_order.md R92). -/
theorem exec_h2a {s : State} (hlen : s.len.toNat ≤ 32) :
    exec .h2a s = .next { s.committed with
      mem := s.mem.writeBytes outBase ((unpackLsb s.value s.len.toNat).map bitByte) } := by
  have hp : ¬paramTable .h2a s := not_lt.2 hlen
  rw [exec_eq_commit, evalOf_finish hp (fun hr => hr) (scanIn_zero s) (scanGen_zero s)]
  rfl

/-- OUT after H2A holds the unpacked VALUE (40_bit_order.md R92). -/
theorem outElem_of_exec_h2a {s t : State} (hlen : s.len.toNat ≤ 32) (h : exec .h2a s = .next t) {i : Nat}
    (hi : i < s.len.toNat) : t.outElem i = (unpackLsb s.value s.len.toNat)[i]?.map bitByte := by
  obtain rfl := Host.Outcome.next.inj ((exec_h2a hlen).symm.trans h)
  exact (outElem_writeBytes s.committed _ s.mem i).trans (if_pos (by rwa [unpackLsb_length]))

/-- A word whose opcode field is 0 and which is not 0 has a bit of its reserved field set. -/
theorem sixteen_le_of_opcode_zero {w : Word} (hop : w &&& 15 = 0) (hw : w ≠ 0) : 16 ≤ w.toNat := by
  have hmod : w.toNat % 16 = 0 := by
    rw [← Nat.and_two_pow_sub_one_eq_mod w.toNat 4]
    exact congrArg BitVec.toNat hop
  have hne : w.toNat ≠ 0 := fun e => hw (BitVec.eq_of_toNat_eq e)
  omega

/-- Settles O15: NOP's commit, the word 0 of the opcode map, and the reserved field of any other word with opcode 0. -/
theorem nopCommitsOnly : Obligations.NopCommitsOnly :=
  ⟨fun s => ⟨s.committed, exec_nop s, Bool.and_true _, rfl⟩, (decodeWord_eq_ok _ _).2 rfl,
    fun _ hop hw => decodeWord_reservedBits (sixteen_le_of_opcode_zero hop hw)⟩

/-- Settles O16: RESULT is the packed range, whose bits are its elements. -/
theorem a2hResultIsLsbFirst : Obligations.A2hResultIsLsbFirst :=
  fun _ bs hlen h => ⟨packLsb bs, exec_a2h hlen h, fun _ hi => packLsb_getLsbD bs hi⟩

/-- Settles O17: OUT is written with the unpacked VALUE, whose elements are its bits. -/
theorem h2aWritesValueBits : Obligations.H2aWritesValueBits :=
  fun s hlen => ⟨_, unpackLsb s.value s.len.toNat, exec_h2a hlen, unpackLsb_length _ _,
    fun _ hi => unpackLsb_getElem? _ hi, outWritten_writeBytes _ _⟩

/-- Settles O27: the second command reads or writes what the first one left, and the conversions undo each other. -/
theorem bitOrderRoundTrip : Obligations.BitOrderRoundTrip := by
  refine ⟨fun s s' t hlen h hl hin hcopy => ?_, fun s s' t bs hlen hreads h hl hv => ?_⟩
  · have hreads : s'.reads s'.len.toNat (unpackLsb s.value s.len.toNat) := by
      rw [hl]
      refine ⟨unpackLsb_length _ _, hin, fun i hi => ?_⟩
      rw [unpackLsb_length] at hi
      rw [hcopy i hi, outElem_of_exec_h2a hlen h hi]
    exact ⟨_, exec_a2h (hl ▸ hlen) hreads, rfl, packLsb_unpackLsb_toNat _ _⟩
  · obtain rfl := Host.Outcome.next.inj ((exec_a2h hlen hreads).symm.trans h)
    obtain ⟨hbs, -, hholds⟩ := hreads
    have hlen' : s'.len.toNat ≤ 32 := hl ▸ hlen
    have hOut : unpackLsb s'.value s'.len.toNat = bs := by
      rw [hv, hl, ← hbs]
      exact unpackLsb_packLsb (hbs ▸ hlen)
    have hExec := exec_h2a hlen'
    refine ⟨_, hExec, rfl, fun i hi => ?_⟩
    rw [outElem_of_exec_h2a hlen' hExec (hl ▸ hi), hOut, hholds i (hbs ▸ hi)]

end Sys2Proof.Machine
end

section
/-! The polynomial meaning of LFSRDiv (41_lfsr.md R82, R83): bit vectors as polynomials over GF(2), one step of the
division register, the codeword it leaves, and LFSR's whole next state (R81). -/

namespace Sys2Proof.Machine

open Polynomial

/-! Bit vectors as polynomials (00_scope.md R11). -/

/-- A bit as a coefficient of GF(2): the coefficients of `polyOf`. -/
def bitCoeff (b : Bool) : ZMod 2 := if b then 1 else 0

@[simp] theorem bitCoeff_false : bitCoeff false = 0 := rfl

theorem bitCoeff_xor (a b : Bool) : bitCoeff (a ^^ b) = bitCoeff a + bitCoeff b := by revert a b; decide

theorem bitCoeff_and (a b : Bool) : bitCoeff (a && b) = bitCoeff a * bitCoeff b := by revert a b; decide

theorem bitCoeff_injective : Function.Injective bitCoeff := by unfold Function.Injective; decide

@[simp] theorem polyOf_nil : polyOf [] = 0 := rfl

@[simp] theorem polyOf_cons (b : Bool) (bs : List Bool) : polyOf (b :: bs) = C (bitCoeff b) + X * polyOf bs := rfl

/-- Element `i` is the coefficient of `D^i` (00_scope.md R11). -/
theorem coeff_polyOf (bs : List Bool) (i : Nat) : (polyOf bs).coeff i = bitCoeff (bs.getD i false) := by
  induction bs generalizing i with
  | nil => simp
  | cons b bs ih => cases i <;> simp [coeff_C, ih]

theorem degree_polyOf_lt (bs : List Bool) : (polyOf bs).degree < bs.length :=
  (degree_lt_iff_coeff_zero _ _).2 fun i hi => by
    rw [coeff_polyOf, List.getD_eq_default _ _ hi, bitCoeff_false]

/-- Bit vectors of one length are told apart by their polynomials. -/
theorem eq_of_polyOf_eq {a b : List Bool} (hl : a.length = b.length) (h : polyOf a = polyOf b) : a = b := by
  refine List.ext_getElem hl fun i ha hb => bitCoeff_injective ?_
  rw [← List.getD_eq_getElem a false ha, ← List.getD_eq_getElem b false hb, ← coeff_polyOf, ← coeff_polyOf, h]

theorem polyOf_append (a b : List Bool) : polyOf (a ++ b) = polyOf a + polyOf b * X ^ a.length := by
  induction a with
  | nil => simp
  | cons c a ih =>
    rw [List.cons_append, polyOf_cons, ih, polyOf_cons, List.length_cons]
    ring

/-- Zeros are the zero polynomial. -/
theorem polyOf_replicate_false (k : Nat) : polyOf (List.replicate k false) = 0 := by
  induction k with
  | zero => rfl
  | succ k ih => rw [List.replicate_succ, polyOf_cons, ih, bitCoeff_false, C_0, zero_add, mul_zero]

/-- XOR with a vector that one bit switches on or off is addition of that multiple of it. -/
theorem polyOf_zipWith_xor_and (fb : Bool) {a g : List Bool} (h : a.length = g.length) :
    polyOf (List.zipWith (fun c gj => c ^^ (gj && fb)) a g) = polyOf a + C (bitCoeff fb) * polyOf g := by
  induction a generalizing g with
  | nil => simp [List.length_eq_zero_iff.1 h.symm]
  | cons c a ih =>
    cases g with
    | nil => cases h
    | cons gj g =>
      rw [List.zipWith_cons_cons, polyOf_cons, ih (Nat.succ.inj h), bitCoeff_xor, bitCoeff_and, C_add, C_mul,
        polyOf_cons, polyOf_cons]
      ring

/-- XOR is addition. -/
theorem polyOf_zipWith_xor {a b : List Bool} (h : a.length = b.length) :
    polyOf (List.zipWith (· ^^ ·) a b) = polyOf a + polyOf b := by
  simpa [bitCoeff] using polyOf_zipWith_xor_and true h

/-! The generator (00_scope.md R11). -/

theorem degree_polyOf_take_lt (m : Nat) (g : List Bool) : (polyOf (g.take m)).degree < m :=
  (degree_polyOf_lt _).trans_le (by exact_mod_cast List.length_take_le m g)

theorem genPoly_monic (m : Nat) (g : List Bool) : (genPoly m g).Monic := monic_X_pow_add (degree_polyOf_take_lt m g)

theorem degree_genPoly (m : Nat) (g : List Bool) : (genPoly m g).degree = m := by
  have hlow : (polyOf (g.take m)).degree < (X ^ m : (ZMod 2)[X]).degree :=
    (degree_polyOf_take_lt m g).trans_eq (degree_X_pow m).symm
  rw [genPoly, degree_add_eq_left_of_degree_lt hlow, degree_X_pow]

/-! The division (41_lfsr.md R80). -/

/-- One step of the register: the shift is multiplication by `D`, the data bit enters at `D^m` (its term stands on the
left, where over GF(2) it cancels as well), and the feedback adds the generator. -/
theorem polyOf_lfsrStep {g cw : List Bool} (d : Bool) (hcw : cw ≠ []) (hg : g.length = cw.length) :
    polyOf (lfsrStep g cw d) + C (bitCoeff d) * X ^ g.length =
      X * polyOf cw + C (bitCoeff (d ^^ cw.getLastD false)) * (X ^ g.length + polyOf g) := by
  obtain ⟨cw, last, rfl⟩ := List.eq_nil_or_concat' cw |>.resolve_left hcw
  rw [List.length_append, List.length_singleton] at hg
  have hd : bitCoeff d = bitCoeff last + bitCoeff (d ^^ last) := by
    rw [← bitCoeff_xor, Bool.xor_left_comm, Bool.xor_self, Bool.xor_false]
  rw [lfsrStep, List.dropLast_concat, List.getLastD_concat, polyOf_zipWith_xor_and _ (by simp [hg]), polyOf_cons,
    polyOf_append, polyOf_cons, polyOf_nil, hg, hd, C_add, bitCoeff_false, C_0]
  ring

/-- The data's last bit is divided first, so a further bit in front is one further step. -/
theorem lfsrDiv_cons (d : Bool) (data g : List Bool) (n : Nat) :
    lfsrDiv (d :: data) (n + 1) (data.length + 1) g =
      lfsrStep (g.take (n - data.length)) (lfsrDiv data n data.length g) d := by
  simp [lfsrDiv]

/-- The generator divides the codeword `cw ++ data` (41_lfsr.md R82), by the register invariant. -/
theorem genPoly_dvd_lfsrDiv_add {data g : List Bool} {n k : Nat} (hk : data.length = k) (hn : k < n)
    (hg : n - k ≤ g.length) :
    genPoly (n - k) g ∣ polyOf (lfsrDiv data n k g) + polyOf data * X ^ (n - k) := by
  subst hk
  induction data generalizing n with
  | nil => simp [lfsrDiv, polyOf_replicate_false]
  | cons d data ih =>
    obtain ⟨n, rfl⟩ := Nat.exists_eq_add_one_of_ne_zero (Nat.ne_zero_of_lt hn)
    simp only [List.length_cons, Nat.add_sub_add_right, Nat.add_lt_add_iff_right] at hn hg ⊢
    have hlen := lfsrDiv_length data g n data.length hn hg
    have hstep := polyOf_lfsrStep (g := g.take (n - data.length)) d
      (List.ne_nil_of_length_pos (hlen ▸ Nat.sub_pos_of_lt hn)) ((List.length_take_of_le hg).trans hlen.symm)
    rw [List.length_take_of_le hg, ← genPoly, ← lfsrDiv_cons] at hstep
    have hSum : polyOf (lfsrDiv (d :: data) (n + 1) (data.length + 1) g) + polyOf (d :: data) * X ^ (n - data.length) =
        X * (polyOf (lfsrDiv data n data.length g) + polyOf data * X ^ (n - data.length)) +
          C (bitCoeff (d ^^ (lfsrDiv data n data.length g).getLastD false)) * genPoly (n - data.length) g := by
      rw [polyOf_cons]
      linear_combination hstep
    rw [hSum]
    exact dvd_add ((ih hn hg).mul_left X) (dvd_mul_left _ _)

/-- LFSRDiv is the remainder (41_lfsr.md R82): it is congruent to `d(D)·D^m` modulo the generator, and of lower
degree. -/
theorem polyOf_lfsrDiv {data g : List Bool} {n k : Nat} (hk : data.length = k) (hn : k < n) (hg : n - k ≤ g.length) :
    polyOf (lfsrDiv data n k g) = (polyOf data * X ^ (n - k)) %ₘ genPoly (n - k) g := by
  have hmonic := genPoly_monic (n - k) g
  have hdegree : (polyOf (lfsrDiv data n k g)).degree < (genPoly (n - k) g).degree := by
    rw [degree_genPoly, ← lfsrDiv_length data g n k hn hg]
    exact degree_polyOf_lt _
  rw [← (modByMonic_eq_self_iff hmonic).2 hdegree]
  refine modByMonic_eq_of_dvd_sub hmonic ?_
  rw [CharTwo.sub_eq_add]
  exact genPoly_dvd_lfsrDiv_add hk hn hg

/-- LFSR on data in IN and a generator in GEN (41_lfsr.md R81). -/
theorem exec_lfsr {s : State} {data g : List Bool} (hk : s.klen.toNat < s.len.toNat)
    (hg : g.length = s.len.toNat - s.klen.toNat) (hsize : g.length ≤ s.cfg.genSize) (hdata : s.reads s.klen.toNat data)
    (hgen : s.genHolds g) :
    exec .lfsr s = .next { s.committed with
      mem := s.mem.writeBytes outBase ((lfsrDiv data s.len.toNat s.klen.toNat g).map bitByte) } := by
  have hp : ¬paramTable .lfsr s := not_or.2 ⟨not_le.2 hk, not_lt.2 (hg ▸ hsize)⟩
  have ⟨_, hin, _⟩ := hdata
  have hr : ¬rangeTable .lfsr s := not_lt.2 hin
  rw [exec_eq_commit, evalOf_finish hp hr (State.reads_scanIn hdata).2 ((s.scanGen_eq_bits _ g).2 ⟨hg, hgen⟩)]
  rfl

/-- Settles O25: the length, the remainder, the systematic form, and the generator's multiple. -/
theorem lfsrDivIsRemainder : Obligations.LfsrDivIsRemainder := by
  intro data g n k hk hn hg
  have hlen := lfsrDiv_length data g n k hn hg
  have hcode : polyOf (lfsrDiv data n k g ++ data) = polyOf (lfsrDiv data n k g) + polyOf data * X ^ (n - k) := by
    rw [polyOf_append, hlen]
  exact ⟨hlen, polyOf_lfsrDiv hk hn hg, hcode, hcode ▸ genPoly_dvd_lfsrDiv_add hk hn hg⟩

/-- Settles O26: vectors of one length with equal polynomials are equal, and the remainder is linear. -/
theorem lfsrDivIsLinear : Obligations.LfsrDivIsLinear := by
  intro a b g n k ha hb hn hg
  have hlen (data : List Bool) : (lfsrDiv data n k g).length = n - k := lfsrDiv_length data g n k hn hg
  constructor
  · refine eq_of_polyOf_eq (by simp [hlen]) ?_
    rw [polyOf_zipWith_xor (by rw [hlen, hlen]), polyOf_lfsrDiv (by simp [ha, hb]) hn hg, polyOf_lfsrDiv ha hn hg,
      polyOf_lfsrDiv hb hn hg, polyOf_zipWith_xor (ha.trans hb.symm), add_mul, add_modByMonic]
  · refine eq_of_polyOf_eq (by simp [hlen]) ?_
    rw [polyOf_lfsrDiv List.length_replicate hn hg, polyOf_replicate_false, polyOf_replicate_false, zero_mul,
      zero_modByMonic]

/-- Settles O18: OUT is written with LFSRDiv's output, whose polynomial is the remainder by the whole generator. -/
theorem lfsrWritesRemainder : Obligations.LfsrWritesRemainder := by
  intro s data g hk hg hsize hdata hgen
  have ⟨hdlen, _, _⟩ := hdata
  refine ⟨_, lfsrDiv data s.len.toNat s.klen.toNat g, exec_lfsr hk hg hsize hdata hgen,
    (lfsrDiv_length data g _ _ hk hg.ge).trans hg.symm, outWritten_writeBytes _ _, ?_⟩
  rw [polyOf_lfsrDiv hdlen hk hg.ge, ← hg, genPoly, List.take_length]

end Sys2Proof.Machine
end

section
/-! The access code (42_access_code.md R100 to R105): each step of R100 on the air bits, the closed form of R104, and the
whole next state of ACGEN's and ACMATCH's success. -/

namespace Sys2Proof.Machine

/-! The bits of a byte, most significant first (42_access_code.md R101). -/

theorem msbBits_eq (b : Byte) :
    msbBits b =
      [b.getLsbD 7, b.getLsbD 6, b.getLsbD 5, b.getLsbD 4, b.getLsbD 3, b.getLsbD 2, b.getLsbD 1, b.getLsbD 0] :=
  rfl

/-- Bytes 4 and 7 are made of six bits and two (42_access_code.md R100, steps 2 and 6). -/
theorem msbBits_append (hi : BitVec 6) (lo : BitVec 2) :
    msbBits (hi ++ lo) =
      [hi.getLsbD 5, hi.getLsbD 4, hi.getLsbD 3, hi.getLsbD 2, hi.getLsbD 1, hi.getLsbD 0] ++
        [lo.getLsbD 1, lo.getLsbD 0] := by
  rw [msbBits_eq]
  simp only [BitVec.getLsbD_append, Nat.reduceLT, Nat.reduceSub, if_true, if_false, List.cons_append, List.nil_append]

theorem byteOfMsb_concat (bs : List Bool) (x : Bool) :
    byteOfMsb (bs ++ [x]) = (byteOfMsb bs <<< 1) ||| BitVec.setWidth 8 (BitVec.ofBool x) := by
  rw [byteOfMsb, List.foldl_append]
  rfl

/-- Bit 0 of the packed byte is the last bit listed. -/
theorem byteOfMsb_getLsbD (bs : List Bool) {i : Nat} (hi : i < 8) :
    (byteOfMsb bs).getLsbD i = bs.reverse.getD i false := by
  induction bs using List.reverseRecOn generalizing i with
  | nil => simp [byteOfMsb]
  | append_singleton bs x ih =>
    rw [byteOfMsb_concat, List.reverse_append, BitVec.getLsbD_or, BitVec.getLsbD_shiftLeft]
    cases i with
    | zero => cases x <;> simp
    | succ i => simp [ih (Nat.lt_of_succ_lt hi), hi]

theorem rev8_getLsbD (b : Byte) {i : Nat} (hi : i < 8) : (rev8 b).getLsbD i = b.getLsbD (7 - i) := by
  rw [rev8, byteOfMsb_getLsbD _ hi, List.reverse_reverse]
  simp [msbBits, hi]

theorem rev8_extractLsb'_getLsbD (lap : BitVec 24) (k : Nat) {i : Nat} (hi : i < 8) :
    (rev8 (lap.extractLsb' k 8)).getLsbD i = lap.getLsbD (k + (7 - i)) := by
  have : 7 - i < 8 := by omega
  rw [rev8_getLsbD _ hi, BitVec.getLsbD_extractLsb', decide_eq_true this, Bool.true_and]

/-- `R[23-i] = LAP[i]` (42_access_code.md R100, step 1). -/
theorem revLap_getLsbD (lap : BitVec 24) {i : Nat} (hi : i < 24) : (revLap lap).getLsbD i = lap.getLsbD (23 - i) := by
  rw [revLap, BitVec.getLsbD_append, BitVec.getLsbD_append]
  split_ifs with h h' <;> rw [rev8_extractLsb'_getLsbD _ _ (by omega)] <;> congr 1 <;> omega

/-! `Expand` of each step of R100. -/

theorem expand_cons (b : Byte) (f : List Byte) : expand (b :: f) = msbBits b ++ expand f := List.flatMap_cons

@[simp] theorem expand_nil : expand [] = [] := rfl

/-- The last ten air bits before the second XOR: the Barker sequence and the trailer (10_state.md R35). -/
def airTail (sel : Bool) : List Bool :=
  if sel then bits01 [1, 1, 0, 0, 1, 0, 1, 0, 1, 0] else bits01 [0, 0, 1, 1, 0, 1, 0, 1, 0, 1]

/-- The 34-bit field of R100, step 2, in air order: the LAP least significant bit first, then the tail. -/
def packedField (sel : TrailerSel) (lap : BitVec 24) : List Bool := bitsOf 24 lap ++ airTail (trailerBit sel lap)

/-- Step 2 leaves the first 38 air bits zero. -/
theorem expand_packLap (sel : TrailerSel) (lap : BitVec 24) :
    expand (packLap sel lap) = List.replicate 38 false ++ packedField sel lap := by
  have hLap : bitsOf 24 lap = (List.range 24).map fun i => (revLap lap).getLsbD (23 - i) :=
    List.map_congr_left fun i hi => by
      rw [revLap_getLsbD lap (by omega)]
      congr 1
      have := List.mem_range.1 hi
      omega
  rw [packedField, hLap]
  simp only [packLap, expand_cons, msbBits_append]
  cases trailerBit sel lap <;>
    simp [msbBits_eq, airTail, bits01, barkerHead, trailerByte, List.range_succ, List.replicate]

/-- The bits listed are the low bits of the packed byte. -/
theorem msbBits_byteOfMsb {bs : List Bool} (h : bs.length ≤ 8) :
    msbBits (byteOfMsb bs) = List.replicate (8 - bs.length) false ++ bs := by
  refine List.ext_getElem (by simp; omega) fun t h8 _ => ?_
  have ht : t < 8 := by rwa [msbBits_length] at h8
  have hbit : (msbBits (byteOfMsb bs))[t] = bs.reverse.getD (7 - t) false := by
    rw [← byteOfMsb_getLsbD bs (by omega)]
    simp [msbBits]
  refine hbit.trans ?_
  rw [List.getElem_append]
  split_ifs with hlt
  · rw [List.length_replicate] at hlt
    rw [List.getElem_replicate, List.getD_eq_default _ _ (by rw [List.length_reverse]; omega)]
  · simp only [List.length_replicate] at hlt ⊢
    rw [List.getD_eq_getElem _ _ (by rw [List.length_reverse]; omega), List.getElem_reverse]
    congr 1
    omega

theorem msbBits_byteOfMsb_append {bs : List Bool} (h : bs.length = 6) (lo : BitVec 2) :
    msbBits ((byteOfMsb bs).extractLsb' 0 6 ++ lo) = bs ++ [lo.getLsbD 1, lo.getLsbD 0] := by
  have hb := msbBits_byteOfMsb (bs := bs) (by omega)
  rw [h, msbBits_eq] at hb
  simp only [List.replicate, Nat.reduceSub, List.cons_append, List.nil_append, List.cons.injEq] at hb
  obtain ⟨-, -, hb⟩ := hb
  rw [msbBits_append]
  conv_rhs => rw [← hb]
  simp

/-- Step 6 puts the parity bits after four zeros and keeps the rest of the air bits. -/
theorem expand_repack {cw : List Bool} {f : List Byte} (hcw : cw.length = 34) (hf : 5 ≤ f.length) :
    expand (repack cw f) = List.replicate 4 false ++ (cw ++ (expand f).drop 38) := by
  match f, hf with
  | f0 :: f1 :: f2 :: f3 :: f4 :: rest, _ =>
    have hcut : cw = cw.take 4 ++ ((cw.drop 4).take 8 ++ ((cw.drop 12).take 8 ++
        ((cw.drop 20).take 8 ++ (cw.drop 28).take 6))) := by
      conv_lhs => rw [← List.take_append_drop 4 cw, ← List.take_append_drop 8 (cw.drop 4),
        ← List.take_append_drop 8 ((cw.drop 4).drop 8), ← List.take_append_drop 8 (((cw.drop 4).drop 8).drop 8)]
      simp [hcw]
    have hkept : (expand (f0 :: f1 :: f2 :: f3 :: f4 :: rest)).drop 38 =
        [f4.getLsbD 1, f4.getLsbD 0] ++ expand rest := by
      simp [expand_cons, msbBits_eq]
    rw [hkept]
    conv_rhs => rw [hcut]
    simp [repack, expand_cons, msbBits_byteOfMsb, msbBits_byteOfMsb_append, hcw]

/-! Air bits: the elements of `Expand` by their index (42_access_code.md R101). -/

/-- Air bit `i` of an access code's bytes. -/
def airBit (f : List Byte) (i : Nat) : Bool := (f.getD (i / 8) 0).getLsbD (7 - i % 8)

theorem expand_getD_eq_airBit (f : List Byte) (i : Nat) : (expand f).getD i false = airBit f i := by
  have := expand_getD f (i / 8) (i % 8) (Nat.mod_lt i (by decide))
  rwa [Nat.div_add_mod] at this

/-- Steps 3 and 7 are XOR of air bits. -/
theorem airBit_xorPn {pn f : List Byte} (h : f.length = pn.length) (i : Nat) :
    airBit (xorPn pn f) i = (airBit f i ^^ airBit pn i) := by
  have hbyte : (xorPn pn f).getD (i / 8) 0 = f.getD (i / 8) 0 ^^^ pn.getD (i / 8) 0 := by
    simp only [xorPn, List.getD_eq_getElem?_getD, List.getElem?_zipWith]
    by_cases hi : i / 8 < f.length
    · simp [hi, h ▸ hi]
    · simp [not_lt.1 hi, h ▸ not_lt.1 hi]
  rw [airBit, hbyte, BitVec.getLsbD_xor]
  rfl

/-- The preamble pattern for the first sync bit (10_state.md R35). -/
def preamble (first : Bool) : List Bool := if first then bits01 [1, 0, 1, 0] else bits01 [0, 1, 0, 1]

theorem preamble_getD_of_ge (first : Bool) {i : Nat} (hi : 4 ≤ i) : (preamble first).getD i false = false :=
  List.getD_eq_default _ _ (by cases first <;> exact hi)

/-- The byte that step 8 ORs in is the pattern, before four zeros. -/
theorem preambleByte_getLsbD :
    ∀ first : Bool, ∀ i < 8, (if first then 0xA0 else 0x50 : Byte).getLsbD (7 - i) = (preamble first).getD i false := by
  decide

theorem airBit_cons_of_lt (b : Byte) (f : List Byte) {i : Nat} (hi : i < 8) :
    airBit (b :: f) i = b.getLsbD (7 - i) := by
  rw [airBit, Nat.div_eq_of_lt hi, Nat.mod_eq_of_lt hi]
  rfl

theorem airBit_cons_of_ge (b b' : Byte) (f : List Byte) {i : Nat} (hi : 8 ≤ i) :
    airBit (b :: f) i = airBit (b' :: f) i := by
  obtain ⟨k, hk⟩ : ∃ k, i / 8 = k + 1 := Nat.exists_eq_add_one.2 (by omega)
  simp only [airBit, hk, List.getD_cons_succ]

/-- Step 8 ORs the pattern into the first air bits, chosen by the fifth. -/
theorem airBit_addPreamble {f : List Byte} (hf : f ≠ []) (i : Nat) :
    airBit (addPreamble f) i = (airBit f i || (preamble (airBit f 4)).getD i false) := by
  obtain ⟨b, f, rfl⟩ := List.exists_cons_of_ne_nil hf
  rcases Nat.lt_or_ge i 8 with hi | hi
  · rw [addPreamble, airBit_cons_of_lt _ f hi, airBit_cons_of_lt b f hi, airBit_cons_of_lt b f (by decide),
      BitVec.getLsbD_or, ← preambleByte_getLsbD _ i hi]
  · rw [preamble_getD_of_ge _ (by omega), Bool.or_false]
    exact airBit_cons_of_ge _ b f hi

theorem airBit_packLap (sel : TrailerSel) (lap : BitVec 24) (i : Nat) :
    airBit (packLap sel lap) (38 + i) = (packedField sel lap).getD i false := by
  rw [← expand_getD_eq_airBit, expand_packLap, List.getD_append_right _ _ _ _ (by simp), List.length_replicate,
    Nat.add_sub_cancel_left]

section Repack
variable {cw : List Bool} {f : List Byte} (hcw : cw.length = 34) (hf : f.length = 9)
include hcw hf

theorem airBit_repack_of_lt {t : Nat} (ht : t < 4) : airBit (repack cw f) t = false := by
  rw [← expand_getD_eq_airBit, expand_repack hcw (by omega), List.getD_append _ _ _ _ (by simpa),
    List.getD_replicate _ ht]

theorem airBit_repack_parity {j : Nat} (hj : j < 34) : airBit (repack cw f) (4 + j) = cw.getD j false := by
  rw [← expand_getD_eq_airBit, expand_repack hcw (by omega), List.getD_append_right _ _ _ _ (by simp),
    List.length_replicate, Nat.add_sub_cancel_left, List.getD_append _ _ _ _ (by omega)]

theorem airBit_repack_rest (i : Nat) : airBit (repack cw f) (38 + i) = airBit f (38 + i) := by
  rw [← expand_getD_eq_airBit, ← expand_getD_eq_airBit, expand_repack hcw (by omega),
    List.getD_append_right _ _ _ _ (by simp; omega), List.getD_append_right _ _ _ _ (by simp; omega)]
  simp only [List.length_replicate, hcw, List.getD_eq_getElem?_getD, List.getElem?_drop]
  congr 2
  omega

end Repack

theorem infoBits_eq {f : List Byte} (hf : f.length = 9) :
    infoBits f = (List.range 30).map fun i => airBit f (38 + i) := by
  have hlen := expand_length f
  refine List.ext_getElem (by simp [infoBits]; omega) fun i hi hi' => ?_
  rw [List.length_map, List.length_range] at hi'
  rw [List.getElem_map, List.getElem_range, ← expand_getD_eq_airBit, List.getD_eq_getElem _ _ (by omega)]
  simp [infoBits]

/-! The closed form (42_access_code.md R104). -/

theorem packedField_lap (sel : TrailerSel) (lap : BitVec 24) {i : Nat} (hi : i < 24) :
    (packedField sel lap).getD i false = lap.getLsbD i := by
  rw [packedField, List.getD_append _ _ _ _ (by simpa [bitsOf]), bitsOf]
  simp [hi]

theorem packedField_tail (sel : TrailerSel) (lap : BitVec 24) (t : Nat) :
    (packedField sel lap).getD (24 + t) false = (airTail (trailerBit sel lap)).getD t false := by
  rw [packedField, List.getD_append_right _ _ _ _ (by simp [bitsOf])]
  simp [bitsOf]

/-- The 30 information bits of R104. -/
def accessData (c : Config) (lap : BitVec 24) : List Bool :=
  (List.range 24).map (fun i => lap.getLsbD i ^^ airBit c.pn (38 + i)) ++
    (List.range 6).map (fun t => (airTail (trailerBit c.trailerSel lap)).getD t false ^^ airBit c.pn (62 + t))

/-- The 34 parity bits of R104. -/
def accessParity (c : Config) (lap : BitVec 24) : List Bool := lfsrDiv (accessData c lap) 64 30 c.gAC

theorem infoBits_xorPn_packLap {c : Config} (hpn : c.pn.length = 9) (lap : BitVec 24) :
    infoBits (xorPn c.pn (packLap c.trailerSel lap)) = accessData c lap := by
  have hbit (i : Nat) : airBit (xorPn c.pn (packLap c.trailerSel lap)) (38 + i) =
      ((packedField c.trailerSel lap).getD i false ^^ airBit c.pn (38 + i)) := by
    rw [airBit_xorPn (by rw [packLap_length, hpn]), airBit_packLap]
  rw [infoBits_eq (by simp [xorPn_length, hpn]), accessData, List.range_add (n := 24) (m := 6),
    List.map_append, List.map_map]
  congr 1
  · exact List.map_congr_left fun i hi => by rw [hbit, packedField_lap _ _ (List.mem_range.1 hi)]
  · exact List.map_congr_left fun t _ => by
      rw [Function.comp_apply, hbit, packedField_tail, ← Nat.add_assoc]

/-- The access code before step 8. -/
def syncBytes (c : Config) (lap : BitVec 24) : List Byte :=
  xorPn c.pn (repack (accessParity c lap) (xorPn c.pn (packLap c.trailerSel lap)))

section ClosedForm
variable {c : Config} (hc : c.wf = true)
include hc

theorem Config.gAC_length : c.gAC.length = 35 := by
  simp only [Config.wf, Config.gACOk, Bool.and_eq_true, beq_iff_eq] at hc
  tauto

theorem accessParity_length (lap : BitVec 24) : (accessParity c lap).length = 34 :=
  lfsrDiv_length _ _ 64 30 (by decide) (by rw [Config.gAC_length hc]; decide)

theorem xorPn_packLap_length (lap : BitVec 24) : (xorPn c.pn (packLap c.trailerSel lap)).length = 9 := by
  rw [xorPn_length, packLap_length, Config.pn_length hc, min_self]

theorem syncBytes_ne_nil (lap : BitVec 24) : syncBytes c lap ≠ [] := List.ne_nil_of_length_pos (by
  rw [syncBytes, xorPn_length, repack_length _ _ (xorPn_packLap_length hc lap), Config.pn_length hc]
  decide)

theorem airBit_syncBytes (lap : BitVec 24) (i : Nat) :
    airBit (syncBytes c lap) i =
      (airBit (repack (accessParity c lap) (xorPn c.pn (packLap c.trailerSel lap))) i ^^ airBit c.pn i) :=
  airBit_xorPn (by rw [repack_length _ _ (xorPn_packLap_length hc lap), Config.pn_length hc]) i

theorem airBit_accessCode (lap : BitVec 24) (i : Nat) :
    airBit (accessCode c lap) i =
      (airBit (syncBytes c lap) i || (preamble (airBit (syncBytes c lap) 4)).getD i false) := by
  rw [← airBit_addPreamble (syncBytes_ne_nil hc lap), accessCode, infoBits_xorPn_packLap (Config.pn_length hc)]
  rfl

theorem airBit_accessCode_of_ge (lap : BitVec 24) {i : Nat} (hi : 4 ≤ i) :
    airBit (accessCode c lap) i = airBit (syncBytes c lap) i := by
  rw [airBit_accessCode hc, preamble_getD_of_ge _ hi, Bool.or_false]

/-- The first row of R104's table: the four air bits before the parity are PN's, ORed with the preamble. -/
theorem airBit_accessCode_preamble (lap : BitVec 24) {t : Nat} (ht : t < 4) :
    airBit (accessCode c lap) t = (airBit c.pn t || (preamble (airBit (accessCode c lap) 4)).getD t false) := by
  rw [airBit_accessCode_of_ge hc lap le_rfl, airBit_accessCode hc, airBit_syncBytes hc lap t,
    airBit_repack_of_lt (accessParity_length hc lap) (xorPn_packLap_length hc lap) ht, Bool.false_xor]

/-- The second row: the parity bits with PN's. -/
theorem airBit_accessCode_parity (lap : BitVec 24) {j : Nat} (hj : j < 34) :
    airBit (accessCode c lap) (4 + j) = ((accessParity c lap).getD j false ^^ airBit c.pn (4 + j)) := by
  rw [airBit_accessCode_of_ge hc lap (Nat.le_add_right 4 j), airBit_syncBytes hc,
    airBit_repack_parity (accessParity_length hc lap) (xorPn_packLap_length hc lap) hj]

/-- The other rows: PN cancels on the packed field. -/
theorem airBit_accessCode_field (lap : BitVec 24) (i : Nat) :
    airBit (accessCode c lap) (38 + i) = (packedField c.trailerSel lap).getD i false := by
  rw [airBit_accessCode_of_ge hc lap (by omega), airBit_syncBytes hc,
    airBit_repack_rest (accessParity_length hc lap) (xorPn_packLap_length hc lap),
    airBit_xorPn (by rw [packLap_length, Config.pn_length hc]), airBit_packLap, Bool.xor_assoc, Bool.xor_self,
    Bool.xor_false]

end ClosedForm

/-- The selector bit of the default `TRAILER_SEL` (42_access_code.md R100, step 2). -/
theorem trailerBit_revBit0 (lap : BitVec 24) : trailerBit .revBit0 lap = lap.getLsbD 23 :=
  revLap_getLsbD lap (by decide)

/-! ACGEN (42_access_code.md R102). -/

theorem getLsbD_append_byte_of_lt {n : Nat} (hi : BitVec n) (lo : Byte) {b : Nat} (hb : b < 8) :
    (hi ++ lo).getLsbD (8 * 0 + b) = lo.getLsbD b := by
  rw [BitVec.getLsbD_append, Nat.mul_zero, Nat.zero_add, if_pos hb]

theorem getLsbD_append_byte_of_ge {n : Nat} (hi : BitVec n) (lo : Byte) (k b : Nat) :
    (hi ++ lo).getLsbD (8 * (k + 1) + b) = hi.getLsbD (8 * k + b) := by
  rw [BitVec.getLsbD_append, if_neg (by omega)]
  congr 1
  omega

/-- Bit `b` of byte `c` of a register that holds four bytes, the first least significant (10_state.md R25). -/
theorem leWord_getLsbD (f : List Byte) {c b : Nat} (hc : c < 4) (hb : b < 8) :
    (leWord f).getLsbD (8 * c + b) = (f.getD c 0).getLsbD b := by
  match c, hc with
  | 0, _ => exact getLsbD_append_byte_of_lt _ _ hb
  | 1, _ => exact (getLsbD_append_byte_of_ge _ _ 0 b).trans (getLsbD_append_byte_of_lt _ _ hb)
  | 2, _ =>
    rw [leWord, getLsbD_append_byte_of_ge _ _ 1, getLsbD_append_byte_of_ge _ _ 0, getLsbD_append_byte_of_lt _ _ hb]
  | 3, _ =>
    rw [leWord, getLsbD_append_byte_of_ge _ _ 2, getLsbD_append_byte_of_ge _ _ 1, getLsbD_append_byte_of_ge _ _ 0,
      Nat.mul_zero, Nat.zero_add]

/-- The bit of a byte that an element of `Expand` lists (42_access_code.md R101). -/
theorem expand_getD_bit (f : List Byte) (c : Nat) {b : Nat} (hb : b < 8) :
    (expand f).getD (8 * c + (7 - b)) false = (f.getD c 0).getLsbD b := by
  rw [expand_getD f c _ (by omega)]
  congr 1
  omega

/-- Four bytes of an access code as a register, against its air bits (10_state.md R25; 42_access_code.md R101). -/
theorem leWord_drop_getLsbD (f : List Byte) (k : Nat) {c b : Nat} (hc : c < 4) (hb : b < 8) :
    (leWord (f.drop k)).getLsbD (8 * c + b) = (expand f).getD (8 * k + 8 * c + (7 - b)) false := by
  rw [leWord_getLsbD _ hc hb, ← Nat.mul_add, expand_getD_bit f _ hb]
  simp only [List.getD_eq_getElem?_getD, List.getElem?_drop]

/-- ACGEN succeeds in every state. -/
theorem exec_acgen (s : State) :
    exec .acgen s = .next { s.committed with
      mem := s.mem.writeBytes outBase ((expand (accessCode s.cfg s.lap)).map bitByte)
      ac0 := leWord (accessCode s.cfg s.lap)
      ac1 := leWord ((accessCode s.cfg s.lap).drop 4)
      ac2 := (accessCode s.cfg s.lap).getD 8 0 } := by
  rw [exec_eq_commit]
  rfl

/-- The default PN leaves the preamble and the trailer (42_access_code.md R104). -/
theorem defaultPN_airBit_outer :
    ∀ t < 4, airBit Config.default.pn t = false ∧ airBit Config.default.pn (68 + t) = false := by decide

/-- Settles O19: OUT is written with `Expand` of the access code, whose air bits R104's table gives. -/
theorem acgenClosedForm : Obligations.AcgenClosedForm := by
  intro s hc
  refine ⟨_, expand (accessCode s.cfg s.lap), _, _, _, exec_acgen s,
    expand_accessCode_length s.cfg s.lap (Config.pn_length hc), outWritten_writeBytes _ _, fun c hword b hb => ?_,
    fun b hb => (expand_getD_bit _ 8 hb).symm, ?_⟩
  · have hAc0 := leWord_drop_getLsbD (accessCode s.cfg s.lap) 0 hword hb
    rw [Nat.mul_zero, Nat.zero_add] at hAc0
    exact ⟨hAc0, leWord_drop_getLsbD _ 4 hword hb⟩
  · intro p sel tail data cw pattern
    have hsel : sel = trailerBit s.cfg.trailerSel s.lap := by
      simp only [sel]
      cases s.cfg.trailerSel with
      | revBit0 => exact (trailerBit_revBit0 s.lap).symm
      | inputBit0 => rfl
    have hdata : data = accessData s.cfg s.lap := by
      simp only [data, tail, hsel]
      rfl
    have htail : tail = airTail (trailerBit s.cfg.trailerSel s.lap) := by
      rw [← hsel]
      rfl
    have hcw : cw = accessParity s.cfg s.lap := by
      simp only [cw, hdata]
      rfl
    have hPattern : pattern = preamble (airBit (accessCode s.cfg s.lap) 4) := by
      rw [← expand_getD_eq_airBit]
      rfl
    have hHead : ∀ t < 4, (expand (accessCode s.cfg s.lap)).getD t false = (p t || pattern.getD t false) := by
      intro t ht
      rw [expand_getD_eq_airBit, hPattern]
      exact airBit_accessCode_preamble hc s.lap ht
    refine ⟨hHead, fun j hj => ?_, fun i hi => ?_, fun t ht => ?_, fun hDefault t ht => ?_⟩
    · rw [expand_getD_eq_airBit, hcw]
      exact airBit_accessCode_parity hc s.lap hj
    · rw [expand_getD_eq_airBit, airBit_accessCode_field hc, packedField_lap _ _ hi]
    · rw [expand_getD_eq_airBit, htail, ← packedField_tail, ← airBit_accessCode_field hc, ← Nat.add_assoc]
    · obtain ⟨hLow, hHigh⟩ : p t = false ∧ p (68 + t) = false := by
        have := defaultPN_airBit_outer t ht
        rwa [← hDefault] at this
      exact ⟨hLow, hHigh, by rw [hHead t ht, hLow, Bool.false_or]⟩

/-- OUT after ACGEN holds `Expand` of the access code (42_access_code.md R102). -/
theorem outElem_of_exec_acgen {s t : State} (hc : s.cfg.wf = true) (h : exec .acgen s = .next t) {i : Nat}
    (hi : i < 72) : t.outElem i = (expand (accessCode s.cfg s.lap))[i]?.map bitByte := by
  obtain rfl := Host.Outcome.next.inj ((exec_acgen s).symm.trans h)
  exact (outElem_writeBytes s.committed _ s.mem i).trans
    (if_pos (by rwa [expand_accessCode_length _ _ (Config.pn_length hc)]))

/-! ACMATCH (42_access_code.md R103). -/

/-- ACMATCH on a window that lies in IN and holds bits. -/
theorem exec_acmatch {s : State} {bs : List Bool} (h : s.reads 72 bs) :
    exec .acmatch s = .next { s.committed with
      status := { s.committed.status with matchFlag := bs == expand (accessCode s.cfg s.lap) } } := by
  have ⟨_, hin, _⟩ := h
  have hp : ¬paramTable .acmatch s := not_false
  have hr : ¬rangeTable .acmatch s := not_lt.2 hin
  rw [exec_eq_commit, evalOf_finish hp hr (State.reads_scanIn h).2 (scanGen_zero s)]
  rfl

/-- Elements that store bits are equal exactly when the bits are. -/
theorem eq_iff_map_bitByte_eq {bs e : List Bool} {n : Nat} (hbs : bs.length = n) (he : e.length = n) :
    bs = e ↔ ∀ i < n, bs[i]?.map bitByte = e[i]?.map bitByte := by
  refine ⟨fun h _ _ => by rw [h], fun h => List.ext_getElem (hbs.trans he.symm) fun i hi hi' => ?_⟩
  have := h i (hbs ▸ hi)
  rwa [List.getElem?_eq_getElem hi, List.getElem?_eq_getElem hi', Option.map_some, Option.map_some, Option.some_inj,
    bitByte_inj] at this

/-- Settles O20: the window's bits against the bits ACGEN stages, element by element. -/
theorem acmatchComparesWithAcgen : Obligations.AcmatchComparesWithAcgen := by
  intro s bs hc h
  refine ⟨_, exec_acmatch h, fun t ht => ?_⟩
  obtain ⟨hlen, -, hholds⟩ := h
  rw [beq_iff_eq, eq_iff_map_bitByte_eq hlen (expand_accessCode_length _ _ (Config.pn_length hc))]
  refine forall₂_congr fun i hi => ?_
  rw [hholds i (hlen ▸ hi), outElem_of_exec_acgen hc ht hi]

/-- Settles O28: what ACGEN writes is a function of the LAP and the configuration, and ACMATCH compares the window with
that same function. -/
theorem accessCodeRoundTrip : Obligations.AccessCodeRoundTrip := by
  refine ⟨fun s s' t t' hc hcfg hlap h h' => ⟨fun i hi => ?_, ?_⟩, fun s s' t hc h hcfg hlap hoff hcopy => ?_⟩
  · rw [outElem_of_exec_acgen hc h hi, outElem_of_exec_acgen (hcfg ▸ hc) h' hi, hcfg, hlap]
  · obtain rfl := Host.Outcome.next.inj ((exec_acgen s).symm.trans h)
    obtain rfl := Host.Outcome.next.inj ((exec_acgen s').symm.trans h')
    simp only [hcfg, hlap, and_self]
  · have hlen := expand_accessCode_length s.cfg s.lap (Config.pn_length hc)
    obtain ⟨hsize, -⟩ := Config.sizes (hcfg ▸ hc)
    have hreads : s'.reads 72 (expand (accessCode s.cfg s.lap)) :=
      ⟨hlen, by omega, fun i hi => by rw [hcopy i (hlen ▸ hi), outElem_of_exec_acgen hc h (hlen ▸ hi)]⟩
    exact ⟨_, exec_acmatch hreads, rfl, by simp [hcfg, hlap]⟩

end Sys2Proof.Machine
end

section
/-! UNWHITEN (43_whitener.md R120, R121): what a success stages, bit by bit, and that the XOR with one sequence from one
start undoes itself. -/

namespace Sys2Proof.Machine

/-- What UNWHITEN stages for OUT when it reads the bits `bs` (43_whitener.md R120). -/
def State.unwhitened (s : State) (bs : List Bool) : List Bool :=
  unwhitenBits s.cfg.whitenSeq (whitenStart s.cfg s.clk.toNat s.skip.toNat) bs

@[simp] theorem State.unwhitened_length (s : State) (bs : List Bool) : (s.unwhitened bs).length = bs.length :=
  unwhitenBits_length _ _ bs

/-- UNWHITEN on a range that lies in IN and holds bits, with room in OUT. -/
theorem exec_unwhiten_eq_next {s : State} {bs : List Bool} (hout : s.len.toNat ≤ s.cfg.outSize)
    (h : s.reads s.len.toNat bs) :
    exec .unwhiten s =
      .next { s.committed with mem := s.mem.writeBytes outBase ((s.unwhitened bs).map bitByte) } := by
  have ⟨_, hin, _⟩ := h
  have hp : ¬paramTable .unwhiten s := not_false
  have hr : ¬rangeTable .unwhiten s := not_or.2 ⟨not_lt.2 hin, not_lt.2 hout⟩
  rw [exec_eq_commit, evalOf_finish hp hr (State.reads_scanIn h).2 (scanGen_zero s)]
  rfl

/-- The start index is reduced before the position is added; the spec's formula reduces the whole sum. -/
theorem State.unwhitened_getD (s : State) {bs : List Bool} {i : Nat} (hi : i < bs.length) :
    (s.unwhitened bs).getD i false = (bs.getD i false ^^
      s.cfg.whitenSeq.getD ((s.cfg.whitenIdx.getD (s.clk.toNat % 64) 0 + s.skip.toNat + i) % 127) false) := by
  rw [State.unwhitened, whitenStart, unwhitenBits_getD _ bs _ i (Nat.mod_lt _ (by decide)) hi, Nat.mod_add_mod]

/-- Settles O21: OUT is written with the staged bits, which R120's index formula gives one by one. -/
theorem unwhitenXorsSequence : Obligations.UnwhitenXorsSequence := by
  intro s bs hout h
  refine ⟨_, s.unwhitened bs, exec_unwhiten_eq_next hout h, ?_, outWritten_writeBytes _ _, fun i hi => ?_⟩
  · rw [State.unwhitened_length, h.1]
  · exact s.unwhitened_getD (h.1 ▸ hi)

/-- The same bit of the sequence meets each element twice and cancels. -/
theorem unwhitenBits_unwhitenBits (q bs : List Bool) (idx : Nat) :
    unwhitenBits q idx (unwhitenBits q idx bs) = bs := by
  induction bs generalizing idx with
  | nil => rfl
  | cons b bs ih => rw [unwhitenBits, unwhitenBits, ih, Bool.xor_assoc, Bool.xor_self, Bool.xor_false]

/-- Two states that agree on the tables, the clock and SKIP undo each other's whitening. -/
theorem State.unwhitened_unwhitened {s s' : State} (hcfg : s'.cfg = s.cfg) (hclk : s'.clk = s.clk)
    (hskip : s'.skip = s.skip) (bs : List Bool) : s'.unwhitened (s.unwhitened bs) = bs := by
  rw [State.unwhitened, State.unwhitened, hcfg, hclk, hskip, unwhitenBits_unwhitenBits]

/-- OUT after UNWHITEN holds the staged bits. -/
theorem outElem_of_exec_unwhiten {s t : State} {bs : List Bool} (hout : s.len.toNat ≤ s.cfg.outSize)
    (h : s.reads s.len.toNat bs) (ht : exec .unwhiten s = .next t) {i : Nat} (hi : i < s.len.toNat) :
    t.outElem i = (s.unwhitened bs)[i]?.map bitByte := by
  obtain rfl := Host.Outcome.next.inj ((exec_unwhiten_eq_next hout h).symm.trans ht)
  exact (outElem_writeBytes s.committed _ s.mem i).trans (if_pos (by rwa [State.unwhitened_length, h.1]))

/-- Settles O29: the second command reads what the first one staged, and unwhitening that gives the first input. -/
theorem unwhitenIsInvolution : Obligations.UnwhitenIsInvolution := by
  intro s s' t bs hout h ht hcfg hlen hclk hskip hin hcopy
  have ⟨hbs, _, hholds⟩ := h
  have hlenOut : (s.unwhitened bs).length = s.len.toNat := (s.unwhitened_length bs).trans hbs
  have hout' : s'.len.toNat ≤ s'.cfg.outSize := by rwa [hlen, hcfg]
  have h' : s'.reads s'.len.toNat (s.unwhitened bs) := by
    rw [hlen]
    refine ⟨hlenOut, hin, fun i hi => ?_⟩
    have hi := hlenOut ▸ hi
    rw [hcopy i hi, outElem_of_exec_unwhiten hout h ht hi]
  have ht' := exec_unwhiten_eq_next hout' h'
  refine ⟨_, ht', rfl, fun i hi => ?_⟩
  rw [outElem_of_exec_unwhiten hout' h' ht' (hlen ▸ hi), State.unwhitened_unwhitened hcfg hclk hskip,
    hholds i (hbs ▸ hi)]

end Sys2Proof.Machine
end

section
/-! FEC13 (44_fec.md R130, R131): majority decoding, triple by triple. -/

namespace Sys2Proof.Machine

theorem maj_eq_true_iff (a b c : Bool) : maj a b c = true ↔ 2 ≤ [a, b, c].count true := by revert a b c; decide

theorem maj_eq_decide (a b c : Bool) : maj a b c = decide (2 ≤ [a, b, c].count true) :=
  Bool.eq_iff_iff.2 ((maj_eq_true_iff a b c).trans decide_eq_true_iff.symm)

@[simp] theorem maj_self (b : Bool) : maj b b b = b := by cases b <;> rfl

/-- Settles O31: the definition, its count form, and the eight rows of R130. -/
theorem majorityTruthTable : Obligations.MajorityTruthTable :=
  ⟨fun a b c => ⟨rfl, maj_eq_true_iff a b c⟩, by decide⟩

theorem exists_triple {bs : List Bool} (h : 3 ≤ bs.length) : ∃ a b c rest, bs = a :: b :: c :: rest :=
  match bs, h with
  | a :: b :: c :: rest, _ => ⟨a, b, c, rest, rfl⟩
  | [], h | [_], h | [_, _], h => absurd h (by simp)

/-- Each output bit is the majority of its own triple. -/
theorem fec13Bits_getD {bs : List Bool} {n i : Nat} (hl : bs.length = 3 * n) (hi : i < n) :
    (fec13Bits bs).getD i false =
      maj (bs.getD (3 * i) false) (bs.getD (3 * i + 1) false) (bs.getD (3 * i + 2) false) := by
  induction i generalizing bs n with
  | zero =>
    obtain ⟨a, b, c, rest, rfl⟩ := exists_triple (bs := bs) (by omega)
    rfl
  | succ i ih =>
    obtain ⟨a, b, c, rest, rfl⟩ := exists_triple (bs := bs) (by omega)
    simp only [List.length_cons] at hl
    exact ih (n := n - 1) (by omega) (by omega)

/-- Three agreeing copies of every bit decode to the bits (44_fec.md R133). -/
theorem fec13Bits_copies (d : List Bool) : fec13Bits (d.flatMap fun b => [b, b, b]) = d := by
  induction d with
  | nil => rfl
  | cons b d ih => simp [fec13Bits, ih]

/-- FEC13 on a range that lies in IN and holds bits, with room in OUT. -/
theorem exec_fec13 {s : State} {bs : List Bool} (hout : s.len.toNat ≤ s.cfg.outSize)
    (h : s.reads (3 * s.len.toNat) bs) :
    exec .fec13 s = .next { s.committed with mem := s.mem.writeBytes outBase ((fec13Bits bs).map bitByte) } := by
  have ⟨_, hin, _⟩ := h
  have hp : ¬paramTable .fec13 s := not_false
  have hr : ¬rangeTable .fec13 s := not_or.2 ⟨not_lt.2 hin, not_lt.2 hout⟩
  rw [exec_eq_commit, evalOf_finish hp hr (State.reads_scanIn h).2 (scanGen_zero s)]
  rfl

/-- Settles O22: OUT is written with the decoded bits, each the majority of its triple. -/
theorem fec13WritesMajority : Obligations.Fec13WritesMajority := by
  intro s bs hout h
  have ⟨hlen, _, _⟩ := h
  refine ⟨_, fec13Bits bs, exec_fec13 hout h, fec13Bits_length bs _ hlen, outWritten_writeBytes _ _, fun i hi => ?_⟩
  rw [fec13Bits_getD hlen hi, maj_eq_decide]

end Sys2Proof.Machine
end

section
/-! FEC23 (44_fec.md R132): what the command does in terms of its blocks, when all of them decode and when one does not. -/

namespace Sys2Proof.Machine

/-- Past its checks FEC23 decodes its blocks. -/
theorem evalOf_fec23 {s : State} {bs : List Bool} (hout : 10 * s.blocks ≤ s.cfg.outSize)
    (h : s.reads (15 * s.blocks) bs) : evalOf .fec23 s = finish .fec23 s bs [] := by
  have ⟨_, hin, _⟩ := h
  exact evalOf_finish not_false (not_or.2 ⟨not_lt.2 hin, not_lt.2 hout⟩) (State.reads_scanIn h).2 (scanGen_zero s)

theorem exec_fec23_of_some {s : State} {bs d : List Bool} (hout : 10 * s.blocks ≤ s.cfg.outSize)
    (h : s.reads (15 * s.blocks) bs) (hd : fec23Blocks s.cfg.g23 s.blocks bs = some d) :
    exec .fec23 s = .next { s.committed with
      mem := s.mem.writeBytes outBase (d.map bitByte), result := BitVec.ofNat 32 (10 * s.blocks) } := by
  rw [exec_eq_commit, evalOf_fec23 hout h]
  simp only [finish, hd]
  rfl

theorem exec_fec23_of_none {s : State} {bs : List Bool} (hout : 10 * s.blocks ≤ s.cfg.outSize)
    (h : s.reads (15 * s.blocks) bs) (hd : fec23Blocks s.cfg.g23 s.blocks bs = none) :
    exec .fec23 s = .next (s.failed 5) := by
  rw [exec_eq_commit, evalOf_fec23 hout h]
  simp only [finish, hd]
  rfl

/-- The command decodes when every block's syndrome has at most one 1 or is a SYN entry. -/
theorem exists_fec23Blocks_eq_some {g23 bs : List Bool} {n : Nat} (hl : bs.length = 15 * n)
    (h : ∀ b < n, (syndromeOf g23 (rxBlock bs b)).count true ≤ 1 ∨
      ∃ j < 10, synEntry g23 j = syndromeOf g23 (rxBlock bs b)) : ∃ d, fec23Blocks g23 n bs = some d := by
  rw [← Option.ne_none_iff_exists', Ne, fec23Blocks_eq_none]
  rintro ⟨b, hb, hNone⟩
  obtain ⟨hTwo, hNoEntry⟩ := (fec23Block_eq_none (rxBlock_length hl hb)).1 hNone
  rcases h b hb with hOne | ⟨j, hj, hEntry⟩
  · omega
  · exact hNoEntry j hj hEntry

/-- Settles O23: no block stops the command, and each output block is the decoding of its received block. -/
theorem fec23WritesCorrectedBlocks : Obligations.Fec23WritesCorrectedBlocks := by
  intro s bs hout h hSyn
  have ⟨hlen, _, _⟩ := h
  obtain ⟨d, hd⟩ := exists_fec23Blocks_eq_some hlen hSyn
  refine ⟨_, d, exec_fec23_of_some hout h hd, fec23Blocks_length hd hlen, outWritten_writeBytes _ _,
    fun b hb i hi => ?_⟩
  obtain ⟨db, hdb, hBits⟩ := fec23Blocks_getD hd hlen hb
  rw [hBits i hi, fec23Block_eq_some (rxBlock_length hlen hb) hdb i hi, rxBlock_getD (by omega)]

end Sys2Proof.Machine
end

section
/-! Error correction under the rate-2/3 code (44_fec.md R133). The code is linear, so a received block has the syndrome of
its error pattern alone, and decoding it is decoding that pattern and adding the data (`fec23Block_encode23_xor`). What is
left is a check of the patterns with one and with two ones, which the default G23 (PRESUMED, log 12) passes. -/

namespace Sys2Proof.Machine

/-! XOR of bit vectors. -/

@[simp] theorem xorBits_length (a b : List Bool) : (xorBits a b).length = min a.length b.length := List.length_zipWith

/-- A vector added on both sides cancels. -/
theorem xorBits_xorBits_cancel {p q : List Bool} (r : List Bool) (h : p.length = q.length) :
    xorBits (xorBits p q) (xorBits p r) = xorBits q r := by
  have hBit : ∀ x y z : Bool, ((x ^^ y) ^^ (x ^^ z)) = (y ^^ z) := by decide
  exact List.ext_getElem (by simp; omega) fun i _ _ => by simp only [xorBits, List.getElem_zipWith, hBit]

theorem xorBits_replicate_false (d : List Bool) : xorBits d (List.replicate d.length false) = d :=
  List.ext_getElem (by simp) fun i _ _ => by simp [xorBits]

/-- Flipping a bit of a sum flips it in one summand. -/
theorem flipBit_xorBits (a b : List Bool) (j : Nat) : flipBit (xorBits a b) j = xorBits a (flipBit b j) := by
  refine List.ext_getElem (by simp [flipBit_length]) fun i _ _ => ?_
  by_cases hij : j = i <;> simp [flipBit, xorBits, hij]

/-! The code. -/

theorem lfsrDiv_data_length {g23 : List Bool} (hg : 5 ≤ g23.length) (d : List Bool) :
    (lfsrDiv d 15 10 g23).length = 5 := lfsrDiv_length d g23 15 10 (by decide) hg

/-- The data part of a received block is the data with the pattern's data part added. -/
theorem take_encode23_xor {g23 d : List Bool} (hd : d.length = 10) (e : List Bool) :
    (xorBits (encode23 g23 d) e).take 10 = xorBits d (e.take 10) := by
  rw [xorBits, List.take_zipWith, encode23, List.take_left' hd, xorBits]

/-- The parity part of a received block is the data's parity with the pattern's parity part added. -/
theorem drop_encode23_xor {g23 d : List Bool} (hd : d.length = 10) (e : List Bool) :
    (xorBits (encode23 g23 d) e).drop 10 = xorBits (lfsrDiv d 15 10 g23) (e.drop 10) := by
  rw [xorBits, List.drop_zipWith, encode23, List.drop_left' hd, xorBits]

/-- A valid encoding adds nothing to the syndrome (41_lfsr.md R83). -/
theorem syndromeOf_encode23_xor {g23 d e : List Bool} (hg : 5 ≤ g23.length) (hd : d.length = 10) (he : e.length = 15) :
    syndromeOf g23 (xorBits (encode23 g23 d) e) = syndromeOf g23 e := by
  have hLinear : lfsrDiv (xorBits d (e.take 10)) 15 10 g23 =
      xorBits (lfsrDiv d 15 10 g23) (lfsrDiv (e.take 10) 15 10 g23) :=
    (lfsrDivIsLinear d (e.take 10) g23 15 10 hd (by simp [he]) (by decide) hg).1
  rw [syndromeOf, take_encode23_xor hd, drop_encode23_xor hd, hLinear]
  exact xorBits_xorBits_cancel _ (by rw [lfsrDiv_data_length hg, lfsrDiv_data_length hg])

/-- Decoding a block in terms of its syndrome. -/
theorem fec23Block_eq_syndromeOf {g23 block : List Bool} (h : block.length = 15) :
    fec23Block g23 block = if 2 ≤ popcount (syndromeOf g23 block)
      then (synLookup g23 (syndromeOf g23 block)).map (flipBit (block.take 10)) else some (block.take 10) := by
  rw [fec23Block, ← syndromeOf_eq h]

/-- Decoding a received block is decoding its error pattern and adding the data. -/
theorem fec23Block_encode23_xor {g23 d e : List Bool} (hg : 5 ≤ g23.length) (hd : d.length = 10) (he : e.length = 15) :
    fec23Block g23 (xorBits (encode23 g23 d) e) = (fec23Block g23 e).map (xorBits d) := by
  have hlen : (xorBits (encode23 g23 d) e).length = 15 := by simp [encode23, lfsrDiv_data_length hg, hd, he]
  rw [fec23Block_eq_syndromeOf hlen, fec23Block_eq_syndromeOf he, syndromeOf_encode23_xor hg hd he,
    take_encode23_xor hd]
  split_ifs
  · rw [Option.map_map]
    exact congrArg (Option.map · _) (funext fun j => flipBit_xorBits d (e.take 10) j)
  · rfl

/-! Error patterns. -/

/-- The bit vectors of length `n` with `k` ones. -/
def patterns : Nat → Nat → List (List Bool)
  | 0, 0 => [[]]
  | 0, _ + 1 => []
  | n + 1, 0 => (patterns n 0).map (false :: ·)
  | n + 1, k + 1 => (patterns n (k + 1)).map (false :: ·) ++ (patterns n k).map (true :: ·)

theorem mem_patterns (e : List Bool) : e ∈ patterns e.length (e.count true) := by
  induction e with
  | nil => exact List.mem_singleton_self []
  | cons b e ih =>
    cases b with
    | false => cases hk : e.count true <;> simp_all [patterns]
    | true => simp [patterns, ih]

/-- A pattern with at most one 1 decodes to no error in the data (44_fec.md R133, item 2). -/
theorem fec23Block_of_count_le_one {e : List Bool} (he : e.length = 15) (hk : e.count true ≤ 1) :
    fec23Block Config.default.g23 e = some (List.replicate 10 false) := by
  have hPatterns : ∀ k ≤ 1, ∀ e ∈ patterns 15 k,
      fec23Block Config.default.g23 e = some (List.replicate 10 false) := by decide
  exact hPatterns _ hk e (he ▸ mem_patterns e)

/-- A pattern with two ones is uncorrectable (44_fec.md R133, item 3). -/
theorem fec23Block_of_count_eq_two {e : List Bool} (he : e.length = 15) (hk : e.count true = 2) :
    fec23Block Config.default.g23 e = none := by
  have hPatterns : ∀ e ∈ patterns 15 2, fec23Block Config.default.g23 e = none := by decide
  exact hPatterns e (by simpa only [he, hk] using mem_patterns e)

/-- A valid encoding with at most one bit flipped decodes to its data. -/
theorem fec23Block_encode23_of_count_le_one {d e : List Bool} (hd : d.length = 10) (he : e.length = 15)
    (hk : e.count true ≤ 1) : fec23Block Config.default.g23 (xorBits (encode23 Config.default.g23 d) e) = some d := by
  rw [fec23Block_encode23_xor (by decide) hd he, fec23Block_of_count_le_one he hk, Option.map_some, ← hd,
    xorBits_replicate_false]

/-- A valid encoding with two bits flipped is uncorrectable. -/
theorem fec23Block_encode23_of_count_eq_two {d e : List Bool} (hd : d.length = 10) (he : e.length = 15)
    (hk : e.count true = 2) : fec23Block Config.default.g23 (xorBits (encode23 Config.default.g23 d) e) = none := by
  rw [fec23Block_encode23_xor (by decide) hd he, fec23Block_of_count_eq_two he hk, Option.map_none]

/-! The commands. -/

/-- The blocks decode to the data when each decodes to its own ten bits of it. -/
theorem fec23Blocks_eq_some {g23 : List Bool} {n : Nat} {bs d : List Bool} (hd : d.length = 10 * n)
    (h : ∀ b < n, fec23Block g23 (rxBlock bs b) = some ((d.drop (10 * b)).take 10)) :
    fec23Blocks g23 n bs = some d := by
  induction n generalizing bs d with
  | zero => rw [List.length_eq_zero_iff.1 hd, fec23Blocks]
  | succ n ih =>
    have hFirst : fec23Block g23 (bs.take 15) = some (d.take 10) := by simpa [rxBlock_zero] using h 0 (by omega)
    have hRest : fec23Blocks g23 n (bs.drop 15) = some (d.drop 10) := by
      refine ih (by simp; omega) fun b hb => ?_
      rw [rxBlock_drop, h (b + 1) (by omega), List.drop_drop, Nat.mul_add_one, Nat.add_comm]
    simp only [fec23Blocks, hFirst, hRest, Option.map_some, List.take_append_drop]

/-- Three agreeing copies of every bit: FEC13 gives the bits (44_fec.md R133, item 1). -/
theorem exec_fec13_copies {s : State} {d : List Bool} (hd : d.length = s.len.toNat)
    (hout : s.len.toNat ≤ s.cfg.outSize) (h : s.reads (3 * s.len.toNat) (d.flatMap fun b => [b, b, b])) :
    ∃ t, exec .fec13 s = .next t ∧ t.status.errFlag = false ∧ ∀ i < s.len.toNat, t.outElem i = d[i]?.map bitByte := by
  refine ⟨_, exec_fec13 hout h, rfl, fun i hi => ?_⟩
  rw [fec13Bits_copies]
  exact (outElem_writeBytes s.committed d s.mem i).trans (if_pos (hd ▸ hi))

/-- Settles O32: the copies vote alike, and each received block decodes as its error pattern does, with the data added. -/
theorem fecCorrectsSingleErrors : Obligations.FecCorrectsSingleErrors := by
  refine ⟨fun s d hd hout h => exec_fec13_copies hd hout h, fun s bs d hg hout h hd hErr => ?_,
    fun s bs hg hout h hErr => ?_⟩
  · have hBlocks : fec23Blocks s.cfg.g23 s.blocks bs = some d := by
      refine fec23Blocks_eq_some hd fun b hb => ?_
      obtain ⟨e, he, hk, hrx⟩ := hErr b hb
      rw [hrx, hg]
      exact fec23Block_encode23_of_count_le_one (by simp; omega) he hk
    refine ⟨_, exec_fec23_of_some hout h hBlocks, rfl, rfl, fun i hi => ?_⟩
    exact (outElem_writeBytes { s.committed with result := BitVec.ofNat 32 (10 * s.blocks) } d s.mem i).trans
      (if_pos (hd ▸ hi))
  · obtain ⟨b, hb, d, e, hd, he, hk, hrx⟩ := hErr
    refine exec_fec23_of_none hout h ((fec23Blocks_eq_none _ _ _).2 ⟨b, hb, ?_⟩)
    rw [hrx, hg]
    exact fec23Block_encode23_of_count_eq_two hd he hk

end Sys2Proof.Machine
end

section
/-! CRC16 (45_crc.md R150 to R152): words as polynomials over GF(2), one step of the register as multiplication by `D`,
the remainder it leaves, and CRC16's whole next state. The properties of R152 follow from the remainder, because a word
is determined by its polynomial. -/

namespace Sys2Proof.Machine

open Polynomial

/-! Words as polynomials (00_scope.md R11). -/

@[simp] theorem bitsOf_length (n : Nat) (v : BitVec n) : (bitsOf n v).length = n := by simp [bitsOf]

/-- Bit `i` is the coefficient of `D^i`. -/
theorem coeff_polyOf_bitsOf {n : Nat} (v : BitVec n) (i : Nat) :
    (polyOf (bitsOf n v)).coeff i = bitCoeff (v.getLsbD i) := by
  rw [coeff_polyOf]
  by_cases hi : i < n
  · simp [bitsOf, hi]
  · simp [bitsOf, hi, BitVec.getLsbD_of_ge v i (not_lt.1 hi)]

theorem degree_polyOf_bitsOf_lt {n : Nat} (v : BitVec n) : (polyOf (bitsOf n v)).degree < n := by
  simpa using degree_polyOf_lt (bitsOf n v)

/-- Words of one width are told apart by their polynomials. -/
theorem eq_of_polyOf_bitsOf_eq {n : Nat} {v w : BitVec n} (h : polyOf (bitsOf n v) = polyOf (bitsOf n w)) : v = w :=
  BitVec.eq_of_getLsbD_eq fun i _ => bitCoeff_injective <| by
    rw [← coeff_polyOf_bitsOf, h, coeff_polyOf_bitsOf]

@[simp] theorem polyOf_bitsOf_zero (n : Nat) : polyOf (bitsOf n 0#n) = 0 := by
  ext i
  simp [coeff_polyOf_bitsOf]

/-- XOR is addition. -/
theorem polyOf_bitsOf_xor {n : Nat} (v w : BitVec n) :
    polyOf (bitsOf n (v ^^^ w)) = polyOf (bitsOf n v) + polyOf (bitsOf n w) := by
  ext i
  rw [coeff_add, coeff_polyOf_bitsOf, BitVec.getLsbD_xor, bitCoeff_xor, coeff_polyOf_bitsOf, coeff_polyOf_bitsOf]

/-- Zero extension keeps the polynomial. -/
theorem polyOf_bitsOf_setWidth {n m : Nat} (h : n ≤ m) (v : BitVec n) :
    polyOf (bitsOf m (v.setWidth m)) = polyOf (bitsOf n v) := by
  ext i
  rw [coeff_polyOf_bitsOf, coeff_polyOf_bitsOf, BitVec.getLsbD_setWidth, Bool.and_eq_right_iff_imp.2]
  exact fun hi => decide_eq_true ((BitVec.lt_of_getLsbD hi).trans_le h)

/-- A shift left is multiplication by `D`, but for the bit that leaves. -/
theorem polyOf_bitsOf_shiftLeft_one {n : Nat} (v : BitVec (n + 1)) :
    polyOf (bitsOf (n + 1) (v <<< 1)) + C (bitCoeff (v.getLsbD n)) * X ^ (n + 1) =
      X * polyOf (bitsOf (n + 1) v) := by
  ext i
  cases i with
  | zero => simp [coeff_polyOf_bitsOf]
  | succ i =>
    rw [coeff_add, coeff_C_mul_X_pow, coeff_X_mul, coeff_polyOf_bitsOf, coeff_polyOf_bitsOf]
    obtain hi | rfl | hi := Nat.lt_trichotomy i n
    · simp [hi, hi.ne, BitVec.getLsbD_eq_getElem (Nat.lt_succ_of_lt hi)]
    · simp
    · simp [hi.not_gt, hi.ne', BitVec.getLsbD_of_ge v i hi]

/-! The register (45_crc.md R150). -/

/-- The feedback bit enters at bit 0 and is XORed into bits 5 and 12: it switches one constant on or off. -/
theorem crcStep_eq (r : BitVec 16) (b : Bool) :
    crcStep r b = (r <<< 1) ^^^ (if r.getLsbD 15 ^^ b then 0x1021 else 0) := by
  have hEnter : (r <<< 1) ||| 1#16 = (r <<< 1) ^^^ 1#16 := by
    refine BitVec.eq_of_getLsbD_eq fun i _ => ?_
    cases i <;> simp [BitVec.getLsbD_one]
  unfold crcStep
  cases r.getLsbD 15 ^^ b
  · simp
  · change ((r <<< 1) ||| 1#16) ^^^ 0x1020 = _
    rw [hEnter, BitVec.xor_assoc]
    rfl

/-- The taps are the generator below its leading term (45_crc.md R151). -/
theorem crcPoly_eq : crcPoly = X ^ 16 + polyOf (bitsOf 16 0x1021) := by
  simp [crcPoly, bitsOf, List.range_succ, bitCoeff]
  ring

theorem crcPoly_monic : crcPoly.Monic := by
  rw [crcPoly_eq]
  exact monic_X_pow_add (degree_polyOf_bitsOf_lt _)

theorem degree_crcPoly : crcPoly.degree = 16 := by
  unfold crcPoly
  compute_degree!

/-- One step maps `reg(D)` to `reg(D)·D + b·D^16` modulo the generator (45_crc.md R151). -/
theorem polyOf_crcStep (r : BitVec 16) (b : Bool) :
    polyOf (bitsOf 16 (crcStep r b)) =
      X * polyOf (bitsOf 16 r) + C (bitCoeff b) * X ^ 16 + C (bitCoeff (r.getLsbD 15 ^^ b)) * crcPoly := by
  have hTaps : polyOf (bitsOf 16 (if r.getLsbD 15 ^^ b then (0x1021 : BitVec 16) else 0)) =
      C (bitCoeff (r.getLsbD 15 ^^ b)) * polyOf (bitsOf 16 0x1021) := by
    cases r.getLsbD 15 ^^ b <;> simp [bitCoeff]
  rw [crcStep_eq, polyOf_bitsOf_xor, hTaps, crcPoly_eq, bitCoeff_xor, C_add]
  have hCancel := CharTwo.add_self_eq_zero ((C (bitCoeff b) + C (bitCoeff (r.getLsbD 15))) * X ^ 16)
  linear_combination polyOf_bitsOf_shiftLeft_one r - hCancel

/-- The register invariant behind R151: every step keeps the congruence, its feedback adding a multiple of the
generator. -/
theorem crcPoly_dvd_foldl_crcStep_sub (r : BitVec 16) (bs : List Bool) :
    crcPoly ∣ polyOf (bitsOf 16 (bs.foldl crcStep r)) -
      (polyOf (bitsOf 16 r) * X ^ bs.length + polyOf bs.reverse * X ^ 16) := by
  induction bs generalizing r with
  | nil => simp
  | cons b bs ih =>
    have hStep := dvd_add (ih (crcStep r b))
      (dvd_mul_left crcPoly (C (bitCoeff (r.getLsbD 15 ^^ b)) * X ^ bs.length))
    rw [polyOf_crcStep] at hStep
    rw [List.foldl_cons, List.reverse_cons, polyOf_append, List.length_reverse, List.length_cons, polyOf_cons,
      polyOf_nil]
    convert hStep using 1
    ring

/-- The register holds the remainder (45_crc.md R151): it is congruent to it modulo the generator, and of lower
degree. -/
theorem polyOf_foldl_crcStep (r : BitVec 16) (bs : List Bool) :
    polyOf (bitsOf 16 (bs.foldl crcStep r)) =
      (polyOf (bitsOf 16 r) * X ^ bs.length + polyOf bs.reverse * X ^ 16) %ₘ crcPoly := by
  have hdegree : (polyOf (bitsOf 16 (bs.foldl crcStep r))).degree < crcPoly.degree := by
    rw [degree_crcPoly]
    exact degree_polyOf_bitsOf_lt _
  rw [← (modByMonic_eq_self_iff crcPoly_monic).2 hdegree]
  exact modByMonic_eq_of_dvd_sub crcPoly_monic (crcPoly_dvd_foldl_crcStep_sub r bs)

/-- The CRC of a bit range is the remainder that R151 states. -/
theorem polyOf_crc16Bits (u : BitVec 8) (bs : List Bool) :
    polyOf (bitsOf 16 (crc16Bits u bs)) =
      (polyOf (bitsOf 8 u) * X ^ bs.length + polyOf bs.reverse * X ^ 16) %ₘ crcPoly := by
  rw [crc16Bits, polyOf_foldl_crcStep, polyOf_bitsOf_setWidth (by decide)]

/-- The published check value of CRC-16/CCITT-FALSE: seed 0xFFFF, the ASCII bytes "123456789" (45_crc.md R151). -/
theorem foldl_crcStep_checkString :
    (expand [0x31, 0x32, 0x33, 0x34, 0x35, 0x36, 0x37, 0x38, 0x39]).foldl crcStep 0xFFFF = 0x29B1 := by
  decide +kernel

/-- The CRC of the data's sum from the seeds' sum is the sum of the CRCs (45_crc.md R152). -/
theorem crc16Bits_xor (u v : BitVec 8) {a b : List Bool} (h : a.length = b.length) :
    crc16Bits (u ^^^ v) (List.zipWith (· ^^ ·) a b) = crc16Bits u a ^^^ crc16Bits v b := by
  apply eq_of_polyOf_bitsOf_eq
  rw [polyOf_bitsOf_xor, polyOf_crc16Bits, polyOf_crc16Bits, polyOf_crc16Bits, ← add_modByMonic, polyOf_bitsOf_xor,
    List.reverse_zipWith h, polyOf_zipWith_xor (by simp [h]), List.length_zipWith, h, min_self]
  congr 1
  ring

/-- The register's own bits, most significant first, clear it: the remainder is added to itself. -/
theorem foldl_crcStep_reverse_self (r : BitVec 16) : (bitsOf 16 r).reverse.foldl crcStep r = 0 := by
  apply eq_of_polyOf_bitsOf_eq
  rw [polyOf_foldl_crcStep, List.reverse_reverse, List.length_reverse, bitsOf_length,
    CharTwo.add_self_eq_zero, zero_modByMonic]
  exact (polyOf_bitsOf_zero 16).symm

/-- The CRC of the range with its CRC appended, most significant bit first, is 0 (45_crc.md R152). -/
theorem crc16Bits_append_self (u : BitVec 8) (bs : List Bool) :
    crc16Bits u (bs ++ (bitsOf 16 (crc16Bits u bs)).reverse) = 0 := by
  rw [crc16Bits, List.foldl_append]
  exact foldl_crcStep_reverse_self _

/-- Bits 15 to 0 of RESULT are the CRC's bits, most significant first. -/
theorem map_getLsbD_setWidth_eq_reverse (c : BitVec 16) :
    (List.range 16).map (fun i => (c.setWidth 32).getLsbD (15 - i)) = (bitsOf 16 c).reverse := by
  refine List.ext_getElem (by simp) fun i hi _ => ?_
  simp [bitsOf, show 15 - i < 32 by omega]

/-! CRC16 (45_crc.md R150). -/

/-- CRC16 on a range that lies in IN and holds bits. -/
theorem exec_crc16 {s : State} {bs : List Bool} (h : s.reads s.len.toNat bs) :
    exec .crc16 s = .next { s.committed with result := (crc16Bits s.uap bs).setWidth 32 } := by
  have ⟨_, hin, _⟩ := h
  have hp : ¬paramTable .crc16 s := not_false
  have hr : ¬rangeTable .crc16 s := not_lt.2 hin
  rw [exec_eq_commit, evalOf_finish hp hr (State.reads_scanIn h).2 (scanGen_zero s)]
  rfl

/-- An empty range that does not start past the end of IN holds no bits. -/
theorem State.reads_nil {s : State} (h : s.offset.toNat ≤ s.cfg.inSize) : s.reads 0 [] :=
  ⟨rfl, h, fun _ hi => absurd hi (Nat.not_lt_zero _)⟩

/-- Settles O24: RESULT is the register, zero-extended, and the register is the remainder. -/
theorem crc16IsPolynomialRemainder : Obligations.Crc16IsPolynomialRemainder := by
  refine ⟨fun s bs h => ⟨_, exec_crc16 h, ?_, ?_⟩, foldl_crcStep_checkString⟩
  · rw [BitVec.toNat_setWidth_of_le (by decide)]
    exact (crc16Bits s.uap bs).isLt
  · rw [polyOf_bitsOf_setWidth (by decide), polyOf_crc16Bits]

/-- Settles O33: the empty range leaves the seed, the remainder is linear, and a remainder added to itself is 0. -/
theorem crc16Properties : Obligations.Crc16Properties := by
  refine ⟨fun s bs h => exec_crc16 h, fun s hlen hoff => ?_, fun u a b h => ⟨?_, ?_⟩,
    fun s s' t bs h ht hu _ h' => ?_⟩
  · have hreads : s.reads s.len.toNat [] := by
      rw [hlen]
      exact State.reads_nil hoff
    exact ⟨_, exec_crc16 hreads, BitVec.setWidth_setWidth (x := s.uap) (v := 16) (by omega)⟩
  · simpa using crc16Bits_xor 0 0 h
  · have hZero := crc16Bits_xor 0 u (List.length_replicate (n := a.length) (a := false)).symm
    rwa [show 0 ^^^ u = u from BitVec.zero_xor, ← xorBits, xorBits_replicate_false] at hZero
  · obtain rfl := Host.Outcome.next.inj ((exec_crc16 h).symm.trans ht)
    refine ⟨_, exec_crc16 h', ?_⟩
    rw [map_getLsbD_setWidth_eq_reverse, hu, crc16Bits_append_self]
    rfl

end Sys2Proof.Machine
end

section
/-! From the issue of a command to its commit (60_exceptions.md R61, R62, R68): a write of CMD, the engine's turn, and what a
failed turn leaves. -/

namespace Sys2Proof.Machine

/-- Settles O4: the engine's turn on the decoding of the pending word, its three cases apart. -/
theorem stepRunsPendingCommand : Obligations.StepRunsPendingCommand := by
  intro s hTurn
  rw [step_engineTurn hTurn]
  exact ⟨fun _ _ hp hd => engineStep_ok (s := { s with inbox := s.inbox.tail }) hp hd,
    fun _ _ hp hd => engineStep_error (s := { s with inbox := s.inbox.tail }) hp hd,
    fun hp => engineStep_idle (s := { s with inbox := s.inbox.tail }) hp⟩

/-- Settles O5: the issue, then the engine's turn on the word issued, which decodes to its command. -/
theorem cmdWriteThenEngineTurnRunsCommand : Obligations.CmdWriteThenEngineTurnRunsCommand := by
  intro s i rest hp
  rw [run_succ_next (step_issue hp (encode i) (.engine :: rest)), run_one]
  exact engineStep_ok (s := issue (encode i) { s with inbox := rest }) rfl ((decodeWord_eq_ok _ i).2 rfl)

/-- The interrupt line is low after an issue, which clears DONE (60_exceptions.md R61). -/
@[simp] theorem issue_irq (w : Word) (s : State) : (issue w s).irq = false := Bool.and_false _

/-- Settles O6: a write of CMD is an issue while Idle and nothing while busy. -/
theorem cmdWriteIssuesOnlyWhenIdle : Obligations.CmdWriteIssuesOnlyWhenIdle := by
  refine fun s v rest => ⟨fun hp => ⟨_, step_issue hp v rest, issue_irq v _, rfl⟩, fun w hp => ?_⟩
  have hstep := step_writeReg s .cmd v rest
  rwa [writeReg, whenIdle_busy (s := { s with inbox := rest }) hp] at hstep

theorem ErrorCode.code_mem (c : ErrorCode) : c.code ∈ ([1, 2, 3, 4, 5] : List (BitVec 4)) := by cases c <;> decide

/-- Settles O9: a turn that leaves ERR set is a failing commit, as a successful commit clears ERR. -/
theorem failedCommandWritesOnlyStatus : Obligations.FailedCommandWritesOnlyStatus := by
  intro s t w hp h hErr
  rcases engineStep_next h with ⟨hIdle, -⟩ | ⟨w', i, S, -, -, -, rfl⟩ | ⟨w', c, -, rfl⟩
  · rw [hp] at hIdle; cases hIdle
  · rw [commitOk_status] at hErr; cases hErr
  · exact ⟨c.code, c.code_mem, rfl⟩

end Sys2Proof.Machine
end

section
/-! The error codes of the commands (60_exceptions.md R60, R63 to R67): the checks come in one order, so the evaluation says
of each code exactly when a command ends with it. -/

namespace Sys2Proof.Machine

/-! Scans. -/

/-- A command that continues a scan fails when the scan meets a contract violation, or with what it does on the bits. -/
theorem Scan.onBits_eq_err (r : Scan) (k : List Bool → Evaluation) (c : ErrorCode) :
    r.onBits k = .err c ↔ (r = .contract ∧ c = .contract) ∨ ∃ bs, r = .bits bs ∧ k bs = .err c := by
  cases r <;> simp [eq_comm]

/-- An element that breaks the contract has its mark and is no bit (60_exceptions.md R66). -/
theorem isSome_and_not_isBit_iff (e : Option Byte) :
    (e.isSome = true ∧ ¬isBit e) ↔ ∃ b, e = some b ∧ b ≠ 0 ∧ b ≠ 1 := by
  cases e <;> simp [isBit]

/-- A scan that meets no missing mark either gives bits or meets a contract violation. -/
theorem Scan.eq_contract_iff {r : Scan} (h : r ≠ .unwritten) : r = .contract ↔ ¬∃ bs, r = .bits bs := by
  cases r with
  | bits bs => simp
  | contract => simp
  | unwritten => exact absurd rfl h

/-- On marked elements a scan of IN meets a contract violation exactly when some element is no bit. -/
theorem scanIn_eq_contract_of_marked {s : State} {n : Nat}
    (h : ∀ j < n, (s.inElem (s.offset.toNat + j)).isSome = true) :
    s.scanIn n = .contract ↔ ∃ j < n, ¬isBit (s.inElem (s.offset.toNat + j)) := by
  have hMarked : s.scanIn n ≠ .unwritten := fun e => by
    obtain ⟨j, hj, hNone, -⟩ := (scanIn_eq_unwritten s n).1 e
    simpa [hNone] using h j hj
  rw [Scan.eq_contract_iff hMarked, scanIn_bits_iff]
  simp

/-- On marked elements a scan of GEN meets a contract violation exactly when some element is no bit. -/
theorem scanGen_eq_contract_of_marked {s : State} {n : Nat} (h : ∀ j < n, (s.genElem j).isSome = true) :
    s.scanGen n = .contract ↔ ∃ j < n, ¬isBit (s.genElem j) := by
  have hMarked : s.scanGen n ≠ .unwritten := fun e => by
    obtain ⟨j, hj, hNone, -⟩ := (scanGen_eq_unwritten s n).1 e
    simpa [hNone] using h j hj
  rw [Scan.eq_contract_iff hMarked, scanGen_bits_iff]
  simp

/-! The error a command evaluates to. -/

/-- The computation fails only in FEC23, and only with UNCORRECTABLE. -/
theorem finish_eq_err {i : Instr} {s : State} {bs g : List Bool} {c : ErrorCode} (h : finish i s bs g = .err c) :
    c = .uncorrectable ∧ i = .fec23 := by
  rcases finish_cases i s bs g with ⟨S, e⟩ | ⟨hi, e⟩ <;> rw [e] at h <;> cases h
  exact ⟨rfl, hi⟩

/-- The scans of a command meet a contract violation: in IN, or, IN holding bits, in GEN (60_exceptions.md R66). -/
def ScansBreakContract (i : Instr) (s : State) : Prop :=
  s.scanIn (checkedIn i s) = .contract ∨
    (∃ bs, s.scanIn (checkedIn i s) = .bits bs) ∧ s.scanGen (checkedGen i s) = .contract

/-- Past PARAM and RANGE a command fails when a scan breaks the contract, or with what its computation gives. -/
theorem evalOf_scan_eq_err {i : Instr} {s : State} (hp : ¬paramTable i s) (hr : ¬rangeTable i s) (c : ErrorCode) :
    evalOf i s = .err c ↔ (ScansBreakContract i s ∧ c = .contract) ∨
      ∃ bs g, s.scanIn (checkedIn i s) = .bits bs ∧ s.scanGen (checkedGen i s) = .bits g ∧ finish i s bs g = .err c := by
  simp only [evalOf_scan hp hr, Scan.onBits_eq_err, ScansBreakContract]
  constructor
  · rintro (⟨hIn, hc⟩ | ⟨bs, hIn, ⟨hGen, hc⟩ | ⟨g, hGen, hf⟩⟩)
    · exact .inl ⟨.inl hIn, hc⟩
    · exact .inl ⟨.inr ⟨⟨bs, hIn⟩, hGen⟩, hc⟩
    · exact .inr ⟨bs, g, hIn, hGen, hf⟩
  · rintro (⟨hIn | ⟨⟨bs, hIn⟩, hGen⟩, hc⟩ | ⟨bs, g, hIn, hGen, hf⟩)
    · exact .inl ⟨hIn, hc⟩
    · exact .inr ⟨bs, hIn, .inl ⟨hGen, hc⟩⟩
    · exact .inr ⟨bs, hIn, .inr ⟨g, hGen, hf⟩⟩

/-- Everything a failing evaluation can be: PARAM, RANGE, CONTRACT, each past the checks before it, or FEC23's
UNCORRECTABLE (60_exceptions.md R63). -/
theorem evalOf_eq_err {i : Instr} {s : State} {c : ErrorCode} (h : evalOf i s = .err c) :
    (c = .param ∧ paramTable i s) ∨
    (c = .range ∧ ¬paramTable i s ∧ rangeTable i s) ∨
    (c = .contract ∧ ¬paramTable i s ∧ ¬rangeTable i s ∧ ScansBreakContract i s) ∨
    (c = .uncorrectable ∧ i = .fec23) := by
  by_cases hp : paramTable i s
  · rw [evalOf_param hp] at h; cases h
    exact .inl ⟨rfl, hp⟩
  by_cases hr : rangeTable i s
  · rw [evalOf_range hp hr] at h; cases h
    exact .inr (.inl ⟨rfl, hp, hr⟩)
  rcases (evalOf_scan_eq_err hp hr c).1 h with ⟨hScan, hc⟩ | ⟨bs, g, -, -, hf⟩
  · exact .inr (.inr (.inl ⟨hc, hp, hr, hScan⟩))
  · exact .inr (.inr (.inr (finish_eq_err hf)))

theorem evalOf_eq_err_param (i : Instr) (s : State) : evalOf i s = .err .param ↔ paramTable i s :=
  ⟨fun h => by simpa using evalOf_eq_err h, evalOf_param⟩

theorem evalOf_eq_err_range (i : Instr) (s : State) :
    evalOf i s = .err .range ↔ ¬paramTable i s ∧ rangeTable i s :=
  ⟨fun h => by simpa using evalOf_eq_err h, fun ⟨hp, hr⟩ => evalOf_range hp hr⟩

theorem evalOf_eq_err_contract (i : Instr) (s : State) :
    evalOf i s = .err .contract ↔ ¬paramTable i s ∧ ¬rangeTable i s ∧ ScansBreakContract i s :=
  ⟨fun h => by simpa using evalOf_eq_err h, fun ⟨hp, hr, hScan⟩ => (evalOf_scan_eq_err hp hr _).2 (.inl ⟨hScan, rfl⟩)⟩

theorem eq_fec23_of_uncorrectable {i : Instr} {s : State} (h : evalOf i s = .err .uncorrectable) : i = .fec23 := by
  simpa using evalOf_eq_err h

/-- A command that fails has made exactly the failing commit (60_exceptions.md R68). -/
theorem failsWith_iff_exec (i : Instr) (s : State) (c : ErrorCode) :
    FailsWith i s c.code ↔ exec i s = .next (s.failed c.code) := by
  refine ⟨fun h => ?_, fun h => ⟨_, h, rfl, rfl⟩⟩
  rw [exec_eq_commit, (failsWith_iff i s c).1 h, commit_err, commitErr_eq_failed]

/-! The listed outcomes (60_exceptions.md R60). -/

/-- A command whose scans break the contract reads some range. -/
theorem ScansBreakContract.reads {i : Instr} {s : State} (h : ScansBreakContract i s) :
    checkedIn i s ≠ 0 ∨ checkedGen i s ≠ 0 := by
  rcases h with h | ⟨-, h⟩
  · exact .inl fun e => by rw [e, scanIn_zero] at h; cases h
  · exact .inr fun e => by rw [e, scanGen_zero] at h; cases h

/-- Every error a command evaluates to is listed for it: its table has a row for it. -/
theorem code_mem_listedCodes {i : Instr} {s : State} {c : ErrorCode} (h : evalOf i s = .err c) :
    c.code ∈ listedCodes i := by
  rcases evalOf_eq_err h with ⟨rfl, hp⟩ | ⟨rfl, -, hr⟩ | ⟨rfl, -, -, hScan⟩ | ⟨rfl, rfl⟩
  · cases i <;> simp [paramTable, listedCodes, ErrorCode.code] at hp ⊢
  · cases i <;> simp [rangeTable, listedCodes, ErrorCode.code] at hr ⊢
  · have hReads := hScan.reads
    cases i <;> simp [checkedIn, checkedGen, listedCodes, ErrorCode.code] at hReads ⊢
  · decide

/-- A command that reads no element is never the fault (10_state.md R29). -/
theorem exec_ne_fault_of_no_reads {i : Instr} {s : State} (hin : checkedIn i s = 0) (hgen : checkedGen i s = 0)
    (f : Fault) : exec i s ≠ .fault f := by
  obtain ⟨t, ht⟩ := exec_next_of_no_reads hin hgen
  simp [ht]

/-- Settles O8: the commit of what the evaluation gives. -/
theorem everyCommandEndsInOneListedOutcome : Obligations.EveryCommandEndsInOneListedOutcome := by
  intro i s
  cases h : exec i s with
  | fault f =>
    obtain rfl := (exec_fault h).1
    refine .inl ⟨rfl, ?_, ?_, ?_⟩ <;> rintro rfl <;> exact exec_ne_fault_of_no_reads rfl rfl _ h
  | refused r => exact absurd h (exec_ne_refused i s r)
  | next t =>
    rcases exec_next h with ⟨S, -, rfl⟩ | ⟨c, hc, rfl⟩
    · exact .inr ⟨_, rfl, rfl, rfl, rfl, .inl ⟨rfl, rfl⟩⟩
    · exact .inr ⟨_, rfl, rfl, rfl, rfl, .inr ⟨rfl, code_mem_listedCodes hc⟩⟩

/-! PARAM and RANGE (60_exceptions.md R64, R65). -/

/-- Settles O10: PARAM is checked first. -/
theorem paramConditionsComplete : Obligations.ParamConditionsComplete :=
  fun i s => (failsWith_iff i s .param).trans (evalOf_eq_err_param i s)

theorem failsWith_range_iff (i : Instr) (s : State) : FailsWith i s 3 ↔ ¬paramTable i s ∧ rangeTable i s :=
  (failsWith_iff i s .range).trans (evalOf_eq_err_range i s)

/-- A command whose evaluation succeeds leaves ERR clear (60_exceptions.md R62). -/
theorem exec_of_evalOf_ok {i : Instr} {s : State} (h : ∃ S, evalOf i s = .ok S) :
    ∃ t, exec i s = .next t ∧ t.status.errFlag = false := by
  obtain ⟨S, hS⟩ := h
  exact ⟨commitOk S s, by rw [exec_eq_commit, hS, commit_ok], rfl⟩

section EmptyRange
variable {i : Instr} {s : State} (hi : i ∈ [Instr.a2h, .unwhiten, .fec13, .fec23, .crc16]) (hlen : s.len = 0)
include hi hlen

/-- With `LEN = 0` a command that counts its range by LEN has no PARAM error, and no RANGE error but a range that starts
past the end of IN (60_exceptions.md R65). -/
theorem checks_of_len_zero : ¬paramTable i s ∧ (rangeTable i s ↔ s.cfg.inSize < s.offset.toNat) := by
  simp only [List.mem_cons, List.not_mem_nil, or_false] at hi
  rcases hi with rfl | rfl | rfl | rfl | rfl <;> simp [paramTable, rangeTable, State.blocks, hlen]

/-- With `LEN = 0` such a command reads no element. -/
theorem checked_of_len_zero : checkedIn i s = 0 ∧ checkedGen i s = 0 := by
  simp only [List.mem_cons, List.not_mem_nil, or_false] at hi
  rcases hi with rfl | rfl | rfl | rfl | rfl <;> simp [checkedIn, checkedGen, State.blocks, hlen]

/-- With `LEN = 0` such a command's computation succeeds: FEC23 has no block to decode. -/
theorem finish_of_len_zero : ∃ S, finish i s [] [] = .ok S := by
  rcases finish_cases i s [] [] with h | ⟨rfl, h⟩
  · exact h
  · simp [finish, State.blocks, hlen, fec23Blocks] at h

/-- With `LEN = 0` and a range that does not start past the end of IN such a command succeeds. -/
theorem evalOf_of_len_zero (hoff : ¬s.cfg.inSize < s.offset.toNat) : ∃ S, evalOf i s = .ok S := by
  obtain ⟨hp, hr⟩ := checks_of_len_zero hi hlen
  obtain ⟨hin, hgen⟩ := checked_of_len_zero hi hlen
  rw [evalOf_finish hp (mt hr.1 hoff) (hin ▸ scanIn_zero s) (hgen ▸ scanGen_zero s)]
  exact finish_of_len_zero hi hlen

end EmptyRange

/-- In a well-formed configuration OUT has room for ACGEN's 72 elements and, past PARAM, for the outputs of H2A and LFSR
(60_exceptions.md R65). -/
theorem outputs_fit_of_wf {s : State} (h : s.cfg.wf = true) :
    72 ≤ s.cfg.outSize ∧ (¬paramTable .h2a s → s.len.toNat ≤ s.cfg.outSize) ∧
      (¬paramTable .lfsr s → s.len.toNat - s.klen.toNat ≤ s.cfg.outSize) := by
  have ⟨_, _, hout, _, _, hgen⟩ := Config.sizes h
  simp only [paramTable]
  omega

/-- Settles O11: RANGE is checked next; an empty range fails only there; and the sizes of a well-formed configuration. -/
theorem rangeConditionsComplete : Obligations.RangeConditionsComplete := by
  refine ⟨failsWith_range_iff, fun i s hi hlen => ⟨fun hoff => ?_, fun hoff => ?_⟩,
    fun s g hk hg hpos hsize hgen => ?_, fun s h => outputs_fit_of_wf h⟩
  · exact exec_of_evalOf_ok (evalOf_of_len_zero hi hlen (by omega))
  · obtain ⟨hp, hr⟩ := checks_of_len_zero hi hlen
    exact (failsWith_range_iff i s).2 ⟨hp, hr.2 hoff⟩
  · have hk0 : s.klen.toNat = 0 := by rw [hk]; rfl
    refine ⟨fun hoff => ?_, fun hoff => (failsWith_range_iff .lfsr s).2 ⟨?_, ?_⟩⟩
    · have hdata : s.reads s.klen.toNat [] := hk0 ▸ State.reads_nil hoff.le
      exact ⟨_, exec_lfsr (by omega) (by omega) hsize hdata hgen, rfl⟩
    · simp only [paramTable]; omega
    · simp only [rangeTable]; omega

/-! CONTRACT (60_exceptions.md R66). -/

theorem failsWith_contract_iff (i : Instr) (s : State) :
    FailsWith i s 4 ↔ ¬paramTable i s ∧ ¬rangeTable i s ∧ ScansBreakContract i s :=
  (failsWith_iff i s .contract).trans (evalOf_eq_err_contract i s)

/-- Where every element has its mark, the scans break the contract exactly when some element is no bit. -/
theorem scansBreakContract_of_marked {i : Instr} {s : State}
    (hin : ∀ j < checkedIn i s, (s.inElem (s.offset.toNat + j)).isSome = true)
    (hgen : ∀ j < checkedGen i s, (s.genElem j).isSome = true) :
    ScansBreakContract i s ↔
      (∃ j < checkedIn i s, ¬isBit (s.inElem (s.offset.toNat + j))) ∨ (∃ j < checkedGen i s, ¬isBit (s.genElem j)) := by
  rw [ScansBreakContract, scanIn_eq_contract_of_marked hin, scanIn_bits_iff, scanGen_eq_contract_of_marked hgen]
  by_cases h : ∃ j < checkedIn i s, ¬isBit (s.inElem (s.offset.toNat + j))
  · exact iff_of_true (.inl h) (.inl h)
  · have hBits : ∀ j < checkedIn i s, isBit (s.inElem (s.offset.toNat + j)) := by simpa using h
    exact or_congr Iff.rfl (and_iff_right hBits)

/-- Settles O12: CONTRACT is what the scans meet past PARAM and RANGE, and each scan says which element stops it. -/
theorem contractConditionsComplete : Obligations.ContractConditionsComplete := by
  refine ⟨fun i s hp hr hin hgen => ?_, fun i s => ?_⟩
  · rw [failsWith_contract_iff, scansBreakContract_of_marked hin hgen]
    simp only [hp, hr, not_false_iff, true_and]
  · rw [failsWith_contract_iff, ScansBreakContract, scanIn_eq_contract, scanIn_bits_iff, scanGen_eq_contract]
    simp only [← isSome_and_not_isBit_iff, and_assoc]

/-! UNCORRECTABLE (60_exceptions.md R67). -/

/-- FEC23 past its checks is uncorrectable exactly when some block has no decoding. -/
theorem evalOf_fec23_uncorrectable {s : State} {bs : List Bool} (hout : 10 * s.blocks ≤ s.cfg.outSize)
    (h : s.reads (15 * s.blocks) bs) :
    evalOf .fec23 s = .err .uncorrectable ↔ ∃ b < s.blocks, fec23Block s.cfg.g23 (rxBlock bs b) = none := by
  rw [evalOf_fec23 hout h, ← fec23Blocks_eq_none, finish]
  cases fec23Blocks s.cfg.g23 s.blocks bs <;> simp

/-- Settles O14: only FEC23's computation fails, and it does exactly when a block has no decoding. -/
theorem uncorrectableConditionComplete : Obligations.UncorrectableConditionComplete := by
  refine ⟨fun i s h => eq_fec23_of_uncorrectable ((failsWith_iff i s .uncorrectable).1 h), fun s bs h hout =>
    ⟨?_, failsWith_iff_exec .fec23 s .uncorrectable⟩⟩
  refine Iff.trans ?_ (failsWith_iff_exec .fec23 s .uncorrectable)
  rw [failsWith_iff, evalOf_fec23_uncorrectable hout h]
  have ⟨hlen, _, _⟩ := h
  exact exists_congr fun b => and_congr_right fun hb => (fec23Block_eq_none (rxBlock_length hlen hb)).symm

end Sys2Proof.Machine
end

section
/-! The interrupt line (60_exceptions.md R69, 10_state.md R26) after each operation that can move it. -/

namespace Sys2Proof.Machine

@[simp] theorem commitOk_irq (S : Staged) (s : State) : (commitOk S s).irq = s.irqEn := Bool.and_true _

@[simp] theorem commitErr_irq (c : ErrorCode) (s : State) : (commitErr c s).irq = s.irqEn := Bool.and_true _

/-- A commit, successful or not, raises the line exactly when it is enabled. -/
theorem engineStep_irq {s t : State} {w : Word} (hp : s.pend = .busy w) (h : engineStep s = .next t) :
    t.irq = s.irqEn := by
  rcases engineStep_next h with ⟨hIdle, -⟩ | ⟨w', i, S, -, -, -, rfl⟩ | ⟨w', c, -, rfl⟩
  · rw [hp] at hIdle; cases hIdle
  · exact commitOk_irq S s
  · exact commitErr_irq c s

theorem writeReg_ctrl (v : Word) (s : State) :
    writeReg .ctrl v s = if v.getLsbD 1 then softReset s else { s with irqEn := v.getLsbD 0 } := rfl

/-- The write-1-to-clear of STATUS lowers the line exactly when it clears DONE. -/
theorem irq_writeOneToClear (v : Word) (s : State) :
    ({ s with status := s.status.writeOneToClear v } : State).irq = (s.irq && !v.getLsbD 1) :=
  (Bool.and_assoc _ _ _).symm

/-- Settles O53: a commit, then the writes of CTRL, STATUS and CMD and the hard reset, each by what it writes. -/
theorem interruptLineFollowsDone : Obligations.InterruptLineFollowsDone := by
  refine ⟨fun s => rfl, fun s t w hp hTurn h => ?_, fun s v rest hv => ?_, fun s v rest hv => ?_,
    fun s v rest hp => ⟨?_, _, step_issue hp v rest, issue_irq v _⟩, fun s rest => ⟨_, rfl, rfl⟩⟩
  · exact engineStep_irq (s := { s with inbox := s.inbox.tail }) hp (step_engineTurn hTurn ▸ h)
  · exact ⟨_, step_writeReg s .ctrl v rest, by rw [writeReg_ctrl, hv]; rfl⟩
  · exact ⟨_, step_writeReg s .ctrl v rest, by rw [writeReg_ctrl, hv]; rfl⟩
  · refine ⟨_, step_writeReg s .status v rest, ?_⟩
    rw [writeReg, whenIdle_idle (s := { s with inbox := rest }) hp]
    exact irq_writeOneToClear v { s with inbox := rest }

end Sys2Proof.Machine
end

section
/-! The two resets (70_reset_and_hazards.md R190, R192) as the host sees them, from every state, busy or not. -/

namespace Sys2Proof.Machine

/-- After a soft reset every register but ID reads 0. -/
theorem readReg_softReset (r : Reg) (s : State) :
    readReg r (softReset s) = if r = .id then 0x41434431 else 0 := by
  cases r with
  | ctrl => exact (ofNat_eq_ctrlWord (softReset s)).symm
  | status => exact (ofNat_eq_statusWord Status.reset).symm
  | _ => rfl

/-- The hard reset is the soft reset of the state with every mark cleared. -/
theorem hardReset_eq_softReset (s : State) : hardReset s = softReset { s with mem := [] } := rfl

@[simp] theorem softReset_irq (s : State) : (softReset s).irq = false := rfl

/-- The reset state is one that a hard reset leaves. -/
theorem hardReset_reset : hardReset State.reset = State.reset := rfl

/-- What R190 says of a state right after a hard reset: registers, PEND, interrupt line and marks. -/
theorem hardReset_clears (s : State) :
    (∀ r, readReg r (hardReset s) = if r = .id then 0x41434431 else 0) ∧ (hardReset s).pend = .idle ∧
      (hardReset s).irq = false ∧ ∀ a, (hardReset s).mem.read a = none := by
  rw [hardReset_eq_softReset]
  exact ⟨fun r => readReg_softReset r _, softReset_pend _, softReset_irq _, Memory.read_nil⟩

/-- Settles O41: what a hard reset leaves, and the reset state is such a state. -/
theorem hardResetClearsEverything : Obligations.HardResetClearsEverything := by
  refine ⟨fun s rest => ?_, hardReset_reset ▸ hardReset_clears State.reset⟩
  obtain ⟨hReg, hPend, hIrq, hMem⟩ := hardReset_clears { s with inbox := rest }
  exact ⟨_, step_inbox_cons s .hardReset rest, hReg, hPend, hIrq, hMem, hardReset_cfg _, hardReset_inbox _⟩

/-- Settles O42: a write of CTRL is the soft reset or sets IRQ_EN, as bit 1 of the value says. -/
theorem softResetKeepsBuffers : Obligations.SoftResetKeepsBuffers := by
  intro s v rest
  have hStep := step_writeReg s .ctrl v rest
  rw [writeReg_ctrl] at hStep
  refine ⟨fun hv => ?_, fun hv => ?_⟩
  · rw [if_pos hv] at hStep
    exact ⟨_, hStep, fun r => readReg_softReset r _, softReset_pend _, softReset_irq _, readReg_softReset .status _,
      softReset_mem _, softReset_cfg _, softReset_inbox _⟩
  · rwa [if_neg (ne_true_of_eq_false hv)] at hStep

end Sys2Proof.Machine
end

section
/-! Host accesses while a command is pending (70_reset_and_hazards.md R194): which of them answer and what they leave. -/

namespace Sys2Proof.Machine

/-- A read answers when every buffer element it reaches has its mark (10_state.md R29). -/
theorem hostRead_of_marked {s : State} {a n : Nat}
    (h : ∀ j < n, isElement s.cfg (a + j) = true → (s.mem.read (a + j)).isSome = true) :
    ∃ v, hostRead s a n = .next { s with readLog := v :: s.readLog } := by
  have hBytes : ∀ j < n, (readByte s (a + j)).isSome = true := fun j hj => (readByte_isSome s (a + j)).2 (h j hj)
  obtain ⟨v, hv⟩ := Option.isSome_iff_exists.1 ((memRead_isSome s a n).2 hBytes)
  exact ⟨v, by rw [hostRead, hv]⟩

/-- A host write while a command is pending, other than of CTRL, changes nothing. -/
theorem memWrite_busy_of_ne_ctrl {s : State} {w : Word} (hp : s.pend = .busy w) {a : Nat} (ha : a ≠ 0x004) (n : Nat)
    (v : Word) : memWrite s a n v = s :=
  (memWrite_busy hp a n v fun e => absurd e ha).resolve_right fun h => ha h.1

/-- Settles O52: a legal write is lost, a legal read of the register region or of marked elements answers, and a read
that answers has only recorded its value. -/
theorem writesWhileBusyAreIgnored : Obligations.WritesWhileBusyAreIgnored := by
  intro s w rest a n hp ha hLegal
  have hl : legalAccess a n = true := (legalAccess_iff a n).2 hLegal
  refine ⟨fun v hCtrl => ?_, fun hRead => ?_, fun t h => ?_⟩
  · rw [step_writeEvent s n v rest ha, if_pos hl, memWrite_busy_of_ne_ctrl (s := { s with inbox := rest }) hp hCtrl]
  · rcases hLegal with ⟨hReg, rfl, hAligned⟩ | ⟨hBuffer, -⟩
    · exact ⟨_, step_readRegionWord s rest hAligned hReg⟩
    · rw [step_readEvent s n rest ha, if_pos hl]
      exact hostRead_of_marked (s := { s with inbox := rest }) (hRead.resolve_left (Nat.not_lt.2 hBuffer))
  · rw [step_readEvent s n rest ha, if_pos hl] at h
    obtain ⟨v, -, rfl⟩ := hostRead_next h
    exact ⟨v, rfl⟩

end Sys2Proof.Machine
end

section
/-! A pending command commits (70_reset_and_hazards.md R199; log 13): an access that is no soft reset keeps it pending, so
it is still there when the inbox is empty and the engine takes its turn. -/

namespace Sys2Proof.Machine

/-- The engine's turn on a pending command, successful or not, clears PEND and BUSY and sets DONE (60_exceptions.md R62,
R68). -/
theorem engineStep_commits {s t : State} {w : Word} (hp : s.pend = .busy w) (h : engineStep s = .next t) :
    t.pend = .idle ∧ t.status.busy = false ∧ t.status.doneFlag = true := by
  rcases engineStep_next h with ⟨hIdle, -⟩ | ⟨w', i, S, -, -, -, rfl⟩ | ⟨w', c, -, rfl⟩
  · rw [hp] at hIdle; cases hIdle
  · exact ⟨commitOk_pend S s, by rw [commitOk_status], by rw [commitOk_status]⟩
  · exact ⟨commitErr_pend c s, by rw [commitErr_status], by rw [commitErr_status]⟩

/-- An event that is a host access and no soft reset (70_reset_and_hazards.md R192). -/
def NoReset (c : Config) (e : Event) : Prop :=
  ∃ h, e = .access h ∧ ∀ n v, h = .write (c.base + 0x004) n v → v.getLsbD 1 = false

/-- A host access that is no soft reset leaves the pending command pending. -/
theorem hostStep_keeps_busy {h : HostAccess} {s t : State} {w : Word} (hp : s.pend = .busy w)
    (hCtrl : ∀ n v, h = .write (s.cfg.base + 0x004) n v → v.getLsbD 1 = false) (hs : hostStep h s = .next t) :
    t.pend = .busy w := by
  rcases hostStep_next hs with rfl | ⟨v, rfl⟩ | ⟨a, n, v, rfl, -, rfl⟩
  · exact hp
  · exact hp
  · rcases memWrite_busy hp a n v (fun e => hCtrl n v (by rw [e])) with e | ⟨-, e⟩
    · rw [e, hp]
    · rw [e]; exact hp

/-- A clean run through such accesses and one step further ends with the commit. -/
theorem cleanRun_commits {l : List Event} {s t : State} {w : Word} (hp : s.pend = .busy w) (hl : s.inbox = l)
    (hAccess : ∀ e ∈ l, NoReset s.cfg e) (h : CleanRun (l.length + 1) s t) :
    t.pend = .idle ∧ t.status.busy = false ∧ t.status.doneFlag = true := by
  induction l generalizing s with
  | nil =>
    obtain ⟨u, hStep, hRest⟩ := cleanRun_succ h
    obtain rfl := cleanRun_zero hRest
    exact engineStep_commits hp (step_empty hl ▸ hStep)
  | cons e l ih =>
    obtain ⟨u, hStep, hRest⟩ := cleanRun_succ h
    obtain ⟨a, rfl, hCtrl⟩ := hAccess e List.mem_cons_self
    have hInbox : u.inbox = l := by rw [step_inbox hStep, hl, List.tail_cons]
    have hCfg : u.cfg = s.cfg := step_keeps_cfg hStep
    rw [step_event hl] at hStep
    have hPend : u.pend = .busy w := hostStep_keeps_busy (s := { s with inbox := l }) hp hCtrl hStep
    exact ih hPend hInbox (fun e he => hCfg ▸ hAccess e (List.mem_cons_of_mem _ he)) hRest

/-- Settles O55: the run through the accesses still to come, then the engine's turn. -/
theorem pendingCommandCommits : Obligations.PendingCommandCommits :=
  fun _ _ _ hp hAccess h => cleanRun_commits hp rfl hAccess h

end Sys2Proof.Machine
end
